-- ==== Sys2Proof/Word.lean ====
section
/-! DEFINITION. The two word types of the block and the plain arithmetic every rule uses (00_scope.md R7, R10). -/

namespace Sys2Proof

/-- A buffer byte (20_memory.md R62, R63). -/
abbrev Byte := BitVec 8

/-- A register, a bus address or the bus data lines: 32 bits (10_state.md R21, 20_memory.md R60). -/
abbrev Word := BitVec 32

/-- `bitlen(n)`: the number of bits in the binary form of `n` without leading zeros, for `n ≥ 1` (00_scope.md R10). -/
def bitlen (n : Nat) : Nat := Nat.log2 n + 1

end Sys2Proof
end

