-- ==== Sys2Proof/Machine/Registers.lean ====
section
/-! DEFINITION. The types of the sequencer's and the engines' registers (10_state.md R29 to R42): what State holds
that no host transaction can address (20_memory.md R65). Counters, indices and codes are numbers: the spec never
lets one outgrow its width (10_state.md R44), and `Sys2Proof/Safety.lean` states the widths as an invariant. -/

namespace Sys2Proof.Machine

/-- PHASE, the sequencer's phase (10_state.md R30). -/
inductive Phase where
  | idle
  | lzeScan
  | lzeFinish
  | lzdLoop
  | hueCount
  | hueHeader
  | hueBuild
  | hueCodegen
  | huePayload
  | hudHeader
  | hudBuild
  | hudWalk
  deriving DecidableEq, Repr, Inhabited

/-- STATUS.ERR's values (60_exceptions.md R300); the codes 7 to 15 are reserved and never produced. -/
inductive ErrCode where
  | none
  | unexpectedEof
  | corruptStream
  | truncatedStream
  | badHeader
  | illegalCommand
  | outputOverflow
  deriving DecidableEq, Repr, Inhabited

/-- One record of NODE (10_state.md R39): a leaf with its symbol and frequency, or an internal node with the
indices of its children and the sum of their frequencies. -/
inductive Node where
  | leaf (sym : Byte) (freq : Nat)
  | internal (left right : Nat) (freq : Nat)
  deriving DecidableEq, Repr, Inhabited

/-- One entry of LZE_DICT: the key `(pre, byte)` and its code (10_state.md R35). -/
structure DictEntry where
  pre : Nat
  byte : Byte
  code : Nat
  deriving DecidableEq, Repr, Inhabited

/-- One entry of LZD_TAB: its code and `prefix`, `last`, `first` (10_state.md R37). -/
structure TabEntry where
  code : Nat
  pre : Nat
  last : Byte
  first : Byte
  deriving DecidableEq, Repr, Inhabited

/-- The BitWriter's partial output byte: BW_BUF and BW_CNT (10_state.md R31). -/
structure BitWriter where
  buf : Byte
  cnt : BitVec 3
  deriving DecidableEq, Repr, Inhabited

/-- The LZW encoder's registers and dictionary, newest entry first (10_state.md R34, R35). -/
structure LzeRegs where
  has : Bool
  matched : Nat
  next : Nat
  width : Nat
  dict : List DictEntry
  deriving DecidableEq, Repr, Inhabited

/-- The LZW decoder's registers and its table's valid entries, newest first (10_state.md R36, R37). -/
structure LzdRegs where
  has : Bool
  prev : Nat
  next : Nat
  width : Nat
  tab : List TabEntry
  deriving DecidableEq, Repr, Inhabited

/-- FREQ, NODE, NODE_CNT, ACTIVE, ROOT and CT (10_state.md R38 to R41). `node` lists the created nodes by index;
`active` lists ACTIVE's elements, oldest first; an entry of `ct` is a code's bit string, its `len` the length. -/
structure HufRegs where
  freq : List Nat
  node : List Node
  nodeCnt : Nat
  active : List Nat
  root : Nat
  ct : List (List Bool)
  deriving DecidableEq, Repr, Inhabited

/-- The Huffman decoder's registers HUD_D, HUD_N, HUD_SUM, HUD_LAST, SYM_CNT and WALK (10_state.md R42). -/
structure HudRegs where
  d : Nat
  n : Nat
  sum : Nat
  last : Nat
  symCnt : Nat
  walk : Nat
  deriving DecidableEq, Repr, Inhabited

/-- All hidden state but PHASE: the command latch CMD_ALG, CMD_MODE, IN_LEN_L (10_state.md R29), the packer's
registers and cursors (R31 to R33) and the engines (R34 to R42). -/
structure Engine where
  cmdAlg : BitVec 2
  cmdMode : Bool
  inLenL : Nat
  bw : BitWriter
  outPos : Nat
  brPos : Nat
  inPos : Nat
  lze : LzeRegs
  lzd : LzdRegs
  huf : HufRegs
  hud : HudRegs
  deriving DecidableEq, Repr, Inhabited

end Sys2Proof.Machine
end

