-- ==== Sys2Proof/Config.lean ====
section
/-! DEFINITION. What an instance of the hardware fixes (00_scope.md R5, R6) and the values the spec leaves
unspecified (93_implementation_defined.md U1 to U4), each an opaque constant: nothing can be proved of its value. -/

namespace Sys2Proof

/-- The implementation parameters (00_scope.md R5). An instance's values stand in its CAP registers
(10_state.md R27); every statement of the package holds for every legal choice. -/
structure Params where
  maxCodeWidth : Nat
  inCap : Nat
  outCap : Nat
  deriving DecidableEq, Repr, Inhabited

namespace Config

/-- The legal values of the parameters (00_scope.md R5). -/
def legal (p : Params) : Bool :=
  (9 ≤ p.maxCodeWidth && p.maxCodeWidth ≤ 31) && (1 ≤ p.inCap && p.inCap ≤ 2 ^ 30) &&
    (1 ≤ p.outCap && p.outCap ≤ 2 ^ 30)

/-- DESIGN CHOICE (log 5): the parameters of the instance that State.reset is, those of the spec's programs
(95_test_vectors.md Part 3). -/
def resetParams : Params := { maxCodeWidth := 12, inCap := 1024, outCap := 2048 }

/-- MIN_WIDTH (00_scope.md R6). -/
abbrev minWidth : Nat := 9

/-- EOS, the end-of-stream code (00_scope.md R6). -/
abbrev eos : Nat := 256

/-- FIRST_CODE (00_scope.md R6). -/
abbrev firstCode : Nat := 257

/-- Free value (log 7): what IN byte `i` holds when the host has not written it since reset number `epoch`
(10_state.md R46, 93_implementation_defined.md U3). -/
opaque freeInByte (epoch i : Nat) : Byte

/-- Free value (log 8): what OUT byte `k` holds when nothing has written it since the reset or failed command
number `epoch` (93_implementation_defined.md U1, 10_state.md R45). -/
opaque freeOutByte (epoch k : Nat) : Byte

/-- Free value (log 9): what draw number `n`, a host read of OUT while BUSY = 1, returns
(93_implementation_defined.md U4). -/
opaque freeBusyByte (n : Nat) : Byte

/-- Free value (log 10): the hidden registers after draw number `n`, an error or a reset
(93_implementation_defined.md U2). -/
opaque freeEngine (n : Nat) : Machine.Engine

/-- Free value (log 12): NODE entry `i` where no node has been created (10_state.md R39). -/
opaque freeNode (i : Nat) : Machine.Node

/-- Free value (log 12): the `left` or `right` field of NODE entry `i` where it is a LEAF (10_state.md R39). -/
opaque freeChild (i : Nat) : Nat

end Config

end Sys2Proof
end

