-- ==== Sys2Proof/Syntax.lean ====
section
/-! DEFINITION. The instructions: one constructor per row of spec/opcode_table.json (30_encoding.md R90). -/

namespace Sys2Proof

/-- The direction of a bus transaction (30_encoding.md R94). -/
inductive Dir where
  | wr
  | rd
  deriving DecidableEq, Repr, Inhabited

/-- One instruction. The constructors are in three formats: CTRL (30_encoding.md R92), BUS (R94), LZW (R96). -/
inductive Instr where
  /-- CFG: store MODE, ALG, IE; no command (40_commands.md R136). -/
  | cfg (mode : Bool) (alg : BitVec 2) (ie : Bool)
  /-- LZW.C (40_commands.md R142). -/
  | lzwC (ie : Bool)
  /-- LZW.D (40_commands.md R143). -/
  | lzwD (ie : Bool)
  /-- HUF.C (40_commands.md R144). -/
  | hufC (ie : Bool)
  /-- HUF.D (40_commands.md R145). -/
  | hufD (ie : Bool)
  /-- ILLEGAL: START with a reserved ALG (40_commands.md R146). -/
  | illegal (mode : Bool) (alg : BitVec 2) (ie : Bool)
  /-- WR.REG: write `v` to the register at offset `4 * idx`, `idx` being A[29:2] (40_commands.md R130). -/
  | wrReg (idx : BitVec 28) (v : Word)
  /-- RD.REG: read the register at offset `4 * idx` (40_commands.md R131). -/
  | rdReg (idx : BitVec 28)
  /-- WR.IN: write byte `b` at input index `i` (40_commands.md R132). -/
  | wrIn (i : BitVec 30) (b : Byte)
  /-- RD.IN: read the input byte at index `i` (40_commands.md R133). -/
  | rdIn (i : BitVec 30)
  /-- RD.OUT: read the output byte at index `k` (40_commands.md R134). -/
  | rdOut (k : BitVec 30)
  /-- WR.OUT: write at output index `k`, ignored (40_commands.md R135). -/
  | wrOut (k : BitVec 30) (b : Byte)
  /-- RSV: an access to the reserved region (20_memory.md R64). -/
  | rsv (dir : Dir) (a : BitVec 30) (d : Word)
  /-- LZW.LIT: the code of a single byte (43_lzw_decoder.md R203). -/
  | lzwLit (b : Byte)
  /-- LZW.EOS: the end-of-stream code (43_lzw_decoder.md R202). -/
  | lzwEos
  /-- LZW.REF: the code of a table entry (43_lzw_decoder.md R203). -/
  | lzwRef (c : Nat)
  /-- LZW.KWKWK: the next code the decoder is about to assign (43_lzw_decoder.md R203). -/
  | lzwKwkwk (c : Nat)
  /-- LZW.BAD: an unresolvable code (43_lzw_decoder.md R203). -/
  | lzwBad (c : Nat)
  deriving DecidableEq, Repr, Inhabited

end Sys2Proof
end

