-- ==== Sys2Proof/WellFormed.lean ====
section
/-! DEFINITION. Which instructions have an encoding: the operand values that the rows of 30_encoding.md R92, R94
and R96 admit. -/

namespace Sys2Proof

/-- What the class of an LZW code depends on (30_encoding.md R96): LZD_NEXT, LZD_HAS and LZD_WIDTH. -/
structure CodeCtx where
  next : Nat
  has : Bool
  width : Nat
  deriving DecidableEq, Repr, Inhabited

/-- An instruction that some transaction, or some code of `ctx.width` bits read in context `ctx`, encodes.
An ILLEGAL has a reserved ALG. A WR.REG is not at offset 0: that write is "further decoded by rule R92"
(30_encoding.md R94). REF, KWKWK and BAD carry a code of their class that fits the width. -/
def wellFormed (ctx : CodeCtx) : Instr → Bool
  | .cfg _ _ _ => true
  | .lzwC _ => true
  | .lzwD _ => true
  | .hufC _ => true
  | .hufD _ => true
  | .illegal _ alg _ => alg.getLsbD 1
  | .wrReg idx _ => idx != 0
  | .rdReg _ => true
  | .wrIn _ _ => true
  | .rdIn _ => true
  | .rdOut _ => true
  | .wrOut _ _ => true
  | .rsv _ _ _ => true
  | .lzwLit _ => 9 ≤ ctx.width
  | .lzwEos => 9 ≤ ctx.width
  | .lzwRef c => Config.firstCode ≤ c && c < ctx.next && c < 2 ^ ctx.width
  | .lzwKwkwk c => Config.firstCode ≤ c && c == ctx.next && ctx.has && c < 2 ^ ctx.width
  | .lzwBad c =>
    Config.firstCode ≤ c && (ctx.next < c || (c == ctx.next && !ctx.has)) && c < 2 ^ ctx.width

end Sys2Proof
end

