-- ==== Sys2Proof/Decode.lean ====
section
/-! DEFINITION. From what the hardware receives (a bus transaction, or a code of the LZW stream) to an instruction,
and back. Decoding is total: the tables of 30_encoding.md R92, R94 and R96 leave no value without a row. The numbered
words of `decodeTableWord` are the one place where something is rejected: a word wider than a transaction. -/

namespace Sys2Proof

/-- A bus transaction: direction, address lines A[31:0], data lines D[31:0] as the host drives them
(30_encoding.md R94). A read's data lines are the block's to drive, and decoding ignores them. -/
structure Txn where
  dir : Dir
  addr : Word
  data : Word
  deriving DecidableEq, Repr, Inhabited

/-- What an instruction is read from: a bus transaction, or a code the LZW decoder has read. -/
inductive Fetched where
  | bus (t : Txn)
  | code (c : Nat)
  deriving DecidableEq, Repr, Inhabited

/-- A[31:30], which selects the region (20_memory.md R60). -/
def addrRegion (a : Word) : BitVec 2 := a.extractLsb' 30 2

/-- A[29:2], the register's index: its offset is four times this (20_memory.md R60). -/
def addrRegIndex (a : Word) : BitVec 28 := a.extractLsb' 2 28

/-- A[29:0], the byte index of a buffer access (20_memory.md R60). -/
def addrIndex (a : Word) : BitVec 30 := a.extractLsb' 0 30

/-- CTRL's MODE field, bit 1 (30_encoding.md R91). -/
def ctrlMode (v : Word) : Bool := v.getLsbD 1

/-- CTRL's ALG field, bits 3:2 (30_encoding.md R91). -/
def ctrlAlg (v : Word) : BitVec 2 := v.extractLsb' 2 2

/-- CTRL's IE field, bit 4 (30_encoding.md R91). -/
def ctrlIe (v : Word) : Bool := v.getLsbD 4

/-- CTRL's START field, bit 0 (30_encoding.md R91). -/
def ctrlStart (v : Word) : Bool := v.getLsbD 0

/-- The command decode of a word written to CTRL, from bits 3:0 alone (30_encoding.md R92). -/
def decodeCtrl (v : Word) : Instr :=
  if ctrlStart v then
    if ctrlAlg v = 0#2 then
      if ctrlMode v then .lzwD (ctrlIe v) else .lzwC (ctrlIe v)
    else if ctrlAlg v = 1#2 then
      if ctrlMode v then .hufD (ctrlIe v) else .hufC (ctrlIe v)
    else .illegal (ctrlMode v) (ctrlAlg v) (ctrlIe v)
  else .cfg (ctrlMode v) (ctrlAlg v) (ctrlIe v)

/-- The decode of a bus transaction (30_encoding.md R94; a WR.REG at offset 0 goes on to R92). -/
def decodeTxn (t : Txn) : Instr :=
  if addrRegion t.addr = 0#2 then
    match t.dir with
    | .wr => if addrRegIndex t.addr = 0 then decodeCtrl t.data else .wrReg (addrRegIndex t.addr) t.data
    | .rd => .rdReg (addrRegIndex t.addr)
  else if addrRegion t.addr = 1#2 then
    match t.dir with
    | .wr => .wrIn (addrIndex t.addr) (t.data.setWidth 8)
    | .rd => .rdIn (addrIndex t.addr)
  else if addrRegion t.addr = 2#2 then
    match t.dir with
    | .wr => .wrOut (addrIndex t.addr) (t.data.setWidth 8)
    | .rd => .rdOut (addrIndex t.addr)
  else .rsv t.dir (addrIndex t.addr) t.data

/-- The class of an LZW code, the conditions in the table's order (30_encoding.md R96). -/
def decodeCode (ctx : CodeCtx) (c : Nat) : Instr :=
  if c = Config.eos then .lzwEos
  else if c ≤ 255 then .lzwLit (BitVec.ofNat 8 c)
  else if Config.firstCode ≤ c ∧ c < ctx.next then .lzwRef c
  else if c = ctx.next ∧ ctx.has = true then .lzwKwkwk c
  else .lzwBad c

/-- The decoder. -/
def decode (ctx : CodeCtx) : Fetched → Instr
  | .bus t => decodeTxn t
  | .code c => decodeCode ctx c

/-- The bits of a stream value of width `w`, most significant first (41_bitpacker.md R154 `bits(v, w)`). -/
def bitsOf (v : Nat) : Nat → List Bool
  | 0 => []
  | w + 1 => v.testBit w :: bitsOf v w

/-- The unsigned number whose bits, most significant first, are given (30_encoding.md R99). -/
def ofBits (bs : List Bool) : Nat := bs.foldl (fun v b => 2 * v + b.toNat) 0

/-- The decode of the bits of one code at the context's width (30_encoding.md R99, R100); another number of bits
is not one code. -/
def decodeCodeBits (ctx : CodeCtx) (bs : List Bool) : Option Instr :=
  if bs.length = ctx.width then some (decodeCode ctx (ofBits bs)) else none

/-- Bit numbering of a transaction as one word (log 3): D in bits 31:0, A in bits 63:32, the direction in bit 64
(WR = 0, RD = 1), so that a short word is a write of that word to CTRL. -/
def txnOfNat (w : Nat) : Txn :=
  { dir := if w.testBit 64 then .rd else .wr
    addr := BitVec.ofNat 32 (w / 2 ^ 32)
    data := BitVec.ofNat 32 w }

/-- The inverse of `txnOfNat` (log 3). -/
def natOfTxn (t : Txn) : Nat :=
  (match t.dir with | .wr => 0 | .rd => 2 ^ 64) + t.addr.toNat * 2 ^ 32 + t.data.toNat

/-- The transaction that the word `w` of `nbits` bits stands for; the bits from `nbits` up are 0. -/
def tableTxn (nbits w : Nat) : Txn := txnOfNat (w % 2 ^ nbits)

/-- What the decoder reads from an opcode-table word: rows of format CTRL are the word written to CTRL, rows of
format BUS the whole transaction (log 3). A word with a bit above a transaction's is rejected. -/
def decodeTableWord (nbits w : Nat) : Option Instr :=
  if w % 2 ^ nbits < 2 ^ 65 then some (decodeTxn (tableTxn nbits w)) else none

/-! ### The encoder -/

/-- The word of the fields of 30_encoding.md R91; reserved bits are 0. -/
def ctrlWord (start mode : Bool) (alg : BitVec 2) (ie : Bool) : Word :=
  BitVec.ofNat 32 (start.toNat + 2 * mode.toNat + 4 * alg.toNat + 16 * ie.toNat)

/-- The address of byte index `i` in a region (20_memory.md R60). -/
def addrOf (region : BitVec 2) (i : BitVec 30) : Word := region ++ i

/-- The address of the register at offset `4 * idx` (20_memory.md R60). -/
def regAddr (idx : BitVec 28) : Word := 0#2 ++ idx ++ 0#2

/-- The write of `v` to CTRL. -/
def ctrlTxn (v : Word) : Txn := { dir := .wr, addr := 0, data := v }

/-- The encoder: what is on the bus, or in the code stream, for an instruction (30_encoding.md R91, R92, R94, R95).
Ignored bits are 0. -/
def encode : Instr → Fetched
  | .cfg mode alg ie => .bus (ctrlTxn (ctrlWord false mode alg ie))
  | .lzwC ie => .bus (ctrlTxn (ctrlWord true false 0 ie))
  | .lzwD ie => .bus (ctrlTxn (ctrlWord true true 0 ie))
  | .hufC ie => .bus (ctrlTxn (ctrlWord true false 1 ie))
  | .hufD ie => .bus (ctrlTxn (ctrlWord true true 1 ie))
  | .illegal mode alg ie => .bus (ctrlTxn (ctrlWord true mode alg ie))
  | .wrReg idx v => .bus { dir := .wr, addr := regAddr idx, data := v }
  | .rdReg idx => .bus { dir := .rd, addr := regAddr idx, data := 0 }
  | .wrIn i b => .bus { dir := .wr, addr := addrOf 1 i, data := b.setWidth 32 }
  | .rdIn i => .bus { dir := .rd, addr := addrOf 1 i, data := 0 }
  | .rdOut k => .bus { dir := .rd, addr := addrOf 2 k, data := 0 }
  | .wrOut k b => .bus { dir := .wr, addr := addrOf 2 k, data := b.setWidth 32 }
  | .rsv dir a d => .bus { dir := dir, addr := addrOf 3 a, data := d }
  | .lzwLit b => .code b.toNat
  | .lzwEos => .code Config.eos
  | .lzwRef c => .code c
  | .lzwKwkwk c => .code c
  | .lzwBad c => .code c

/-- The bits a code instruction stands for in the stream, at the context's width (30_encoding.md R95). -/
def encodeCodeBits (ctx : CodeCtx) (i : Instr) : Option (List Bool) :=
  match encode i with
  | .code c => some (bitsOf c ctx.width)
  | .bus _ => none

/-- The numbered word of a bus instruction (log 3). -/
def encodeWord (i : Instr) : Option Nat :=
  match encode i with
  | .bus t => some (natOfTxn t)
  | .code _ => none

end Sys2Proof
end

