-- ==== Sys2Proof/Machine/State.lean ====
section
/-! DEFINITION. The state of the block (10_state.md R20) as plain data, and the state after reset (R45). -/

namespace Sys2Proof.Machine

/-- A buffer: the bytes that something has written, as (index, byte) pairs in strictly rising index order. An
unlisted index holds no written byte; what it reads as is `State.inByte` and `State.outByte`. -/
abbrev Memory := List Host.Cell

/-- What the host's side does next (00_scope.md R3): a bus transaction, an assertion of `rst`
(70_reset_and_hazards.md R330), or nothing, which gives the sequencer its turn (log 1). -/
inductive HostEvent where
  | txn (t : Txn)
  | rst
  | idle
  deriving DecidableEq, Repr, Inhabited

/-- Why the machine stops. Neither happens in a state a run from reset reaches (`Obligations.StepNeverStops`): every
error of the spec is a next state (60_exceptions.md R300). -/
inductive Fault where
  /-- The string S(c) of a code that stands for no entry is needed (43_lzw_decoder.md R200: "`S(256)` is not
  defined"). Raised by LZW.REF and LZW.KWKWK on a code of another class, and by every LZW code with a previous code
  that has no entry. Safe. -/
  | noString
  /-- A tree build ends with no root, ACTIVE being empty (44_huffman_encoder.md R234 requires one leaf). Raised by
  the sequencer in PHASE = HUE_BUILD and HUD_BUILD. Safe. -/
  | noRoot
  deriving DecidableEq, Repr

/-- Why an instruction has no meaning. -/
inductive Refusal where
  /-- No meaning in the model yet; raised by `exec` alone. Safe. -/
  | notModelled (mnemonic : String)
  deriving DecidableEq, Repr

/-- The state of the hardware (10_state.md R20). BUSY, START and `irq` are not stored: R22, R23 and R28 compute them. -/
structure State where
  /-- CAP0, CAP1, CAP2: the instance's parameters (R27). -/
  caps : Params
  /-- CTRL.MODE (R22). -/
  mode : Bool
  /-- CTRL.ALG (R22). -/
  alg : BitVec 2
  /-- CTRL.IE (R22). -/
  ie : Bool
  /-- STATUS.DONE (R23). -/
  done : Bool
  /-- STATUS.REJECTED (R23). -/
  rejected : Bool
  /-- STATUS.ERR (R23). -/
  err : ErrCode
  /-- IN_LEN (R24). -/
  inLen : Word
  /-- OUT_LEN (R25). -/
  outLen : Word
  /-- The IN buffer (20_memory.md R62). -/
  inBuf : Memory
  /-- The OUT buffer (20_memory.md R63). -/
  outBuf : Memory
  /-- PHASE (R30). -/
  phase : Phase
  /-- The rest of the hidden state (R29, R31 to R42). -/
  eng : Engine
  /-- The model's own: D[31:0] as the latest read transaction returned it (log 4). -/
  busData : Word
  /-- The model's own: what the host does next, soonest first (log 1). -/
  hostQueue : List HostEvent
  /-- The model's own: picks the free values of unwritten IN bytes (log 7). -/
  inEpoch : Nat
  /-- The model's own: picks the free values of unspecified OUT bytes (log 8). -/
  outEpoch : Nat
  /-- The model's own: counts the other free values drawn (log 9, log 10). -/
  draws : Nat
  deriving DecidableEq, Repr

/-- DESIGN CHOICE (log 6): the hidden registers of State.reset, where the spec states no value (10_state.md R45):
zero, or empty. -/
def Engine.zero : Engine where
  cmdAlg := 0
  cmdMode := false
  inLenL := 0
  bw := { buf := 0, cnt := 0 }
  outPos := 0
  brPos := 0
  inPos := 0
  lze := { has := false, matched := 0, next := 0, width := 0, dict := [] }
  lzd := { has := false, prev := 0, next := 0, width := 0, tab := [] }
  huf := { freq := List.replicate 256 0, node := [], nodeCnt := 0, active := [], root := 0,
           ct := List.replicate 256 [] }
  hud := { d := 0, n := 0, sum := 0, last := 0, symCnt := 0, walk := 0 }

/-- The state after reset of the instance with parameters `p` (10_state.md R45, 70_reset_and_hazards.md R330). -/
def State.resetWith (p : Params) : State where
  caps := p
  mode := false
  alg := 0
  ie := false
  done := false
  rejected := false
  err := .none
  inLen := 0
  outLen := 0
  inBuf := []
  outBuf := []
  phase := .idle
  eng := Engine.zero
  busData := 0
  hostQueue := []
  inEpoch := 0
  outEpoch := 0
  draws := 0

/-- The machine right after reset (10_state.md R45), with the parameters of log 5. -/
def State.reset : State := State.resetWith Config.resetParams

end Sys2Proof.Machine
end

