-- ==== Sys2Proof/Machine/Flags.lean ====
section
/-! DEFINITION. STATUS and the interrupt output: the hardware's only flags (10_state.md R23, R28). -/

namespace Sys2Proof.Machine

/-- STATUS.BUSY: 1 exactly when PHASE is not IDLE (10_state.md R23). -/
def State.busy (s : State) : Bool := s.phase != .idle

/-- The interrupt output: `STATUS.DONE AND CTRL.IE` (10_state.md R28). -/
def State.irq (s : State) : Bool := s.done && s.ie

/-- The number of an error (60_exceptions.md R300). -/
def ErrCode.code : ErrCode → BitVec 4
  | .none => 0
  | .unexpectedEof => 1
  | .corruptStream => 2
  | .truncatedStream => 3
  | .badHeader => 4
  | .illegalCommand => 5
  | .outputOverflow => 6

/-- STATUS as a word: ERR in bits 7:4, REJECTED, DONE, BUSY in bits 2, 1, 0 (40_commands.md R131). -/
def State.statusWord (s : State) : Word :=
  (s.err.code.setWidth 32 <<< 4) ||| ((BitVec.ofBool s.rejected).setWidth 32 <<< 2) |||
    ((BitVec.ofBool s.done).setWidth 32 <<< 1) ||| (BitVec.ofBool s.busy).setWidth 32

/-- A host write of `v` to STATUS: write 1 to clear DONE (bit 1) and REJECTED (bit 2); nothing else changes
(40_commands.md R148). Clearing DONE is also how the host returns from an error (60_exceptions.md R305). -/
def State.writeStatus (v : Word) (s : State) : State :=
  { s with done := s.done && !v.getLsbD 1, rejected := s.rejected && !v.getLsbD 2 }

end Sys2Proof.Machine
end

