-- ==== Sys2Proof/Machine/Ops.lean ====
section
/-! DEFINITION. The operations every meaning is built from: bytes of the buffers (20_memory.md R62, R63), the output
(41_bitpacker.md R150 to R153), the input bit stream (R155 to R157), and the ends of a command: completion, error
entry, refusal, rejection (40_commands.md R138 to R140, R146). -/

namespace Sys2Proof.Machine

/-- What a step of the machine answers. -/
abbrev Result := Host.Outcome State Fault Refusal

/-! ### Buffers -/

/-- The written byte at an index; `none` where nothing has been written. -/
def Memory.read : Memory → Nat → Option Byte
  | [], _ => none
  | c :: m, a => if c.1 = a then some c.2 else Memory.read m a

/-- Write one byte, keeping the indices strictly rising. -/
def Memory.write : Memory → Nat → Byte → Memory
  | [], a, b => [(a, b)]
  | c :: m, a, b =>
    if a < c.1 then (a, b) :: c :: m
    else if a = c.1 then (a, b) :: m
    else c :: Memory.write m a b

/-- The canonical form: every index of the list is above `lo` and the indices rise strictly. -/
def Memory.above : Nat → Memory → Bool
  | _, [] => true
  | lo, c :: m => decide (lo ≤ c.1) && Memory.above (c.1 + 1) m

/-- The canonical form of a buffer: strictly rising indices. -/
def Memory.wf (m : Memory) : Bool := Memory.above 0 m

/-- Every listed index is below `cap`. -/
def Memory.below (cap : Nat) (m : Memory) : Bool := m.all fun c => decide (c.1 < cap)

/-- `IN[i]`: the byte the host wrote, or the byte's one unspecified value since reset (10_state.md R45, R46; log 7). -/
def State.inByte (s : State) (i : Nat) : Byte := (s.inBuf.read i).getD (Config.freeInByte s.inEpoch i)

/-- `OUT[k]`: the byte a command wrote, or an unspecified value (10_state.md R45, 20_memory.md R63; log 8). -/
def State.outByte (s : State) (k : Nat) : Byte := (s.outBuf.read k).getD (Config.freeOutByte s.outEpoch k)

/-! ### The end of a command, and the refusals -/

/-- `complete()` (40_commands.md R138). -/
def complete (s : State) : State :=
  { s with outLen := BitVec.ofNat 32 s.eng.outPos, err := .none, phase := .idle, done := true }

/-- `raise E`, the error entry (40_commands.md R139, 60_exceptions.md R304). Every OUT byte becomes unspecified
(log 8) and so do the hidden registers (log 10). -/
def raise (e : ErrCode) (s : State) : State :=
  { s with
    outLen := 0
    err := e
    phase := .idle
    done := true
    outBuf := []
    outEpoch := s.outEpoch + 1
    eng := Config.freeEngine s.draws
    draws := s.draws + 1 }

/-- `illegal()`: a START refused at acceptance (40_commands.md R146). -/
def illegal (s : State) : State := { s with err := .illegalCommand, outLen := 0, done := true }

/-- `reject()`: a START while BUSY = 1 (40_commands.md R140). -/
def reject (s : State) : State := { s with rejected := true }

/-- The end of one sequencer step begun in `s`: the step's state, or the error entry if one of the step's
operations raised; what the step wrote before the raise is unspecified (40_commands.md R139). -/
def settle (s : State) : Except ErrCode State → State
  | .ok t => t
  | .error e => raise e s

/-- The hardware reset (10_state.md R45, 70_reset_and_hazards.md R330, R331): the host-visible registers and PHASE
take their reset values, everything else is unspecified. The host's coming events and the last bus data stay. -/
def hardReset (s : State) : State :=
  { State.resetWith s.caps with
    eng := Config.freeEngine s.draws
    busData := s.busData
    hostQueue := s.hostQueue
    inEpoch := s.inEpoch + 1
    outEpoch := s.outEpoch + 1
    draws := s.draws + 1 }

/-! ### Output -/

/-- `OutByte(v)` (41_bitpacker.md R151). -/
def putOut (v : Byte) (s : State) : Except ErrCode State :=
  if s.eng.outPos = s.caps.outCap then .error .outputOverflow
  else .ok { s with
    outBuf := s.outBuf.write s.eng.outPos v
    eng := { s.eng with outPos := s.eng.outPos + 1 } }

/-- `OutByte` of each byte in turn (43_lzw_decoder.md R204). -/
def putOuts : List Byte → State → Except ErrCode State
  | [], s => .ok s
  | v :: vs, s =>
    match putOut v s with
    | .ok t => putOuts vs t
    | .error e => .error e

/-- `buf[i] <- b` (41_bitpacker.md R152 PutBit). -/
def setBitAt (buf : Byte) (i : Nat) (b : Bool) : Byte :=
  if b then buf ||| (1#8 <<< i) else buf &&& ~~~(1#8 <<< i)

/-- The BitWriter after initialisation or a flush (41_bitpacker.md R150). -/
def BitWriter.empty : BitWriter := { buf := 0, cnt := 0 }

/-- `PutBit(b)` (41_bitpacker.md R152): the registers after it and the byte it flushes, if any. -/
def BitWriter.put (w : BitWriter) (b : Bool) : BitWriter × List Byte :=
  let buf := setBitAt w.buf (7 - w.cnt.toNat) b
  if w.cnt = 7#3 then (BitWriter.empty, [buf]) else ({ buf := buf, cnt := w.cnt + 1 }, [])

/-- `PutBit` of each bit in turn. -/
def BitWriter.putAll : List Bool → BitWriter → BitWriter × List Byte
  | [], w => (w, [])
  | b :: bs, w =>
    let r := w.put b
    let t := BitWriter.putAll bs r.1
    (t.1, r.2 ++ t.2)

/-- `WriteBits(v, n)` (41_bitpacker.md R152): the low `n` bits of `v`, most significant first. -/
def BitWriter.write (w : BitWriter) (v n : Nat) : BitWriter × List Byte := BitWriter.putAll (bitsOf v n) w

/-- `WriteBits` of each (value, width) pair in turn. -/
def BitWriter.writeAll : List (Nat × Nat) → BitWriter → BitWriter × List Byte
  | [], w => (w, [])
  | p :: ps, w =>
    let r := w.write p.1 p.2
    let t := BitWriter.writeAll ps r.1
    (t.1, r.2 ++ t.2)

/-- `Finish()` (41_bitpacker.md R153). -/
def BitWriter.finish (w : BitWriter) : BitWriter × List Byte :=
  if w.cnt = 0#3 then (w, []) else (BitWriter.empty, [w.buf])

/-- Run a BitWriter operation: store the registers and put the flushed bytes out. -/
def packOut (r : BitWriter × List Byte) (s : State) : Except ErrCode State :=
  putOuts r.2 { s with eng := { s.eng with bw := r.1 } }

/-- `WriteBits` of each (value, width) pair in turn, into OUT (41_bitpacker.md R152). -/
def writeBits (ps : List (Nat × Nat)) (s : State) : Except ErrCode State :=
  packOut (BitWriter.writeAll ps s.eng.bw) s

/-- `Finish()` into OUT, then `complete()` (42_lzw_encoder.md R176, 44_huffman_encoder.md R241). -/
def finishOut (s : State) : Except ErrCode State :=
  match packOut s.eng.bw.finish s with
  | .ok t => .ok (complete t)
  | .error e => .error e

/-! ### Input -/

/-- The number of bits of the input bit stream (41_bitpacker.md R155). -/
def State.inBits (s : State) : Nat := 8 * s.eng.inLenL

/-- Bit `p` of the bytes `f 0, f 1, …`, each from bit 7 down (41_bitpacker.md R155). -/
def streamBit (f : Nat → Byte) (p : Nat) : Bool := (f (p / 8)).getLsbD (7 - p % 8)

/-- `AtEnd(w)` at bit `pos` of a stream of `total` bits (41_bitpacker.md R157). -/
def atEnd (total pos w : Nat) : Bool := total - pos < w

/-- The loop of `ReadBits` (41_bitpacker.md R156): `w` more bits from `pos`, onto `v`. -/
def gatherBits (bit : Nat → Bool) : Nat → Nat → Nat → Nat
  | 0, _, v => v
  | w + 1, pos, v => gatherBits bit w (pos + 1) (2 * v + (bit pos).toNat)

/-- `ReadBits(w)` (41_bitpacker.md R156): the value and the cursor after it. -/
def readBits (bit : Nat → Bool) (total pos w : Nat) : Except ErrCode (Nat × Nat) :=
  if total - pos < w then .error .unexpectedEof else .ok (gatherBits bit w pos 0, pos + w)

/-- The input bit stream of the running command (41_bitpacker.md R155). -/
def State.bit (s : State) : Nat → Bool := streamBit s.inByte

end Sys2Proof.Machine
end

