-- ==== Sys2Proof/Machine/HuffmanEncoder.lean ====
section
/-! DEFINITION. The Huffman encoder (44_huffman_encoder.md) and the tree builder it shares with the decoder
(R234 to R237). -/

namespace Sys2Proof.Machine

/-! ### Pass 1 and the header -/

/-- FREQ cleared (R230). -/
def clearFreq : List Nat := List.replicate 256 0

/-- One counted byte (R230). -/
def countByte (freq : List Nat) (b : Byte) : List Nat := freq.set b.toNat (freq.getD b.toNat 0 + 1)

/-- The symbol list (R232): the bytes with a positive count, ascending, each with its count. -/
def symbols (freq : List Nat) : List (Byte × Nat) :=
  (List.range 256).filterMap fun i =>
    let f := freq.getD i 0
    if f = 0 then none else some (BitVec.ofNat 8 i, f)

/-- The header's (value, width) pairs for a symbol list and the input length (R233). -/
def headerFields (l : List (Byte × Nat)) (n : Nat) : List (Nat × Nat) :=
  (l.length, 16) :: (l.flatMap fun p => [(p.1.toNat, 8), (p.2, 32)]) ++ [(n, 32)]

/-! ### The tree -/

/-- `NODE[i]`; an entry that no node has been created in holds an unspecified value (10_state.md R39; log 12). -/
def nodeAt (nodes : List Node) (i : Nat) : Node := (nodes[i]?).getD (Config.freeNode i)

/-- A node's `freq` field (10_state.md R39). -/
def Node.weight : Node → Nat
  | .leaf _ f => f
  | .internal _ _ f => f

/-- Create a node at index NODE_CNT and add it to ACTIVE (R234, R236). -/
def HufRegs.create (n : Node) (h : HufRegs) : HufRegs :=
  { h with node := h.node ++ [n], active := h.active ++ [h.nodeCnt], nodeCnt := h.nodeCnt + 1 }

/-- `BuildTree(L)`, part 1: the leaves (R234). -/
def HufRegs.leaves (l : List (Byte × Nat)) (h : HufRegs) : HufRegs :=
  l.foldl (fun g p => g.create (.leaf p.1 p.2)) { h with node := [], nodeCnt := 0, active := [] }

/-- The priority order (R235): lower frequency first, then the node created earlier. -/
def before (nodes : List Node) (a b : Nat) : Bool :=
  decide ((nodeAt nodes a).weight < (nodeAt nodes b).weight) ||
    (decide ((nodeAt nodes a).weight = (nodeAt nodes b).weight) && decide (a < b))

/-- The node of `m :: l` that comes first. -/
def firstOfActive (nodes : List Node) : Nat → List Nat → Nat
  | m, [] => m
  | m, a :: l => firstOfActive nodes (if before nodes a m then a else m) l

/-- `PopMin()` (R235): the node of ACTIVE that comes first, and the rest; `none` on an empty ACTIVE. -/
def popMin (nodes : List Node) : List Nat → Option (Nat × List Nat)
  | [] => none
  | a :: l => some (firstOfActive nodes a l, (a :: l).erase (firstOfActive nodes a l))

/-- `Merge()` (R236): the node popped first is the left child; `none` with fewer than two active nodes. -/
def HufRegs.merge (h : HufRegs) : Option HufRegs :=
  match popMin h.node h.active with
  | none => none
  | some (a, l) =>
    match popMin h.node l with
    | none => none
    | some (b, l') =>
      some ({ h with active := l' }.create
        (.internal a b ((nodeAt h.node a).weight + (nodeAt h.node b).weight)))

/-- One turn of the merge loop (R237): `inl` after a merge, `inr` with ROOT set when one node is left, `none` when
ACTIVE is empty. -/
def HufRegs.buildStep (h : HufRegs) : Option (HufRegs ⊕ HufRegs) :=
  match h.active with
  | [] => none
  | [r] => some (.inr { h with root := r })
  | _ => h.merge.map .inl

/-! ### Codes -/

/-- The path from node `i` to the leaf of symbol `s`, `false` for left, at most `fuel` levels deep. -/
def pathTo (nodes : List Node) (s : Byte) : Nat → Nat → Option (List Bool)
  | 0, _ => none
  | fuel + 1, i =>
    match nodeAt nodes i with
    | .leaf t _ => if t = s then some [] else none
    | .internal l r _ =>
      match pathTo nodes s fuel l with
      | some p => some (false :: p)
      | none => (pathTo nodes s fuel r).map (true :: ·)

/-- The code of byte value `s` (R238, R239): none for a byte that does not occur, "0" for a one-leaf tree, else
the path from ROOT. -/
def HufRegs.codeOf (h : HufRegs) (s : Byte) : List Bool :=
  if h.freq.getD s.toNat 0 = 0 then []
  else
    match nodeAt h.node h.root with
    | .leaf _ _ => [false]
    | .internal _ _ _ => (pathTo h.node s (h.nodeCnt + 1) h.root).getD []

/-- The code table (R238). -/
def HufRegs.codes (h : HufRegs) : List (List Bool) := (List.range 256).map fun i => h.codeOf (BitVec.ofNat 8 i)

/-- The (value, width) pairs of one payload byte: one `WriteBits` of width 1 per code bit (R240). -/
def payloadFields (ct : List (List Bool)) (b : Byte) : List (Nat × Nat) :=
  (ct.getD b.toNat []).map fun bit => (bit.toNat, 1)

/-! ### The sequencer's steps -/

/-- The start of pass 1 (R230): FREQ cleared, IN_POS = 0. -/
def hueInit (s : State) : State :=
  { s with phase := .hueCount, eng := { s.eng with inPos := 0, huf := { s.eng.huf with freq := clearFreq } } }

/-- One step of PHASE = HUE_COUNT (R230); at the end of the input, R231 for the empty input. -/
def hueCount (s : State) : State :=
  if s.eng.inPos < s.eng.inLenL then
    { s with eng := { s.eng with
        inPos := s.eng.inPos + 1
        huf := { s.eng.huf with freq := countByte s.eng.huf.freq (s.inByte s.eng.inPos) } } }
  else if s.eng.inLenL = 0 then complete s
  else { s with phase := .hueHeader }

/-- The step of PHASE = HUE_HEADER (R233), and the leaves of the tree (R234). -/
def hueHeader (s : State) : State :=
  let l := symbols s.eng.huf.freq
  settle s (writeBits (headerFields l s.eng.inLenL)
    { s with phase := .hueBuild, eng := { s.eng with huf := s.eng.huf.leaves l } })

/-- One step of PHASE = HUE_BUILD (R236, R237). -/
def hueBuild (s : State) : Result :=
  match s.eng.huf.buildStep with
  | none => .fault .noRoot
  | some (.inl h) => .next { s with eng := { s.eng with huf := h } }
  | some (.inr h) => .next { s with phase := .hueCodegen, eng := { s.eng with huf := h } }

/-- The step of PHASE = HUE_CODEGEN (R238, R239), and IN_POS = 0 for pass 2 (R240). -/
def hueCodegen (s : State) : State :=
  { s with phase := .huePayload, eng := { s.eng with
      inPos := 0
      huf := { s.eng.huf with ct := s.eng.huf.codes } } }

/-- One step of PHASE = HUE_PAYLOAD (R240); at the end of the input, R241. -/
def huePayload (s : State) : State :=
  settle s <|
    if s.eng.inPos < s.eng.inLenL then
      writeBits (payloadFields s.eng.huf.ct (s.inByte s.eng.inPos))
        { s with eng := { s.eng with inPos := s.eng.inPos + 1 } }
    else finishOut s

end Sys2Proof.Machine
end

