-- ==== Sys2Proof/Machine/HuffmanDecoder.lean ====
section
/-! DEFINITION. The Huffman decoder (45_huffman_decoder.md): the header with its checks, the tree, the walk. -/

namespace Sys2Proof.Machine

/-- What the header loop of R261 has read: BR_POS, HUD_LAST, HUD_SUM and the list of leaves NODE[0..j). -/
structure HeaderRead where
  pos : Nat
  last : Nat
  sum : Nat
  leaves : List (Byte × Nat)
  deriving DecidableEq, Repr

/-- One (byte value, frequency) pair of the header with its checks (R261). -/
def hudPair (bit : Nat → Bool) (total : Nat) (h : HeaderRead) : Except ErrCode HeaderRead :=
  match readBits bit total h.pos 8 with
  | .error e => .error e
  | .ok (s, pos) =>
    if s + 1 ≤ h.last then .error .badHeader
    else
      match readBits bit total pos 32 with
      | .error e => .error e
      | .ok (f, pos') =>
        if f = 0 then .error .badHeader
        else .ok { pos := pos', last := s + 1, sum := h.sum + f, leaves := h.leaves ++ [(BitVec.ofNat 8 s, f)] }

/-- The pairs of the header, `d` of them (R261). -/
def hudPairs (bit : Nat → Bool) (total : Nat) : Nat → HeaderRead → Except ErrCode HeaderRead
  | 0, h => .ok h
  | d + 1, h =>
    match hudPair bit total h with
    | .error e => .error e
    | .ok h' => hudPairs bit total d h'

/-- The header (R261, R262): HUD_D, what the loop read, HUD_N and BR_POS after it, each check as soon as its field
has been read. -/
def readHeader (bit : Nat → Bool) (total : Nat) : Except ErrCode (Nat × HeaderRead × Nat × Nat) :=
  match readBits bit total 0 16 with
  | .error e => .error e
  | .ok (d, pos) =>
    if 256 < d then .error .badHeader
    else
      match hudPairs bit total d { pos := pos, last := 0, sum := 0, leaves := [] } with
      | .error e => .error e
      | .ok h =>
        match readBits bit total h.pos 32 with
        | .error e => .error e
        | .ok (n, pos') => if h.sum = n then .ok (d, h, n, pos') else .error .badHeader

/-- The step of PHASE = HUD_HEADER for a non-empty input (R261 to R263), and the leaves of the tree (R234, R264). -/
def hudHeaderRead (s : State) : Except ErrCode State :=
  match readHeader s.bit s.inBits with
  | .error e => .error e
  | .ok (d, h, n, pos) =>
    let t := { s with eng := { s.eng with
      brPos := pos
      huf := s.eng.huf.leaves h.leaves
      hud := { s.eng.hud with d := d, n := n, sum := h.sum, last := h.last } } }
    .ok (if d = 0 then complete t else { t with phase := .hudBuild })

/-- The start of HUF.D: its first step is R260's, in PHASE = HUD_HEADER (40_commands.md R137). -/
def hudInit (s : State) : State := { s with phase := .hudHeader }

/-- The step of PHASE = HUD_HEADER (R260 to R263). -/
def hudHeader (s : State) : State :=
  if s.eng.inLenL = 0 then complete s else settle s (hudHeaderRead s)

/-- One step of PHASE = HUD_BUILD (R264), and the start of the walk (R265). -/
def hudBuild (s : State) : Result :=
  match s.eng.huf.buildStep with
  | none => .fault .noRoot
  | some (.inl h) => .next { s with eng := { s.eng with huf := h } }
  | some (.inr h) =>
    .next { s with phase := .hudWalk, eng := { s.eng with
      huf := h
      hud := { s.eng.hud with symCnt := 0, walk := h.root } } }

/-- The child of node `i` that a payload bit selects (R265); a LEAF's `left` and `right` fields hold unspecified
values (10_state.md R39; log 12). -/
def childOf (nodes : List Node) (i : Nat) (bit : Bool) : Nat :=
  match nodeAt nodes i with
  | .leaf _ _ => Config.freeChild i
  | .internal l r _ => if bit then r else l

/-- One bit of the walk (R265, R266): the symbol it ends, if any, and the node it reaches. -/
def walkBit (nodes : List Node) (root walk : Nat) (bit : Bool) : Option Byte × Nat :=
  match nodeAt nodes root with
  | .leaf s _ => (some s, walk)
  | .internal _ _ _ =>
    match nodeAt nodes (childOf nodes walk bit) with
    | .leaf s _ => (some s, root)
    | .internal _ _ _ => (none, childOf nodes walk bit)

/-- One turn of the walk's loop while SYM_CNT < HUD_N (R265). -/
def hudWalkBit (s : State) : Except ErrCode State :=
  match readBits s.bit s.inBits s.eng.brPos 1 with
  | .error _ => .error .truncatedStream
  | .ok (b, pos) =>
    let r := walkBit s.eng.huf.node s.eng.huf.root s.eng.hud.walk (b != 0)
    putOuts r.1.toList { s with eng := { s.eng with
      brPos := pos
      hud := { s.eng.hud with walk := r.2, symCnt := s.eng.hud.symCnt + r.1.toList.length } } }

/-- One step of PHASE = HUD_WALK (R265, R267). -/
def hudWalk (s : State) : State :=
  if s.eng.hud.symCnt < s.eng.hud.n then settle s (hudWalkBit s) else complete s

end Sys2Proof.Machine
end

