-- ==== Sys2Proof/Machine/LzwDecoder.lean ====
section
/-! DEFINITION. The LZW decoder (43_lzw_decoder.md): its table, the loop head, and the meaning of each code class. -/

namespace Sys2Proof.Machine

/-- The decoder's registers as R201 initialises them. The table's entries are not valid any more (10_state.md R37),
so none is listed (log 12). -/
def LzdRegs.init (r : LzdRegs) : LzdRegs :=
  { r with next := Config.firstCode, width := Config.minWidth, has := false, tab := [] }

/-- `S(c)` (R200) over the table's valid entries, newest first: a stored entry's prefix is older than the entry. -/
def stringOf : List TabEntry → Nat → Option (List Byte)
  | [], c => if c ≤ 255 then some [BitVec.ofNat 8 c] else none
  | e :: t, c => if c = e.code then (stringOf t e.pre).map (· ++ [e.last]) else stringOf t c

/-- `firstOf(c)` (R200). -/
def firstOf (tab : List TabEntry) (c : Nat) : Option Byte :=
  if c ≤ 255 then some (BitVec.ofNat 8 c) else (tab.find? fun e => e.code == c).map TabEntry.first

/-- `GrowD()` (R206). -/
def LzdRegs.grow (mcw : Nat) (r : LzdRegs) : LzdRegs :=
  if r.width < mcw ∧ r.next + 1 = 2 ^ r.width then { r with width := r.width + 1 } else r

/-- The replayed insert (R205) of the previous entry plus the first byte `b` of the current one; `none` where
`firstOf(LZD_PREV)` is not defined. -/
def LzdRegs.insert (mcw : Nat) (b : Byte) (r : LzdRegs) : Option LzdRegs :=
  if r.has = true ∧ r.next < 2 ^ mcw then
    (firstOf r.tab r.prev).map fun f =>
      LzdRegs.grow mcw
        { r with tab := { code := r.next, pre := r.prev, last := b, first := f } :: r.tab, next := r.next + 1 }
  else some r

/-- The entry of a KWKWK code, `S(LZD_PREV) ++ [firstOf(LZD_PREV)]` (R203). -/
def LzdRegs.kwkwk (r : LzdRegs) : Option (List Byte) :=
  match stringOf r.tab r.prev, firstOf r.tab r.prev with
  | some e, some f => some (e ++ [f])
  | _, _ => none

/-- The registers after code `c` with a given entry: the insert (R205) and the end of the iteration (R206). -/
def LzdRegs.accept (mcw c : Nat) (entry : List Byte) (r : LzdRegs) : Option LzdRegs :=
  entry.head?.bind fun b => (r.insert mcw b).map fun t => { t with prev := c, has := true }

/-- Decoder initialisation (R201). -/
def lzdInit (s : State) : State :=
  { s with phase := .lzdLoop, eng := { s.eng with lzd := s.eng.lzd.init, brPos := 0 } }

/-- What the class of the next code depends on (30_encoding.md R96). -/
def State.codeCtx (s : State) : CodeCtx :=
  { next := s.eng.lzd.next, has := s.eng.lzd.has, width := s.eng.lzd.width }

/-- The loop head's read (R202): `none` at the end of the stream, else the code and the state with BR_POS
advanced. -/
def fetchCode (s : State) : Option (Nat × State) :=
  match readBits s.bit s.inBits s.eng.brPos s.eng.lzd.width with
  | .ok (c, pos) => some (c, { s with eng := { s.eng with brPos := pos } })
  | .error _ => none

/-- Resolved code `c` with its entry (R204 to R206): put the entry out, insert, remember the code. Without an entry
the meaning stops (log 14). -/
def lzdAccept (c : Nat) (entry : Option (List Byte)) (s : State) : Result :=
  match entry with
  | none => .fault .noString
  | some e =>
    match putOuts e s with
    | .error err => .next (raise err s)
    | .ok t =>
      match t.eng.lzd.accept t.caps.maxCodeWidth c e with
      | none => .fault .noString
      | some r => .next { t with eng := { t.eng with lzd := r } }

/-- LZW.LIT (R203): the entry is the byte. -/
def execLzwLit (b : Byte) (s : State) : Result := lzdAccept b.toNat (some [b]) s

/-- LZW.EOS (R202): stop with success. -/
def execLzwEos (s : State) : Result := .next (complete s)

/-- LZW.REF (R203): the entry is `S(c)`. -/
def execLzwRef (c : Nat) (s : State) : Result := lzdAccept c (stringOf s.eng.lzd.tab c) s

/-- LZW.KWKWK (R203): the entry is `S(LZD_PREV) ++ [firstOf(LZD_PREV)]`. -/
def execLzwKwkwk (c : Nat) (s : State) : Result := lzdAccept c s.eng.lzd.kwkwk s

/-- LZW.BAD (R203): raise CORRUPT_STREAM, whatever the code. -/
def execLzwBad (_c : Nat) (s : State) : Result := .next (raise .corruptStream s)

end Sys2Proof.Machine
end

