-- ==== Sys2Proof/Machine/LzwEncoder.lean ====
section
/-! DEFINITION. The LZW encoder (42_lzw_encoder.md): its registers' transitions, and the sequencer's steps in
PHASE = LZE_SCAN and LZE_FINISH. -/

namespace Sys2Proof.Machine

/-- The encoder's registers as R174 initialises them. -/
def LzeRegs.init (r : LzeRegs) : LzeRegs :=
  { r with dict := [], next := Config.firstCode, width := Config.minWidth, has := false }

/-- `Lookup(p, b)` (R171). -/
def LzeRegs.lookup (r : LzeRegs) (p : Nat) (b : Byte) : Option Nat :=
  (r.dict.find? fun e => e.pre == p && e.byte == b).map DictEntry.code

/-- `Grow()` (R173). -/
def LzeRegs.grow (mcw : Nat) (r : LzeRegs) : LzeRegs :=
  if r.next = 2 ^ r.width ∧ r.width < mcw then { r with width := r.width + 1 } else r

/-- `Insert(p, b)` (R172); a full dictionary is frozen. -/
def LzeRegs.insert (mcw p : Nat) (b : Byte) (r : LzeRegs) : LzeRegs :=
  if r.next < 2 ^ mcw then
    LzeRegs.grow mcw { r with dict := { pre := p, byte := b, code := r.next } :: r.dict, next := r.next + 1 }
  else r

/-- `LzeStep` on one byte (R175): the registers after it and the (code, width) pairs it writes. -/
def LzeRegs.step (mcw : Nat) (r : LzeRegs) (b : Byte) : LzeRegs × List (Nat × Nat) :=
  if r.has then
    match r.lookup r.matched b with
    | some c => ({ r with matched := c }, [])
    | none => ({ r.insert mcw r.matched b with matched := b.toNat }, [(r.matched, r.width)])
  else ({ r with matched := b.toNat, has := true }, [])

/-- The end-of-stream width check (R176). -/
def LzeRegs.lastGrow (mcw : Nat) (r : LzeRegs) : LzeRegs :=
  if r.width < mcw ∧ r.next + 1 = 2 ^ r.width then { r with width := r.width + 1 } else r

/-- `LzeFinish` (R176) up to the end-of-stream code: the registers and the pairs written. -/
def LzeRegs.finish (mcw : Nat) (r : LzeRegs) : LzeRegs × List (Nat × Nat) :=
  if r.has then
    (r.lastGrow mcw, [(r.matched, r.width), (Config.eos, (r.lastGrow mcw).width)])
  else (r, [(Config.eos, r.width)])

/-- Encoder initialisation (R174). -/
def lzeInit (s : State) : State :=
  { s with phase := .lzeScan, eng := { s.eng with lze := s.eng.lze.init, inPos := 0 } }

/-- One sequencer step in PHASE = LZE_SCAN (R175). -/
def lzeScan (s : State) : State :=
  if s.eng.inPos < s.eng.inLenL then
    let r := s.eng.lze.step s.caps.maxCodeWidth (s.inByte s.eng.inPos)
    settle s (writeBits r.2 { s with eng := { s.eng with inPos := s.eng.inPos + 1, lze := r.1 } })
  else { s with phase := .lzeFinish }

/-- The sequencer step of PHASE = LZE_FINISH (R176). -/
def lzeFinish (s : State) : State :=
  let r := s.eng.lze.finish s.caps.maxCodeWidth
  settle s <|
    match writeBits r.2 { s with eng := { s.eng with lze := r.1 } } with
    | .ok t => finishOut t
    | .error e => .error e

end Sys2Proof.Machine
end

