-- ==== Sys2Proof/Machine/Operands.lean ====
section
/-! DEFINITION. The operand forms: registers by offset (10_state.md R21), buffer bytes by index (20_memory.md R62,
R63), the fields of a CTRL write (R22). -/

namespace Sys2Proof.Machine

/-- CTRL as a word; START reads 0 (10_state.md R22). -/
def State.ctrlWord (s : State) : Word :=
  ((BitVec.ofBool s.ie).setWidth 32 <<< 4) ||| (s.alg.setWidth 32 <<< 2) |||
    ((BitVec.ofBool s.mode).setWidth 32 <<< 1)

/-- The register at offset `4 * idx` (40_commands.md R131, 10_state.md R21, R26, R27). -/
def State.readReg (s : State) (idx : BitVec 28) : Word :=
  match idx.toNat with
  | 0 => s.ctrlWord
  | 1 => s.statusWord
  | 2 => s.inLen
  | 3 => s.outLen
  | 4 => BitVec.ofNat 32 s.caps.maxCodeWidth
  | 5 => BitVec.ofNat 32 s.caps.inCap
  | 6 => BitVec.ofNat 32 s.caps.outCap
  | _ => 0

/-- A write of IN_LEN: dropped while BUSY = 1 (10_state.md R24, 70_reset_and_hazards.md R336). -/
def State.writeInLen (v : Word) (s : State) : State := if s.busy then s else { s with inLen := v }

/-- The field store of every CTRL write (10_state.md R22). -/
def State.storeCtrl (mode : Bool) (alg : BitVec 2) (ie : Bool) (s : State) : State :=
  { s with mode := mode, alg := alg, ie := ie }

/-- A host write of an IN byte: ignored at or above IN_CAP, dropped while BUSY = 1 (20_memory.md R62). -/
def State.hostWriteIn (i : Nat) (b : Byte) (s : State) : State :=
  if !s.busy && decide (i < s.caps.inCap) then { s with inBuf := s.inBuf.write i b } else s

/-- The data of a host read of an IN byte (40_commands.md R133). -/
def State.hostReadIn (s : State) (i : Nat) : Word :=
  if i < s.caps.inCap then (s.inByte i).setWidth 32 else 0

/-- The bus answers a read with `d` (30_encoding.md R94). -/
def State.answer (d : Word) (s : State) : State := { s with busData := d }

/-- A host read of an OUT byte: 0 at or above OUT_CAP, an unspecified value while BUSY = 1 (log 9), else the byte
(40_commands.md R134). -/
def State.hostReadOut (k : Nat) (s : State) : State :=
  if s.caps.outCap ≤ k then s.answer 0
  else if s.busy then { s.answer ((Config.freeBusyByte s.draws).setWidth 32) with draws := s.draws + 1 }
  else s.answer ((s.outByte k).setWidth 32)

end Sys2Proof.Machine
end

