-- ==== Sys2Proof/Machine/Command.lean ====
section
/-! DEFINITION. The CTRL format (30_encoding.md R92): a write of CTRL, with or without START. -/

namespace Sys2Proof.Machine

/-- What `start()` refuses (40_commands.md R137): a reserved ALG, or more input than IN holds. -/
def State.startRefused (s : State) : Bool := s.alg.getLsbD 1 || decide (s.caps.inCap < s.inLen.toNat)

/-- The latch and the registers every accepted START writes (40_commands.md R137, 41_bitpacker.md R150). -/
def latch (s : State) : State :=
  { s with
    done := false
    err := .none
    outLen := 0
    eng := { s.eng with
      cmdAlg := s.alg
      cmdMode := s.mode
      inLenL := s.inLen.toNat
      bw := BitWriter.empty
      outPos := 0 } }

/-- The engine that the latched command selects, with what runs before its first step (40_commands.md R137). -/
def engineStart (s : State) : State :=
  match s.eng.cmdAlg.getLsbD 0, s.eng.cmdMode with
  | false, false => lzeInit s
  | false, true => lzdInit s
  | true, false => hueInit s
  | true, true => hudInit s

/-- `start()` (40_commands.md R137). -/
def start (s : State) : State := if s.startRefused then illegal s else engineStart (latch s)

/-- A CTRL write with START = 1 (40_commands.md R130): the fields are stored, then the START is rejected while
BUSY = 1, or taken with the newly stored fields. -/
def ctrlStartWrite (mode : Bool) (alg : BitVec 2) (ie : Bool) (s : State) : State :=
  let t := s.storeCtrl mode alg ie
  if t.busy then reject t else start t

/-- CFG (40_commands.md R136). -/
def execCfg (mode : Bool) (alg : BitVec 2) (ie : Bool) (s : State) : Result := .next (s.storeCtrl mode alg ie)

/-- LZW.C (40_commands.md R142). -/
def execLzwC (ie : Bool) (s : State) : Result := .next (ctrlStartWrite false 0 ie s)

/-- LZW.D (40_commands.md R143). -/
def execLzwD (ie : Bool) (s : State) : Result := .next (ctrlStartWrite true 0 ie s)

/-- HUF.C (40_commands.md R144). -/
def execHufC (ie : Bool) (s : State) : Result := .next (ctrlStartWrite false 1 ie s)

/-- HUF.D (40_commands.md R145). -/
def execHufD (ie : Bool) (s : State) : Result := .next (ctrlStartWrite true 1 ie s)

/-- ILLEGAL (40_commands.md R146): START with a reserved ALG. -/
def execIllegal (mode : Bool) (alg : BitVec 2) (ie : Bool) (s : State) : Result :=
  .next (ctrlStartWrite mode alg ie s)

/-- A write of `v` to CTRL as WR.REG describes it (40_commands.md R130). -/
def writeCtrl (v : Word) (s : State) : State :=
  if ctrlStart v then ctrlStartWrite (ctrlMode v) (ctrlAlg v) (ctrlIe v) s
  else s.storeCtrl (ctrlMode v) (ctrlAlg v) (ctrlIe v)

end Sys2Proof.Machine
end

