-- ==== Sys2Proof/Machine/Bus.lean ====
section
/-! DEFINITION. The BUS format (30_encoding.md R94): host transactions. -/

namespace Sys2Proof.Machine

/-- The effect of a write of `v` at register index `idx` (40_commands.md R130). -/
def State.writeReg (idx : BitVec 28) (v : Word) (s : State) : State :=
  match idx.toNat with
  | 0 => writeCtrl v s
  | 1 => s.writeStatus v
  | 2 => s.writeInLen v
  | _ => s

/-- WR.REG (40_commands.md R130). -/
def execWrReg (idx : BitVec 28) (v : Word) (s : State) : Result := .next (s.writeReg idx v)

/-- RD.REG (40_commands.md R131). -/
def execRdReg (idx : BitVec 28) (s : State) : Result := .next (s.answer (s.readReg idx))

/-- WR.IN (40_commands.md R132). -/
def execWrIn (i : BitVec 30) (b : Byte) (s : State) : Result := .next (s.hostWriteIn i.toNat b)

/-- RD.IN (40_commands.md R133). -/
def execRdIn (i : BitVec 30) (s : State) : Result := .next (s.answer (s.hostReadIn i.toNat))

/-- RD.OUT (40_commands.md R134). -/
def execRdOut (k : BitVec 30) (s : State) : Result := .next (s.hostReadOut k.toNat)

/-- WR.OUT (40_commands.md R135): no effect, whatever the index and the byte. -/
def execWrOut (_k : BitVec 30) (_b : Byte) (s : State) : Result := .next s

/-- RSV (20_memory.md R64): a read returns 0, a write is ignored. -/
def execRsv (dir : Dir) (_a : BitVec 30) (_d : Word) (s : State) : Result :=
  match dir with
  | .rd => .next (s.answer 0)
  | .wr => .next s

end Sys2Proof.Machine
end

