-- ==== Sys2Proof/Machine/Dispatch.lean ====
section
/-! DEFINITION. One arm per instruction. -/

namespace Sys2Proof.Machine

def exec (i : Instr) (s : State) : Host.Outcome State Fault Refusal :=
  match i with
  | .cfg mode alg ie => Sys2Proof.Machine.execCfg mode alg ie s
  | .lzwC ie => Sys2Proof.Machine.execLzwC ie s
  | .lzwD ie => Sys2Proof.Machine.execLzwD ie s
  | .hufC ie => Sys2Proof.Machine.execHufC ie s
  | .hufD ie => Sys2Proof.Machine.execHufD ie s
  | .illegal mode alg ie => Sys2Proof.Machine.execIllegal mode alg ie s
  | .wrReg idx v => Sys2Proof.Machine.execWrReg idx v s
  | .rdReg idx => Sys2Proof.Machine.execRdReg idx s
  | .wrIn i1 b => Sys2Proof.Machine.execWrIn i1 b s
  | .rdIn i1 => Sys2Proof.Machine.execRdIn i1 s
  | .rdOut k => Sys2Proof.Machine.execRdOut k s
  | .wrOut k b => Sys2Proof.Machine.execWrOut k b s
  | .rsv dir a d => Sys2Proof.Machine.execRsv dir a d s
  | .lzwLit b => Sys2Proof.Machine.execLzwLit b s
  | .lzwEos => Sys2Proof.Machine.execLzwEos s
  | .lzwRef c => Sys2Proof.Machine.execLzwRef c s
  | .lzwKwkwk c => Sys2Proof.Machine.execLzwKwkwk c s
  | .lzwBad c => Sys2Proof.Machine.execLzwBad c s

end Sys2Proof.Machine
end

