-- ==== Sys2Proof/Machine/Sequencer.lean ====
section
/-! DEFINITION. The two agents' turns (00_scope.md R3): the sequencer's step in each phase (10_state.md R30), and
the host's next event. -/

namespace Sys2Proof.Machine

/-- One turn of the LZW decoder's loop (43_lzw_decoder.md R202): stop at the end of the stream, else read a code
and run the instruction it is (30_encoding.md R96). -/
def lzdLoop (s : State) : Result :=
  match fetchCode s with
  | none => .next (complete s)
  | some (c, t) => exec (decodeCode s.codeCtx c) t

/-- The sequencer's step in each phase (10_state.md R30); in IDLE the block waits for the host. -/
def seqStep (s : State) : Result :=
  match s.phase with
  | .idle => .next s
  | .lzeScan => .next (lzeScan s)
  | .lzeFinish => .next (lzeFinish s)
  | .lzdLoop => lzdLoop s
  | .hueCount => .next (hueCount s)
  | .hueHeader => .next (hueHeader s)
  | .hueBuild => hueBuild s
  | .hueCodegen => .next (hueCodegen s)
  | .huePayload => .next (huePayload s)
  | .hudHeader => .next (hudHeader s)
  | .hudBuild => hudBuild s
  | .hudWalk => .next (hudWalk s)

/-- The host's turn: a transaction runs the instruction it decodes to (20_memory.md R72); `rst` resets the block
(70_reset_and_hazards.md R330); `idle` gives the turn to the sequencer (log 1). -/
def hostTurn (e : HostEvent) (s : State) : Result :=
  match e with
  | .txn t => exec (decodeTxn t) s
  | .rst => .next (hardReset s)
  | .idle => seqStep s

/-- The next turn: the head of the host's events, or the sequencer's when the host does nothing more. -/
def turn (s : State) : Result :=
  match s.hostQueue with
  | [] => seqStep s
  | e :: q => hostTurn e { s with hostQueue := q }

/-- The host issues the transaction `t` next (log 17). -/
def issue (t : Txn) (s : State) : State := { s with hostQueue := .txn t :: s.hostQueue }

end Sys2Proof.Machine
end

