-- ==== Sys2Proof/Machine/Step.lean ====
section
/-! DEFINITION. One step of the machine. -/

namespace Sys2Proof.Machine

/-- One step: the next turn of the two agents. -/
def step (s : State) : Host.Outcome State Fault Refusal := turn s

/-- `s` with the transaction of an opcode-table word as the host's next event (log 3, log 17). -/
def State.withFetchWord (s : State) (nbits w : Nat) : State := issue (tableTxn nbits w) s

end Sys2Proof.Machine
end

