-- ==== Sys2Proof/Machine/Functions.lean ====
section
/-! DEFINITION. The four engine functions of a whole command, with unbounded output space (40_commands.md R141), and
the visible outcome that a command has in their terms. The machine does not use this file: it is the reference the
sequencer's runs are compared with. -/

namespace Sys2Proof.Machine

/-- The bytes of a packed stream: `WriteBits` of each pair, then `Finish` (41_bitpacker.md R154). -/
def packed (ps : List (Nat × Nat)) : List Byte :=
  (BitWriter.writeAll ps BitWriter.empty).2 ++ (BitWriter.writeAll ps BitWriter.empty).1.finish.2

/-- The bytes whose bits, most significant first, are `bs`, zero-padded to a whole byte (20_memory.md R66). -/
def bytesOfBits (bs : List Bool) : List Byte :=
  (List.range ((bs.length + 7) / 8)).map fun k =>
    BitVec.ofNat 8 (ofBits ((List.range 8).map fun i => bs.getD (8 * k + i) false))

/-- Bit `p` of a byte sequence (41_bitpacker.md R155). -/
def listBit (x : List Byte) : Nat → Bool := streamBit fun i => x.getD i 0

/-! ### LZW -/

/-- The encoder at the start of a command (42_lzw_encoder.md R174). -/
def LzeRegs.fresh : LzeRegs := LzeRegs.init { has := false, matched := 0, next := 0, width := 0, dict := [] }

/-- `LzeStep` over a list of bytes (42_lzw_encoder.md R175). -/
def LzeRegs.scan (mcw : Nat) : List Byte → LzeRegs → LzeRegs × List (Nat × Nat)
  | [], r => (r, [])
  | b :: x, r =>
    let t := r.step mcw b
    let u := LzeRegs.scan mcw x t.1
    (u.1, t.2 ++ u.2)

/-- The codes of the compressed stream with their widths, the end-of-stream code last (42_lzw_encoder.md R177). -/
def lzwCodes (mcw : Nat) (x : List Byte) : List (Nat × Nat) :=
  (LzeRegs.scan mcw x LzeRegs.fresh).2 ++ ((LzeRegs.scan mcw x LzeRegs.fresh).1.finish mcw).2

/-- `lzw_compress(x)` (42_lzw_encoder.md R177). -/
def lzwCompress (mcw : Nat) (x : List Byte) : List Byte := packed (lzwCodes mcw x)

/-- The decoder at the start of a command (43_lzw_decoder.md R201). -/
def LzdRegs.fresh : LzdRegs := LzdRegs.init { has := false, prev := 0, next := 0, width := 0, tab := [] }

/-- The entry of code `c`, not 256 (43_lzw_decoder.md R203); `none` for class BAD. -/
def LzdRegs.resolve (r : LzdRegs) (c : Nat) : Option (List Byte) :=
  if c ≤ 255 ∨ (Config.firstCode ≤ c ∧ c < r.next) then stringOf r.tab c
  else if r.has = true ∧ c = r.next then r.kwkwk
  else none

/-- The decoder's loop (43_lzw_decoder.md R202 to R206), at most `fuel` codes: the bytes output, and the error. -/
def lzdRun (mcw : Nat) (bit : Nat → Bool) (total : Nat) : Nat → LzdRegs → Nat → List Byte × ErrCode
  | 0, _, _ => ([], .none)
  | fuel + 1, r, pos =>
    match readBits bit total pos r.width with
    | .error _ => ([], .none)
    | .ok (c, pos') =>
      if c = Config.eos then ([], .none)
      else
        match r.resolve c with
        | none => ([], .corruptStream)
        | some e =>
          match r.accept mcw c e with
          | none => ([], .corruptStream)
          | some r' =>
            let t := lzdRun mcw bit total fuel r' pos'
            (e ++ t.1, t.2)

/-- `lzw_decompress(x)` (43_lzw_decoder.md R207). -/
def lzwDecompress (mcw : Nat) (x : List Byte) : List Byte × ErrCode :=
  lzdRun mcw (listBit x) (8 * x.length) (8 * x.length) LzdRegs.fresh 0

/-! ### Huffman -/

/-- Pass 1 over the whole input (44_huffman_encoder.md R230). -/
def countAll (x : List Byte) : List Nat := x.foldl countByte clearFreq

/-- The merge loop (44_huffman_encoder.md R237), at most `fuel` turns. -/
def HufRegs.build : Nat → HufRegs → HufRegs
  | 0, h => h
  | fuel + 1, h =>
    match h.buildStep with
    | none => h
    | some (.inl h') => HufRegs.build fuel h'
    | some (.inr h') => h'

/-- `BuildTree(L)` (44_huffman_encoder.md R234 to R237). -/
def HufRegs.tree (l : List (Byte × Nat)) (h : HufRegs) : HufRegs := (h.leaves l).build l.length

/-- The tree and the frequency table of an input (44_huffman_encoder.md R230 to R237). -/
def hufTree (x : List Byte) : HufRegs :=
  { Engine.zero.huf with freq := countAll x }.tree (symbols (countAll x))

/-- `huffman_compress(x)` (44_huffman_encoder.md R242). -/
def huffmanCompress (x : List Byte) : List Byte :=
  if x = [] then []
  else packed (headerFields (symbols (countAll x)) x.length ++ x.flatMap (payloadFields (hufTree x).codes))

/-- The walk of the payload from bit `pos` (45_huffman_decoder.md R265 to R267), at most `fuel` bits. -/
def hudRun (nodes : List Node) (root n : Nat) (bit : Nat → Bool) (total : Nat) :
    Nat → Nat → Nat → Nat → List Byte × ErrCode
  | 0, _, _, _ => ([], .none)
  | fuel + 1, pos, walk, cnt =>
    if cnt < n then
      match readBits bit total pos 1 with
      | .error _ => ([], .truncatedStream)
      | .ok (b, pos') =>
        let r := walkBit nodes root walk (b != 0)
        let t := hudRun nodes root n bit total fuel pos' r.2 (cnt + r.1.toList.length)
        (r.1.toList ++ t.1, t.2)
    else ([], .none)

/-- `huffman_decompress(x)` (45_huffman_decoder.md R268). -/
def huffmanDecompress (x : List Byte) : List Byte × ErrCode :=
  if x = [] then ([], .none)
  else
    match readHeader (listBit x) (8 * x.length) with
    | .error e => ([], e)
    | .ok (d, h, n, pos) =>
      if d = 0 then ([], .none)
      else
        let t := Engine.zero.huf.tree h.leaves
        hudRun t.node t.root n (listBit x) (8 * x.length) (8 * x.length + 1) pos t.root 0

/-! ### The outcome of a command -/

/-- The engine function of a command (40_commands.md R141): `huffman` selects the codec, `decompress` the direction. -/
def engineFunction (mcw : Nat) (huffman decompress : Bool) (x : List Byte) : List Byte × ErrCode :=
  match huffman, decompress with
  | false, false => (lzwCompress mcw x, .none)
  | false, true => lzwDecompress mcw x
  | true, false => (huffmanCompress x, .none)
  | true, true => huffmanDecompress x

/-- The input of a command started in `s`: `IN[0 .. IN_LEN)` (20_memory.md R73). -/
def State.input (s : State) : List Byte := (List.range s.inLen.toNat).map s.inByte

/-- The visible outcome of a command with result `F = (o, r)`, from `s` to its end `t` (40_commands.md R141): the
error, OUT_LEN, and after a success every OUT byte. -/
def commandOutcome (f : List Byte × ErrCode) (s t : State) : Prop :=
  if s.caps.outCap < f.1.length then t.err = .outputOverflow ∧ t.outLen = 0
  else if f.2 = .none then
    t.err = .none ∧ t.outLen = BitVec.ofNat 32 f.1.length ∧
      ∀ k, t.outByte k = if h : k < f.1.length then f.1[k] else s.outByte k
  else t.err = f.2 ∧ t.outLen = 0

end Sys2Proof.Machine
end

