-- ==== Sys2Proof/Machine/HostSyntax.lean ====
section
/-! DEFINITION. The host program syntax and its pseudo-instructions (30_encoding.md R101, R102): what each line puts on
the bus. -/

namespace Sys2Proof.Machine

/-- The named registers (30_encoding.md R101). -/
inductive RegName where
  | ctrl
  | status
  | inLen
  | outLen
  | cap0
  | cap1
  | cap2
  deriving DecidableEq, Repr

/-- A named register's offset (10_state.md R21). -/
def RegName.offset : RegName → Word
  | .ctrl => 0x00
  | .status => 0x04
  | .inLen => 0x08
  | .outLen => 0x0C
  | .cap0 => 0x10
  | .cap1 => 0x14
  | .cap2 => 0x18

/-- IN_BASE (20_memory.md R60). -/
def inBase : Word := 0x40000000

/-- OUT_BASE (20_memory.md R60). -/
def outBase : Word := 0x80000000

/-- `wr REG, v`. -/
def wr (r : RegName) (v : Word) : Txn := { dir := .wr, addr := r.offset, data := v }

/-- `rd REG`. -/
def rd (r : RegName) : Txn := { dir := .rd, addr := r.offset, data := 0 }

/-- `wrb IN+i, b`. -/
def wrbIn (i : Nat) (b : Byte) : Txn := { dir := .wr, addr := inBase + BitVec.ofNat 32 i, data := b.setWidth 32 }

/-- `rdb IN+i`. -/
def rdbIn (i : Nat) : Txn := { dir := .rd, addr := inBase + BitVec.ofNat 32 i, data := 0 }

/-- `rdb OUT+k`. -/
def rdbOut (k : Nat) : Txn := { dir := .rd, addr := outBase + BitVec.ofNat 32 k, data := 0 }

/-- `lzw.c`, or `lzw.c.ie`. -/
def pseudoLzwC (ie : Bool) : Txn := wr .ctrl (if ie then 0x11 else 0x01)

/-- `lzw.d`, or `lzw.d.ie`. -/
def pseudoLzwD (ie : Bool) : Txn := wr .ctrl (if ie then 0x13 else 0x03)

/-- `huf.c`, or `huf.c.ie`. -/
def pseudoHufC (ie : Bool) : Txn := wr .ctrl (if ie then 0x15 else 0x05)

/-- `huf.d`, or `huf.d.ie`. -/
def pseudoHufD (ie : Bool) : Txn := wr .ctrl (if ie then 0x17 else 0x07)

/-- One iteration of `wait`: the host repeats it until `waitOver` of the data it returned. -/
def pseudoWait : Txn := rd .status

/-- `wait` is over: the returned bit 0 is 0. -/
def waitOver (d : Word) : Bool := !d.getLsbD 0

/-- `ack`. -/
def pseudoAck : Txn := wr .status 0x06

/-- `load "b0 b1 …"`. -/
def pseudoLoad (bs : List Byte) : List Txn :=
  (bs.zipIdx.map fun p => wrbIn p.2 p.1) ++ [wr .inLen (BitVec.ofNat 32 bs.length)]

/-- `move`, for a host that has read the result `bs` (log 18): each OUT byte read and written to IN, then IN_LEN. -/
def pseudoMove (bs : List Byte) : List Txn :=
  rd .outLen :: (bs.zipIdx.flatMap fun p => [rdbOut p.2, wrbIn p.2 p.1]) ++
    [wr .inLen (BitVec.ofNat 32 bs.length)]

/-- The bytes `OUT[0 .. OUT_LEN)` that a host reads as the result. -/
def State.result (s : State) : List Byte := (List.range s.outLen.toNat).map s.outByte

end Sys2Proof.Machine
end

