-- ==== Sys2Proof/Safety.lean ====
section
/-! DEFINITION. What holds of every state a run reaches (10_state.md R44, 42_lzw_encoder.md R182, 44_huffman_encoder.md
R245), and how much work a running command has left (70_reset_and_hazards.md R339). -/

namespace Sys2Proof.Machine

/-- The command that runs in a phase, as (ALG bit 0, MODE) (40_commands.md R137, 10_state.md R30). -/
def Phase.command : Phase → Option (Bool × Bool)
  | .idle => none
  | .lzeScan => some (false, false)
  | .lzeFinish => some (false, false)
  | .lzdLoop => some (false, true)
  | .hueCount => some (true, false)
  | .hueHeader => some (true, false)
  | .hueBuild => some (true, false)
  | .hueCodegen => some (true, false)
  | .huePayload => some (true, false)
  | .hudHeader => some (true, true)
  | .hudBuild => some (true, true)
  | .hudWalk => some (true, true)

/-- The LZW encoder's capacity invariants (42_lzw_encoder.md R180, R182). -/
@[reducible] def LzeRegs.Ok (mcw : Nat) (r : LzeRegs) : Prop :=
  257 ≤ r.next ∧ r.next ≤ 2 ^ mcw ∧ 9 ≤ r.width ∧ r.width ≤ mcw ∧
  (r.next < 2 ^ r.width ∨ (r.next = 2 ^ r.width ∧ r.width = mcw)) ∧
  r.dict.length + 257 = r.next ∧
  (∀ e ∈ r.dict, 257 ≤ e.code ∧ e.code < r.next ∧ e.pre < e.code ∧ e.pre ≠ 256) ∧
  (r.has = true → r.matched < r.next ∧ r.matched ≠ 256)

/-- The LZW decoder's invariants: the valid entries are 257 to LZD_NEXT - 1 (10_state.md R37), each prefix is an
older entry and `first` is the first byte of the entry's string (43_lzw_decoder.md R200). -/
@[reducible] def LzdRegs.Ok (mcw : Nat) (r : LzdRegs) : Prop :=
  257 ≤ r.next ∧ r.next ≤ 2 ^ mcw ∧ 9 ≤ r.width ∧ r.width ≤ mcw ∧
  (r.next + 1 < 2 ^ r.width ∨ r.width = mcw) ∧
  r.tab.map TabEntry.code = (List.range' 257 (r.next - 257)).reverse ∧
  (∀ e ∈ r.tab, e.pre < e.code ∧ e.pre ≠ 256 ∧ (stringOf r.tab e.code).bind List.head? = some e.first) ∧
  (r.has = true → r.prev < r.next ∧ r.prev ≠ 256) ∧
  (r.has = false → r.next = 257)

/-- The node is a LEAF (10_state.md R39). -/
def Node.isLeaf : Node → Bool
  | .leaf _ _ => true
  | .internal _ _ _ => false

/-- Node `i` is well formed: a leaf occurs at least once, an internal node has two different, older children and
the sum of their frequencies (10_state.md R39, 44_huffman_encoder.md R236). -/
def nodeOk (nodes : List Node) (i : Nat) : Bool :=
  match nodeAt nodes i with
  | .leaf _ f => decide (0 < f)
  | .internal l r f =>
    decide (l < i ∧ r < i ∧ l ≠ r ∧ f = (nodeAt nodes l).weight + (nodeAt nodes r).weight)

/-- A tree being built, of total frequency `total` (44_huffman_encoder.md R234 to R237, R245). -/
@[reducible] def HufRegs.BuildOk (total : Nat) (h : HufRegs) : Prop :=
  h.active ≠ [] ∧ h.nodeCnt = h.node.length ∧ h.nodeCnt + h.active.length ≤ 512 ∧
  h.active.Pairwise (· < ·) ∧ (∀ a ∈ h.active, a < h.nodeCnt) ∧
  (∀ i < h.node.length, nodeOk h.node i = true) ∧
  (h.active.map fun a => (nodeAt h.node a).weight).sum = total

/-- A built tree, of total frequency `total` (44_huffman_encoder.md R237, R245). -/
@[reducible] def HufRegs.TreeOk (total : Nat) (h : HufRegs) : Prop :=
  h.nodeCnt = h.node.length ∧ h.nodeCnt ≤ 511 ∧ h.root < h.nodeCnt ∧
  (∀ i < h.node.length, nodeOk h.node i = true) ∧ (nodeAt h.node h.root).weight = total

/-- The running engine's registers (10_state.md R44). -/
def State.EngineOk (s : State) : Prop :=
  match s.phase with
  | .idle => True
  | .lzeScan => s.eng.lze.Ok s.caps.maxCodeWidth ∧ s.eng.inPos ≤ s.eng.inLenL
  | .lzeFinish => s.eng.lze.Ok s.caps.maxCodeWidth
  | .lzdLoop => s.eng.lzd.Ok s.caps.maxCodeWidth ∧ s.eng.brPos ≤ s.inBits
  | .hueCount => s.eng.huf.freq.length = 256 ∧ s.eng.huf.freq.sum = s.eng.inPos ∧ s.eng.inPos ≤ s.eng.inLenL
  | .hueHeader => s.eng.huf.freq.length = 256 ∧ s.eng.huf.freq.sum = s.eng.inLenL ∧ 0 < s.eng.inLenL
  | .hueBuild => s.eng.huf.BuildOk s.eng.inLenL
  | .hueCodegen => s.eng.huf.TreeOk s.eng.inLenL
  | .huePayload => s.eng.inPos ≤ s.eng.inLenL
  | .hudHeader => True
  | .hudBuild => s.eng.huf.BuildOk s.eng.hud.n ∧ s.eng.hud.n < 2 ^ 32 ∧ s.eng.brPos ≤ s.inBits
  | .hudWalk => s.eng.huf.TreeOk s.eng.hud.n ∧ s.eng.hud.n < 2 ^ 32 ∧ s.eng.brPos ≤ s.inBits ∧
      s.eng.hud.walk < s.eng.huf.nodeCnt ∧ s.eng.hud.symCnt ≤ s.eng.hud.n ∧
      (s.eng.hud.walk = s.eng.huf.root ∨ (nodeAt s.eng.huf.node s.eng.hud.walk).isLeaf = false)

/-- What holds of the latch and the packer while a command runs (10_state.md R29, R31; 40_commands.md R137), and of
the result registers (R25, 70_reset_and_hazards.md R335). -/
def State.BusyOk (s : State) : Prop :=
  s.phase.command = some (s.eng.cmdAlg.getLsbD 0, s.eng.cmdMode) ∧ s.eng.cmdAlg.getLsbD 1 = false ∧
  s.eng.inLenL ≤ s.caps.inCap ∧ s.eng.outPos ≤ s.caps.outCap ∧
  (∀ k < s.eng.outPos, (s.outBuf.read k).isSome) ∧
  s.outLen = 0 ∧ s.err = .none ∧ s.done = false

/-- The invariant of every step. -/
def State.Inv (s : State) : Prop :=
  Config.legal s.caps = true ∧
  s.inBuf.wf = true ∧ s.inBuf.below s.caps.inCap = true ∧
  s.outBuf.wf = true ∧ s.outBuf.below s.caps.outCap = true ∧
  s.outLen.toNat ≤ s.caps.outCap ∧ (∀ k < s.outLen.toNat, (s.outBuf.read k).isSome) ∧
  (s.busy = true → s.BusyOk) ∧ s.EngineOk

/-- An upper bound on the sequencer steps a running command still takes (70_reset_and_hazards.md R339); 0 in IDLE. -/
def State.work (s : State) : Nat :=
  match s.phase with
  | .idle => 0
  | .lzeScan => (s.eng.inLenL - s.eng.inPos) + 2
  | .lzeFinish => 1
  | .lzdLoop => (s.inBits - s.eng.brPos) + 1
  | .hueCount => 2 * s.eng.inLenL - s.eng.inPos + 600
  | .hueHeader => s.eng.inLenL + 520
  | .hueBuild => s.eng.inLenL + s.eng.huf.active.length + 10
  | .hueCodegen => s.eng.inLenL + 5
  | .huePayload => (s.eng.inLenL - s.eng.inPos) + 1
  | .hudHeader => s.inBits + 600
  | .hudBuild => s.inBits + s.eng.huf.active.length + 10
  | .hudWalk => (s.inBits - s.eng.brPos) + 1

/-- `k` steps from `s` end in IDLE, at `t`. -/
def endsAt (s : State) (k : Nat) (t : State) : Prop :=
  Sys2Proof.core.run k s = .next t ∧ t.phase = .idle

end Sys2Proof.Machine
end

