-- ==== Sys2Proof/Certificates/Slice0/Obligations.lean ====
section
/-! DEFINITION. The statements for the provers, each an `Obligations.<Name>`. Helper definitions that say once what
several statements share come first. -/

open Sys2Proof Sys2Proof.Machine

namespace Sys2Proof.Claims

/-- The (MODE, ALG, IE) fields of an instruction that writes CTRL with START = 1 (30_encoding.md R92). -/
def startFields : Instr → Option (Bool × BitVec 2 × Bool)
  | .lzwC ie => some (false, 0, ie)
  | .lzwD ie => some (true, 0, ie)
  | .hufC ie => some (false, 1, ie)
  | .hufD ie => some (true, 1, ie)
  | .illegal mode alg ie => some (mode, alg, ie)
  | _ => none

/-- What an accepted START makes of the registers that every command shares (40_commands.md R137, 41_bitpacker.md
R150), for the fields `mode`, `alg`, `ie` of its write. -/
def latched (mode : Bool) (alg : BitVec 2) (ie : Bool) (s : State) : State :=
  { s with
    mode := mode
    alg := alg
    ie := ie
    done := false
    err := .none
    outLen := 0
    eng := { s.eng with
      cmdAlg := alg
      cmdMode := mode
      inLenL := s.inLen.toNat
      bw := { buf := 0, cnt := 0 }
      outPos := 0 } }

/-- The code and the entry of an LZW.LIT, LZW.REF or LZW.KWKWK (43_lzw_decoder.md R203). -/
def codeEntry (s : State) : Instr → Option (Nat × List Byte)
  | .lzwLit b => some (b.toNat, [b])
  | .lzwRef c => (stringOf s.eng.lzd.tab c).map fun e => (c, e)
  | .lzwKwkwk c =>
    match stringOf s.eng.lzd.tab s.eng.lzd.prev, firstOf s.eng.lzd.tab s.eng.lzd.prev with
    | some e, some f => some (c, e ++ [f])
    | _, _ => none
  | _ => none

/-- `t` is `s` after the error entry with error `e` (60_exceptions.md R304): every OUT byte reads as a free value, the
hidden registers are not said, and everything else but ERR, OUT_LEN, PHASE and DONE is unchanged. -/
def errorEntered (e : ErrCode) (s t : State) : Prop :=
  t = { s with
    err := e
    outLen := 0
    phase := .idle
    done := true
    outBuf := t.outBuf
    outEpoch := t.outEpoch
    eng := t.eng
    draws := t.draws } ∧
  ∃ n, ∀ k, t.outByte k = Config.freeOutByte n k

/-- The host gives the turn to the sequencer in `s`, and `s'` is `s` with that turn taken from the host's events. -/
def sequencerTurn (s s' : State) : Prop :=
  (s.hostQueue = [] ∧ s' = s) ∨ ∃ q, s.hostQueue = .idle :: q ∧ s' = { s with hostQueue := q }

/-- A command runs from `s` to its end with the outcome of the engine function (40_commands.md R141), and leaves
what is not its own to write unchanged: the parameters, CTRL as written, REJECTED, IN_LEN, IN and the bus data. -/
def runsToOutcome (i : Instr) (f : List Byte × ErrCode) (mode : Bool) (alg : BitVec 2) (ie : Bool) (s : State) : Prop :=
  ∃ t, exec i s = .next t ∧ ∃ k u, endsAt t k u ∧ u.done = true ∧ commandOutcome f s u ∧
    u.caps = s.caps ∧ u.mode = mode ∧ u.alg = alg ∧ u.ie = ie ∧ u.rejected = s.rejected ∧ u.inLen = s.inLen ∧
    u.inBuf = s.inBuf ∧ u.inEpoch = s.inEpoch ∧ u.busData = s.busData ∧ u.hostQueue = []

/-- The host can start a command in `s`: the state meets the invariant, the block is idle, nothing else is coming
from the host, and IN_LEN is at most IN_CAP. -/
def readyToStart (s : State) : Prop :=
  s.Inv ∧ s.phase = .idle ∧ s.hostQueue = [] ∧ s.inLen.toNat ≤ s.caps.inCap

/-- The (match, mask) rows of the command decode (30_encoding.md R92), in the table's order. -/
def ctrlRows : List (Word × Word) := [(0, 1), (1, 15), (3, 15), (5, 15), (7, 15), (9, 9)]

/-- The value of the register at offset `4 * idx`, its fields at the places of 40_commands.md R131. -/
def registerValue (s : State) (idx : BitVec 28) : Word :=
  if idx = 0 then BitVec.ofNat 32 (16 * s.ie.toNat + 4 * s.alg.toNat + 2 * s.mode.toNat)
  else if idx = 1 then
    BitVec.ofNat 32 (16 * s.err.code.toNat + 4 * s.rejected.toNat + 2 * s.done.toNat + s.busy.toNat)
  else if idx = 2 then s.inLen
  else if idx = 3 then s.outLen
  else if idx = 4 then BitVec.ofNat 32 s.caps.maxCodeWidth
  else if idx = 5 then BitVec.ofNat 32 s.caps.inCap
  else if idx = 6 then BitVec.ofNat 32 s.caps.outCap
  else 0

/-- The value that the register at offset `4 * idx` reads as after reset (70_reset_and_hazards.md R332). -/
def resetValue (p : Params) (idx : BitVec 28) : Word :=
  if idx = 4 then BitVec.ofNat 32 p.maxCodeWidth
  else if idx = 5 then BitVec.ofNat 32 p.inCap
  else if idx = 6 then BitVec.ofNat 32 p.outCap
  else 0

/-- The values read back by successive `ReadBits` of given widths, with the cursor after them. -/
def readAll (bit : Nat → Bool) (total : Nat) : List Nat → Nat → Except ErrCode (List Nat × Nat)
  | [], pos => .ok ([], pos)
  | w :: ws, pos =>
    match readBits bit total pos w with
    | .error e => .error e
    | .ok (v, pos') =>
      match readAll bit total ws pos' with
      | .error e => .error e
      | .ok (vs, p) => .ok (v :: vs, p)

end Sys2Proof.Claims

open Sys2Proof.Claims

/-! ### CTRL writes -/

/-- R136: a CTRL write with START = 0 stores MODE, ALG and IE and does nothing else, in any state, with any ALG. -/
def Obligations.CfgStoresModeAlgIe : Prop :=
  (∀ v : Word, v.getLsbD 0 = false →
    decodeCtrl v = .cfg (v.getLsbD 1) (v.extractLsb' 2 2) (v.getLsbD 4)) ∧
  ∀ mode alg ie s, exec (.cfg mode alg ie) s = .next { s with mode := mode, alg := alg, ie := ie }

/-- R140: a START while BUSY = 1 stores the fields, sets REJECTED and changes nothing else. -/
def Obligations.StartWhileBusyIsRejected : Prop :=
  ∀ i mode alg ie s, startFields i = some (mode, alg, ie) → s.busy = true →
    exec i s = .next { s with mode := mode, alg := alg, ie := ie, rejected := true }

/-- R146: a START while BUSY = 0 with a reserved ALG, or with IN_LEN > IN_CAP, is refused: ERR = 5, OUT_LEN = 0,
DONE = 1, `irq` follows IE, and nothing else changes but the stored fields. -/
def Obligations.RefusedStartIsIllegalCommand : Prop :=
  ∀ i mode alg ie s, startFields i = some (mode, alg, ie) → s.busy = false →
    (alg.getLsbD 1 = true ∨ s.caps.inCap < s.inLen.toNat) →
    ∃ t, exec i s = .next t ∧
      t = { s with mode := mode, alg := alg, ie := ie, err := .illegalCommand, outLen := 0, done := true } ∧
      t.err.code = 5 ∧ t.busy = false ∧ t.irq = ie

/-- R137 and R174: an accepted LZW.C latches the command and initialises the encoder. That the encoder is initialised in
the START transaction is the model's choice (log 2). -/
def Obligations.LzwCompressStarts : Prop :=
  ∀ ie s, s.busy = false → s.inLen.toNat ≤ s.caps.inCap →
    exec (.lzwC ie) s = .next { latched false 0 ie s with
      phase := .lzeScan
      eng := { (latched false 0 ie s).eng with
        inPos := 0
        lze := { s.eng.lze with dict := [], next := 257, width := 9, has := false } } }

/-- R137 and R201: an accepted LZW.D latches the command and initialises the decoder. That it does so in the START
transaction is the model's choice (log 2), and that the table lists no entry is its form of "no entry is valid"
(log 12). -/
def Obligations.LzwDecompressStarts : Prop :=
  ∀ ie s, s.busy = false → s.inLen.toNat ≤ s.caps.inCap →
    exec (.lzwD ie) s = .next { latched true 0 ie s with
      phase := .lzdLoop
      eng := { (latched true 0 ie s).eng with
        brPos := 0
        lzd := { s.eng.lzd with next := 257, width := 9, has := false, tab := [] } } }

/-- R137 and the first lines of R230: an accepted HUF.C latches the command and clears the 256 counters. That they
are cleared in the START transaction is the model's choice (log 2). -/
def Obligations.HuffmanCompressStarts : Prop :=
  ∀ ie s, s.busy = false → s.inLen.toNat ≤ s.caps.inCap →
    exec (.hufC ie) s = .next { latched false 1 ie s with
      phase := .hueCount
      eng := { (latched false 1 ie s).eng with
        inPos := 0
        huf := { s.eng.huf with freq := List.replicate 256 0 } } }

/-- R137: an accepted HUF.D latches the command; its first step is the header's. -/
def Obligations.HuffmanDecompressStarts : Prop :=
  ∀ ie s, s.busy = false → s.inLen.toNat ≤ s.caps.inCap →
    exec (.hufD ie) s = .next { latched true 1 ie s with phase := .hudHeader }

/-! ### Register and buffer transactions -/

/-- R131: what a read of each register offset returns, in the field that holds the bus data (log 4); OUT_LEN is 0 while
BUSY = 1; nothing else changes. -/
def Obligations.ReadRegisterReturnsItsValue : Prop :=
  (∀ idx s, exec (.rdReg idx) s = .next { s with busData := registerValue s idx }) ∧
  ∀ s : State, s.Inv → s.busy = true → s.outLen = 0

/-- R130: a write of each register offset. At offset 0 it is the instruction the word decodes to; STATUS clears DONE
and REJECTED where the data bits are 1; IN_LEN is stored while BUSY = 0; every other offset ignores the write. -/
def Obligations.WriteRegisterEffects : Prop :=
  (∀ v s, exec (.wrReg 0 v) s = exec (decodeCtrl v) s) ∧
  (∀ v s, exec (decodeCtrl v) s = .next (
    let t : State := { s with mode := v.getLsbD 1, alg := v.extractLsb' 2 2, ie := v.getLsbD 4 }
    if v.getLsbD 0 = true then (if s.busy = true then reject t else start t) else t)) ∧
  (∀ v s, exec (.wrReg 1 v) s = .next { s with
    done := if v.getLsbD 1 = true then false else s.done
    rejected := if v.getLsbD 2 = true then false else s.rejected }) ∧
  (∀ v s, s.busy = false → exec (.wrReg 2 v) s = .next { s with inLen := v }) ∧
  (∀ v s, s.busy = true → exec (.wrReg 2 v) s = .next s) ∧
  ∀ idx v s, 3 ≤ idx.toNat → exec (.wrReg idx v) s = .next s

/-- R132: WR.IN stores the byte at an index below IN_CAP while BUSY = 0 and leaves every other byte alone; otherwise
it has no effect. -/
def Obligations.WriteInStoresOneByte : Prop :=
  (∀ i b s, s.busy = false → i.toNat < s.caps.inCap →
    ∃ t, exec (.wrIn i b) s = .next t ∧ t = { s with inBuf := t.inBuf } ∧ t.inByte i.toNat = b ∧
      ∀ j, j ≠ i.toNat → t.inByte j = s.inByte j) ∧
  ∀ i b s, (s.busy = true ∨ s.caps.inCap ≤ i.toNat) → exec (.wrIn i b) s = .next s

/-- R133: RD.IN returns the byte below IN_CAP and 0 above, at any time, and changes nothing but the bus data. -/
def Obligations.ReadInReturnsByte : Prop :=
  ∀ i s, exec (.rdIn i) s = .next { s with busData :=
    if i.toNat < s.caps.inCap then BitVec.ofNat 32 (s.inByte i.toNat).toNat else 0 }

/-- R134: RD.OUT returns 0 at or above OUT_CAP, some byte while BUSY = 1, else the byte. Nothing but the bus data and
the model's counter of free values changes. -/
def Obligations.ReadOutReturnsByte : Prop :=
  (∀ k s, s.caps.outCap ≤ k.toNat → exec (.rdOut k) s = .next { s with busData := 0 }) ∧
  (∀ k s, k.toNat < s.caps.outCap → s.busy = true →
    ∃ (b : Byte) (n : Nat),
      exec (.rdOut k) s = .next { s with busData := BitVec.ofNat 32 b.toNat, draws := n }) ∧
  ∀ k s, k.toNat < s.caps.outCap → s.busy = false →
    exec (.rdOut k) s = .next { s with busData := BitVec.ofNat 32 (s.outByte k.toNat).toNat }

/-- R135: WR.OUT has no effect, and no host transaction writes OUT. -/
def Obligations.WriteOutHasNoEffect : Prop :=
  (∀ k b s, exec (.wrOut k b) s = .next s) ∧
  ∀ t s u, exec (decodeTxn t) s = .next u → ∀ k, u.outByte k = s.outByte k

/-- R64: in the reserved region a read returns 0 and a write is ignored. -/
def Obligations.ReservedRegionReadsZero : Prop :=
  (∀ a d s, exec (.rsv .rd a d) s = .next { s with busData := 0 }) ∧
  ∀ a d s, exec (.rsv .wr a d) s = .next s

/-- R308 and R130: every host transaction, in every state, ends in a next state. -/
def Obligations.HostTransactionsNeverStop : Prop :=
  ∀ t s, ∃ u, exec (decodeTxn t) s = .next u

/-- R336: while BUSY = 1 no host transaction changes IN or IN_LEN, a CTRL write still stores its fields (and a START
sets REJECTED), a STATUS write still clears; and no sequencer step changes IN or IN_LEN. -/
def Obligations.InputIsFrozenWhileBusy : Prop :=
  (∀ t s u, s.busy = true → exec (decodeTxn t) s = .next u →
    u.inBuf = s.inBuf ∧ u.inEpoch = s.inEpoch ∧ u.inLen = s.inLen ∧ u.eng = s.eng ∧ u.phase = s.phase) ∧
  (∀ v s, s.busy = true → exec (decodeCtrl v) s = .next { s with
    mode := v.getLsbD 1, alg := v.extractLsb' 2 2, ie := v.getLsbD 4, rejected := s.rejected || v.getLsbD 0 }) ∧
  (∀ v s, s.busy = true → exec (.wrReg 1 v) s = .next { s with
    done := s.done && !v.getLsbD 1, rejected := s.rejected && !v.getLsbD 2 }) ∧
  ∀ s u, seqStep s = .next u → u.inBuf = s.inBuf ∧ u.inEpoch = s.inEpoch ∧ u.inLen = s.inLen

/-! ### LZW codes -/

/-- R204, R205, R206: a resolved code puts its entry out, inserts the previous entry plus the entry's first byte when
there is a previous code and the table is not full, widens as GrowD says, and becomes the previous code. Everything
else is unchanged. -/
def Obligations.ResolvedCodeIsOutputAndReplayed : Prop :=
  ∀ i c e s, codeEntry s i = some (c, e) → s.eng.lzd.Ok s.caps.maxCodeWidth →
    s.eng.outPos + e.length ≤ s.caps.outCap →
    ∃ t, exec i s = .next t ∧
      t = { s with outBuf := t.outBuf, eng := { s.eng with outPos := s.eng.outPos + e.length, lzd := t.eng.lzd } } ∧
      (∀ k, t.outByte k =
        if h : s.eng.outPos ≤ k ∧ k < s.eng.outPos + e.length then e[k - s.eng.outPos] else s.outByte k) ∧
      t.eng.lzd.prev = c ∧ t.eng.lzd.has = true ∧
      (if s.eng.lzd.has = true ∧ s.eng.lzd.next < 2 ^ s.caps.maxCodeWidth then
        t.eng.lzd.next = s.eng.lzd.next + 1 ∧
        (∃ p f b, stringOf s.eng.lzd.tab s.eng.lzd.prev = some p ∧ firstOf s.eng.lzd.tab s.eng.lzd.prev = some f ∧
          e.head? = some b ∧
          t.eng.lzd.tab = { code := s.eng.lzd.next, pre := s.eng.lzd.prev, last := b, first := f } :: s.eng.lzd.tab ∧
          stringOf t.eng.lzd.tab s.eng.lzd.next = some (p ++ [b])) ∧
        t.eng.lzd.width =
          if s.eng.lzd.width < s.caps.maxCodeWidth ∧ s.eng.lzd.next + 2 = 2 ^ s.eng.lzd.width
          then s.eng.lzd.width + 1 else s.eng.lzd.width
      else t.eng.lzd = { s.eng.lzd with prev := c, has := true })

/-- R203 (derived): under the decoder's invariant every code of class LIT or REF, and KWKWK with a previous code, has
an entry of at least one byte, so LZW.LIT, LZW.REF and LZW.KWKWK run; LIT is the byte itself. -/
def Obligations.EveryResolvableCodeHasAnEntry : Prop :=
  ∀ s : State, s.eng.lzd.Ok s.caps.maxCodeWidth →
    (∀ b : Byte, codeEntry s (.lzwLit b) = some (b.toNat, [b])) ∧
    (∀ c, 257 ≤ c → c < s.eng.lzd.next → ∃ e, codeEntry s (.lzwRef c) = some (c, e) ∧ e ≠ []) ∧
    (∀ c, s.eng.lzd.has = true → ∃ e, codeEntry s (.lzwKwkwk c) = some (c, e) ∧ 2 ≤ e.length)

/-- R202 and R138: the end-of-stream code completes the command, from any state. -/
def Obligations.EndOfStreamCompletes : Prop :=
  ∀ s, ∃ t, exec .lzwEos s = .next t ∧
    t = { s with outLen := BitVec.ofNat 32 s.eng.outPos, err := .none, phase := .idle, done := true } ∧
    t.busy = false ∧ t.irq = s.ie

/-- R203 and R304: an unresolvable code enters CORRUPT_STREAM. -/
def Obligations.BadCodeRaisesCorruptStream : Prop :=
  ∀ c s, ∃ t, exec (.lzwBad c) s = .next t ∧ errorEntered .corruptStream s t

/-- R151 and R304: an entry that does not fit in OUT enters OUTPUT_OVERFLOW. -/
def Obligations.EntryTooLongRaisesOutputOverflow : Prop :=
  ∀ i c e s, codeEntry s i = some (c, e) → s.eng.outPos ≤ s.caps.outCap →
    s.caps.outCap < s.eng.outPos + e.length →
    ∃ t, exec i s = .next t ∧ errorEntered .outputOverflow s t

/-- R200: the decoder's `firstOf(c)` is the first byte of `S(c)`, for every code with an entry. -/
def Obligations.FirstOfIsTheFirstByteOfTheString : Prop :=
  ∀ mcw r c, LzdRegs.Ok mcw r → (c ≤ 255 ∨ (257 ≤ c ∧ c < r.next)) →
    ∃ e, stringOf r.tab c = some e ∧ e ≠ [] ∧ firstOf r.tab c = e.head?

/-! ### Errors, completion, flags, reset -/

/-- R304: the error entry, for every error. -/
def Obligations.ErrorEntrySetsStatusAndKeepsHostState : Prop :=
  ∀ e s, errorEntered e s (raise e s) ∧ (raise e s).irq = s.ie ∧ (raise e s).busy = false

/-- R302: which errors a command can end with, by its latch (CMD_ALG, CMD_MODE); a refused START gives
ILLEGAL_COMMAND. -/
def Obligations.CommandsEndOnlyWithTheirErrors : Prop :=
  (∀ s t, s.Inv → s.busy = true → seqStep s = .next t → t.phase = .idle →
    (s.eng.cmdAlg = 0 ∧ s.eng.cmdMode = false ∧ t.err ∈ [.none, .outputOverflow]) ∨
    (s.eng.cmdAlg = 0 ∧ s.eng.cmdMode = true ∧ t.err ∈ [.none, .corruptStream, .outputOverflow]) ∨
    (s.eng.cmdAlg = 1 ∧ s.eng.cmdMode = false ∧ t.err ∈ [.none, .outputOverflow]) ∨
    (s.eng.cmdAlg = 1 ∧ s.eng.cmdMode = true ∧
      t.err ∈ [.none, .unexpectedEof, .truncatedStream, .badHeader, .outputOverflow])) ∧
  ∀ i f s t, startFields i = some f → s.busy = false → exec i s = .next t → t.busy = false →
    t.err = .illegalCommand

/-- R23 and R28: the bits of STATUS as read, and `irq` as DONE AND IE. -/
def Obligations.StatusBitsAndIrq : Prop :=
  ∀ s : State, s.statusWord.getLsbD 0 = decide (s.phase ≠ .idle) ∧ s.statusWord.getLsbD 1 = s.done ∧
    s.statusWord.getLsbD 2 = s.rejected ∧ s.statusWord.getLsbD 3 = false ∧
    s.statusWord.extractLsb' 4 4 = s.err.code ∧ s.statusWord.extractLsb' 8 24 = 0 ∧
    s.irq = (s.statusWord.getLsbD 1 && s.ctrlWord.getLsbD 4)

/-- R332: what the host reads after reset, for every choice of the parameters. -/
def Obligations.ResetRegistersReadAsStated : Prop :=
  ∀ p, Config.legal p = true →
    ∃ t, State.resetWith p = t ∧ t.irq = false ∧ t.ie = false ∧ t.phase = .idle ∧
    ∀ idx, exec (.rdReg idx) t = .next { t with busData := resetValue p idx }

/-- R331: `rst` at any time, a running command included, gives the reset values; no OUT byte, no IN byte and no
hidden register is given a value. That `rst` is one event, which leaves the host's other events alone, is the model's
choice (log 11), and so are the numbers of the free values (log 7, log 8, log 10). -/
def Obligations.HardwareResetAbandonsCommand : Prop :=
  ∀ s q, s.hostQueue = .rst :: q → ∃ t, step s = .next t ∧
    t.mode = false ∧ t.alg = 0 ∧ t.ie = false ∧ t.done = false ∧ t.rejected = false ∧ t.err = .none ∧
    t.inLen = 0 ∧ t.outLen = 0 ∧ t.irq = false ∧ t.phase = .idle ∧ t.caps = s.caps ∧ t.hostQueue = q ∧
    (∀ i, t.inByte i = Config.freeInByte (s.inEpoch + 1) i) ∧
    (∀ k, t.outByte k = Config.freeOutByte (s.outEpoch + 1) k) ∧ t.eng = Config.freeEngine s.draws

/-! ### Steps and decoding -/

/-- When the host's next event is a transaction, a step is the decoded instruction's meaning, at the state with that
event taken; in particular for the transaction that encodes a well-formed instruction. -/
def Obligations.StepRunsTheHostTransaction : Prop :=
  (∀ s t q, s.hostQueue = .txn t :: q → step s = exec (decodeTxn t) { s with hostQueue := q }) ∧
  (∀ ctx i s t q, wellFormed ctx i = true → encode i = .bus t → s.hostQueue = .txn t :: q →
    step s = exec i { s with hostQueue := q }) ∧
  ∀ s nbits w i, decodeTableWord nbits w = some i → step (s.withFetchWord nbits w) = exec i s

/-- R202: in PHASE = LZD_LOOP the sequencer stops with success when fewer than LZD_WIDTH bits remain; else it runs the
instruction of the code whose bits stand at BR_POS, with BR_POS moved past them. -/
def Obligations.StepRunsTheDecodedCode : Prop :=
  ∀ s s', sequencerTurn s s' → s.phase = .lzdLoop →
    (s.inBits - s.eng.brPos < s.eng.lzd.width → step s = .next (complete s')) ∧
    (s.eng.lzd.width ≤ s.inBits - s.eng.brPos →
      ∃ c, c = ofBits ((List.range s.eng.lzd.width).map fun t => s.bit (s.eng.brPos + t)) ∧
        c < 2 ^ s.eng.lzd.width ∧
        step s = exec (decodeCode s.codeCtx c)
          { s' with eng := { s.eng with brPos := s.eng.brPos + s.eng.lzd.width } } ∧
        (c = 256 → step s = .next (complete
          { s' with eng := { s.eng with brPos := s.eng.brPos + s.eng.lzd.width } })))

/-- R96: the five classes of a code. -/
def Obligations.CodeClassesAsTabled : Prop :=
  ∀ ctx c, 257 ≤ ctx.next →
    (decodeCode ctx c = .lzwEos ↔ c = 256) ∧
    (decodeCode ctx c = .lzwLit (BitVec.ofNat 8 c) ↔ c ≤ 255) ∧
    (decodeCode ctx c = .lzwRef c ↔ 257 ≤ c ∧ c < ctx.next) ∧
    (decodeCode ctx c = .lzwKwkwk c ↔ c = ctx.next ∧ ctx.has = true) ∧
    (decodeCode ctx c = .lzwBad c ↔ ctx.next < c ∨ (c = ctx.next ∧ ctx.has = false))

/-- R92: the rows of the command decode: each word matches exactly one row, and decodes to that row's instruction
whatever its bits 31:4 are. -/
def Obligations.CommandDecodeFollowsTheTable : Prop :=
  ∀ v : Word, (ctrlRows.filter fun r => v &&& r.2 == r.1).length = 1 ∧
    (v &&& 1 = 0 → decodeCtrl v = .cfg (v.getLsbD 1) (v.extractLsb' 2 2) (v.getLsbD 4)) ∧
    (v &&& 15 = 1 → decodeCtrl v = .lzwC (v.getLsbD 4)) ∧
    (v &&& 15 = 3 → decodeCtrl v = .lzwD (v.getLsbD 4)) ∧
    (v &&& 15 = 5 → decodeCtrl v = .hufC (v.getLsbD 4)) ∧
    (v &&& 15 = 7 → decodeCtrl v = .hufD (v.getLsbD 4)) ∧
    (v &&& 9 = 9 → decodeCtrl v = .illegal (v.getLsbD 1) (v.extractLsb' 2 2) (v.getLsbD 4))

/-- Words and transactions written out from the spec's encodings (R91, R94, R96) and what they decode to. The place of
the direction bit in a numbered word is the model's choice (log 3). -/
def Obligations.SampleWordsDecode : Prop :=
  decodeTableWord 8 0b00000001 = some (.lzwC false) ∧
  decodeTableWord 8 0b00010111 = some (.hufD true) ∧
  decodeTableWord 8 0b00001001 = some (.illegal false 0b10 false) ∧
  decodeTableWord 8 0b00011110 = some (.cfg true 0b11 true) ∧
  decodeTxn { dir := .wr, addr := 0x00000008, data := 0x00000004 } = .wrReg 2 4 ∧
  decodeTxn { dir := .rd, addr := 0x00000003, data := 0 } = .rdReg 0 ∧
  decodeTxn { dir := .wr, addr := 0x40000003, data := 0xFFFFFF7F } = .wrIn 3 0x7F ∧
  decodeTxn { dir := .rd, addr := 0x80000001, data := 0 } = .rdOut 1 ∧
  decodeTxn { dir := .rd, addr := 0xC0000000, data := 0 } = .rsv .rd 0 0 ∧
  decodeCodeBits { next := 257, has := true, width := 9 }
    [false, false, true, false, false, false, false, false, true] = some (.lzwLit 0x41) ∧
  decodeCodeBits { next := 257, has := true, width := 9 }
    [true, false, false, false, false, false, false, false, true] = some (.lzwKwkwk 257)

/-- Decode and encode agree for every well-formed instruction, with every operand at every value: on what is fetched,
on the bits of a code in the stream (R95, R99), and on the numbered word of a transaction (log 3). -/
def Obligations.DecodeOfEncodeIsTheInstruction : Prop :=
  ∀ ctx i, wellFormed ctx i = true →
    decode ctx (encode i) = i ∧
    (∀ bs, encodeCodeBits ctx i = some bs → decodeCodeBits ctx bs = some i) ∧
    (∀ w, encodeWord i = some w → decodeTableWord 65 w = some i) ∧
    ((∃ bs, encodeCodeBits ctx i = some bs) ∨ ∃ w, encodeWord i = some w)

/-! ### The invariant, progress and termination -/

/-- The invariant holds after reset, for every legal choice of the parameters. -/
def Obligations.ResetMeetsTheInvariant : Prop :=
  State.reset.Inv ∧ ∀ p, Config.legal p = true → (State.resetWith p).Inv

/-- R44, R182, R245: every step keeps the invariant. -/
def Obligations.StepKeepsTheInvariant : Prop :=
  ∀ s t, s.Inv → step s = .next t → t.Inv

/-- R339: from every state that meets the invariant, a step ends in a next state: nothing is stuck or faults. -/
def Obligations.StepNeverStops : Prop :=
  ∀ s, s.Inv → ∃ t, step s = .next t

/-- R339: every sequencer step of a running command lowers the work that is left. -/
def Obligations.SequencerStepLowersTheWorkLeft : Prop :=
  ∀ s t, s.Inv → s.busy = true → seqStep s = .next t → t.work < s.work

/-- R338 and R339: when the host leaves the block alone, a running command ends within the stated number of steps. -/
def Obligations.EveryCommandEnds : Prop :=
  ∀ s, s.Inv → s.hostQueue = [] → ∃ k t, k ≤ s.work ∧ endsAt s k t ∧ t.Inv

/-- R43 and R62 (derived): a sequencer step writes no register of the host's, no IN byte, and reports nothing. -/
def Obligations.SequencerLeavesTheHostsStateAlone : Prop :=
  ∀ s t, seqStep s = .next t →
    t.caps = s.caps ∧ t.mode = s.mode ∧ t.alg = s.alg ∧ t.ie = s.ie ∧ t.rejected = s.rejected ∧
    t.inLen = s.inLen ∧ t.inBuf = s.inBuf ∧ t.inEpoch = s.inEpoch ∧ t.busData = s.busData ∧
    t.hostQueue = s.hostQueue

/-! ### Whole commands -/

/-- R142, R141: LZW.C runs to its end with the outcome of `lzw_compress`. -/
def Obligations.LzwCompressOutcome : Prop :=
  ∀ ie s, readyToStart s →
    runsToOutcome (.lzwC ie) (lzwCompress s.caps.maxCodeWidth s.input, .none) false 0 ie s

/-- R143, R141: LZW.D runs to its end with the outcome of `lzw_decompress`. -/
def Obligations.LzwDecompressOutcome : Prop :=
  ∀ ie s, readyToStart s →
    runsToOutcome (.lzwD ie) (lzwDecompress s.caps.maxCodeWidth s.input) true 0 ie s

/-- R144, R141: HUF.C runs to its end with the outcome of `huffman_compress`. -/
def Obligations.HuffmanCompressOutcome : Prop :=
  ∀ ie s, readyToStart s → runsToOutcome (.hufC ie) (huffmanCompress s.input, .none) false 1 ie s

/-- R145, R141: HUF.D runs to its end with the outcome of `huffman_decompress`. -/
def Obligations.HuffmanDecompressOutcome : Prop :=
  ∀ ie s, readyToStart s → runsToOutcome (.hufD ie) (huffmanDecompress s.input) true 1 ie s

/-- R334 (derived): two runs of one command from states that agree on the parameters and the input end with the same
error, the same OUT_LEN and the same result bytes, whatever the hidden registers, OUT and the earlier commands. -/
def Obligations.ResultDependsOnlyOnInputAndCommand : Prop :=
  ∀ i f s s' t t' k k' u u', startFields i = some f → readyToStart s → readyToStart s' →
    s.caps = s'.caps → s.input = s'.input →
    exec i s = .next t → exec i s' = .next t' → endsAt t k u → endsAt t' k' u' →
    u.err = u'.err ∧ u.outLen = u'.outLen ∧ u.result = u'.result

/-! ### The packer -/

/-- R151: OutByte. -/
def Obligations.OutByteAppendsOrOverflows : Prop :=
  (∀ v s, s.eng.outPos = s.caps.outCap → putOut v s = .error .outputOverflow) ∧
  ∀ v s, s.eng.outPos ≠ s.caps.outCap → ∃ t, putOut v s = .ok t ∧
    t = { s with outBuf := t.outBuf, eng := { s.eng with outPos := s.eng.outPos + 1 } } ∧
    t.outByte s.eng.outPos = v ∧ ∀ k, k ≠ s.eng.outPos → t.outByte k = s.outByte k

/-- R156: ReadBits returns the bits at the cursor as a number, most significant first, or raises UNEXPECTED_EOF; R157:
AtEnd says which. -/
def Obligations.ReadBitsReturnsTheBitsAtTheCursor : Prop :=
  ∀ bit total pos w,
    (total - pos < w → readBits bit total pos w = .error .unexpectedEof) ∧
    (w ≤ total - pos → ∃ v, readBits bit total pos w = .ok (v, pos + w) ∧ v < 2 ^ w ∧
      v = ((List.range w).map fun t => (bit (pos + t)).toNat * 2 ^ (w - 1 - t)).sum) ∧
    atEnd total pos w = decide (total - pos < w)

/-- R154: a stream written by WriteBits and Finish into an empty OUT is the values' bits, zero-padded, byte by byte. -/
def Obligations.PackedStreamIsTheValuesBits : Prop :=
  ∀ ps s t u, s.eng.outPos = 0 → s.eng.bw = BitWriter.empty → writeBits ps s = .ok t →
    packOut t.eng.bw.finish t = .ok u →
    u.eng.outPos = ((ps.map Prod.snd).sum + 7) / 8 ∧
    ∀ k, (h : k < (bytesOfBits (ps.flatMap fun p => bitsOf p.1 p.2)).length) →
      u.outByte k = (bytesOfBits (ps.flatMap fun p => bitsOf p.1 p.2))[k]

/-- R158: reading back a packed stream returns the values and leaves fewer than 8 padding bits. -/
def Obligations.PackedStreamReadsBack : Prop :=
  ∀ ps : List (Nat × Nat), (∀ p ∈ ps, p.1 < 2 ^ p.2) →
    readAll (listBit (packed ps)) (8 * (packed ps).length) (ps.map Prod.snd) 0 =
      .ok (ps.map Prod.fst, (ps.map Prod.snd).sum) ∧
    8 * (packed ps).length - (ps.map Prod.snd).sum = (8 - (ps.map Prod.snd).sum % 8) % 8

/-! ### LZW -/

/-- R172 and R173: Insert and Grow, and the frozen full dictionary. -/
def Obligations.InsertAddsOneEntryUntilFull : Prop :=
  (∀ mcw p b r, r.next < 2 ^ mcw → LzeRegs.insert mcw p b r = { r with
    dict := { pre := p, byte := b, code := r.next } :: r.dict
    next := r.next + 1
    width := if r.next + 1 = 2 ^ r.width ∧ r.width < mcw then r.width + 1 else r.width }) ∧
  ∀ mcw p b r, r.next = 2 ^ mcw → LzeRegs.insert mcw p b r = r

/-- R179: code number `j` (from 1) is written at `min(MAX_CODE_WIDTH, bitlen(256 + j))` bits. -/
def Obligations.LzwCodeWidthsByPosition : Prop :=
  ∀ mcw x j c w, 9 ≤ mcw → (lzwCodes mcw x)[j]? = some (c, w) → w = min mcw (bitlen (256 + (j + 1)))

/-- R180 (derived): no code is cut by its width, the widths never decrease, and only the last code is 256. -/
def Obligations.LzwCodesFitTheirWidths : Prop :=
  ∀ mcw x, 9 ≤ mcw →
    (∀ p ∈ lzwCodes mcw x, p.1 < 2 ^ p.2) ∧
    ((lzwCodes mcw x).map Prod.snd).Pairwise (· ≤ ·) ∧
    (∃ cs w, lzwCodes mcw x = cs ++ [(256, w)] ∧ ∀ p ∈ cs, p.1 ≠ 256)

/-- R178 and R181 (derived): the length of the compressed stream, and the empty input's stream `80 00`. -/
def Obligations.LzwCompressedLength : Prop :=
  ∀ mcw x, 9 ≤ mcw →
    (lzwCompress mcw x).length = (((lzwCodes mcw x).map Prod.snd).sum + 7) / 8 ∧
    (lzwCodes mcw x).length ≤ x.length + 1 ∧
    (lzwCompress mcw x).length ≤ ((x.length + 1) * mcw + 7) / 8 ∧
    lzwCompress mcw [] = [0x80, 0x00]

/-- R209: decompressing what the encoder wrote gives the input back, with the same MAX_CODE_WIDTH. -/
def Obligations.LzwRoundTrip : Prop :=
  ∀ mcw x, 9 ≤ mcw → mcw ≤ 31 → lzwDecompress mcw (lzwCompress mcw x) = (x, .none)

/-! ### Huffman -/

/-- R232: the symbol list is the bytes that occur, ascending, each with its count. -/
def Obligations.SymbolListIsAscendingCounts : Prop :=
  ∀ x : List Byte,
    ((symbols (countAll x)).map Prod.fst).Pairwise (· < ·) ∧
    (∀ s f, (s, f) ∈ symbols (countAll x) ↔ f = x.count s ∧ 0 < f) ∧
    (x ≠ [] → 1 ≤ (symbols (countAll x)).length) ∧ (symbols (countAll x)).length ≤ 256

/-- R235: PopMin removes from ACTIVE the node that comes first by (frequency, index). -/
def Obligations.PopMinTakesTheLeastNode : Prop :=
  ∀ nodes active a rest, active.Nodup → popMin nodes active = some (a, rest) →
    a ∈ active ∧ rest = active.erase a ∧
    ∀ b ∈ active, b ≠ a →
      (nodeAt nodes a).weight < (nodeAt nodes b).weight ∨
        ((nodeAt nodes a).weight = (nodeAt nodes b).weight ∧ a < b)

/-- R236: Merge creates at NODE_CNT the internal node of the two nodes popped, the first popped on the left, adds it to
what is left of ACTIVE, and changes no other node. That an entry lists its node at its creation number is the premise
`nodeCnt = node.length` (an invariant of every build, `BuildOk`). -/
def Obligations.MergeJoinsTheTwoNodesPopped : Prop :=
  ∀ (h : HufRegs) a l b l', h.nodeCnt = h.node.length →
    popMin h.node h.active = some (a, l) → popMin h.node l = some (b, l') →
    ∃ t, h.merge = some t ∧ t = { h with node := t.node, active := l' ++ [h.nodeCnt], nodeCnt := h.nodeCnt + 1 } ∧
      nodeAt t.node h.nodeCnt = .internal a b ((nodeAt h.node a).weight + (nodeAt h.node b).weight) ∧
      (∀ i < h.nodeCnt, nodeAt t.node i = nodeAt h.node i) ∧ t.node.length = t.nodeCnt

/-- R237 (derived): a tree of `k` leaves has `2k - 1` nodes, and its root is the last. -/
def Obligations.TreeOfKLeavesHasTwoKMinusOneNodes : Prop :=
  ∀ l h, 1 ≤ l.length →
    (HufRegs.tree l h).nodeCnt = 2 * l.length - 1 ∧ (HufRegs.tree l h).root = 2 * l.length - 2 ∧
    (HufRegs.tree l h).node.length = 2 * l.length - 1

/-- R243: no code of an occurring byte is a prefix of another's, and every occurring byte has a code of 1 to 255
bits (R245). -/
def Obligations.HuffmanCodesArePrefixFree : Prop :=
  ∀ x : List Byte,
    (∀ s ∈ x, 1 ≤ ((hufTree x).codeOf s).length ∧ ((hufTree x).codeOf s).length ≤ 255) ∧
    ∀ s ∈ x, ∀ t ∈ x, s ≠ t → ¬ ((hufTree x).codeOf s <+: (hufTree x).codeOf t)

/-- R261 and R262 (derived): a header that passes the checks lists at most 256 bytes, strictly ascending, each with a
frequency of 1 or more, with the sum N, and the payload starts at byte `6 + 5D`. -/
def Obligations.AcceptedHeaderIsWellFormed : Prop :=
  ∀ bit total d h n pos, readHeader bit total = .ok (d, h, n, pos) →
    d ≤ 256 ∧ h.leaves.length = d ∧ (h.leaves.map Prod.fst).Pairwise (· < ·) ∧
    (∀ p ∈ h.leaves, 0 < p.2 ∧ p.2 < 2 ^ 32) ∧ (h.leaves.map Prod.snd).sum = n ∧ n < 2 ^ 32 ∧
    pos = 8 * (6 + 5 * d) ∧ pos ≤ total

/-- R269: decompressing what the encoder wrote gives the input back, for every input a buffer can hold. -/
def Obligations.HuffmanRoundTrip : Prop :=
  ∀ x : List Byte, x.length ≤ 2 ^ 30 → huffmanDecompress (huffmanCompress x) = (x, .none)
end

