-- ==== Sys2Proof/Laws/LzwDecoder.lean ====
section
/-! SUPPORT. The LZW decoder's table (43_lzw_decoder.md R200 to R206): the strings of its codes, and that accepting a
code keeps the decoder's invariant. -/

namespace Sys2Proof.Machine

open Sys2Proof

/-- A code that stands for an entry: a literal, or a valid table entry (43_lzw_decoder.md R203, classes LIT and
REF). -/
def LzdRegs.Known (r : LzdRegs) (c : Nat) : Prop := c ≤ 255 ∨ (257 ≤ c ∧ c < r.next)

/-- An entry is at least one byte long (43_lzw_decoder.md R204). -/
theorem stringOf_ne_nil {tab : List TabEntry} {c : Nat} {e : List Byte} (h : stringOf tab c = some e) : e ≠ [] := by
  induction tab generalizing c e with
  | nil =>
    unfold stringOf at h
    split at h <;> cases h
    simp
  | cons t tab ih =>
    unfold stringOf at h
    split at h
    · obtain ⟨p, -, rfl⟩ := Option.map_eq_some_iff.mp h
      simp
    · exact ih h

theorem stringOf_cons_of_ne {t : TabEntry} {tab : List TabEntry} {c : Nat} (h : c ≠ t.code) :
    stringOf (t :: tab) c = stringOf tab c := by simp [stringOf, h]

theorem stringOf_cons_self (t : TabEntry) (tab : List TabEntry) :
    stringOf (t :: tab) t.code = (stringOf tab t.pre).map (· ++ [t.last]) := by simp [stringOf]

/-- The string of a single byte. -/
theorem stringOf_literal {tab : List TabEntry} (h : ∀ e ∈ tab, 257 ≤ e.code) {c : Nat} (hc : c ≤ 255) :
    stringOf tab c = some [BitVec.ofNat 8 c] := by
  induction tab with
  | nil => simp [stringOf, hc]
  | cons t tab ih =>
    have := h t (by simp)
    rw [stringOf_cons_of_ne (by omega), ih fun e he => h e (by simp [he])]

/-- Every code of a table whose entries count up from 257 has a string. -/
theorem stringOf_isSome {tab : List TabEntry} {n : Nat} (hm : tab.map TabEntry.code = (List.range' 257 n).reverse)
    (hp : ∀ e ∈ tab, e.pre < e.code ∧ e.pre ≠ 256) {c : Nat} (hc : c ≤ 255 ∨ (257 ≤ c ∧ c < 257 + n)) :
    ∃ e, stringOf tab c = some e := by
  induction n generalizing tab c with
  | zero =>
    obtain rfl : tab = [] := by simpa using hm
    have hc : c ≤ 255 := by omega
    exact ⟨[BitVec.ofNat 8 c], by simp only [stringOf, hc, if_true]⟩
  | succ n ih =>
    rw [List.range'_1_concat, List.reverse_append, List.reverse_singleton, List.singleton_append] at hm
    match tab, hm, hp with
    | t :: tab, hm, hp =>
      obtain ⟨h1, h2⟩ := List.cons.inj hm
      have hp' : ∀ e ∈ tab, e.pre < e.code ∧ e.pre ≠ 256 := fun e he => hp e (by simp [he])
      by_cases h : c = t.code
      · obtain ⟨h3, h4⟩ := hp t (by simp)
        obtain ⟨e, he⟩ := ih h2 hp' (c := t.pre) (by omega)
        exact ⟨e ++ [t.last], by rw [h, stringOf_cons_self, he]; rfl⟩
      · rw [stringOf_cons_of_ne h]
        exact ih h2 hp' (by omega)

namespace LzdRegs.Ok

variable {mcw : Nat} {r : LzdRegs}

theorem code_mem (h : r.Ok mcw) {e : TabEntry} (he : e ∈ r.tab) : 257 ≤ e.code ∧ e.code < r.next := by
  obtain ⟨h1, -, -, -, -, hm, -⟩ := h
  have : e.code ∈ r.tab.map TabEntry.code := List.mem_map_of_mem he
  rw [hm, List.mem_reverse, List.mem_range'_1] at this
  omega

/-- Every known code has a string. -/
theorem string (h : r.Ok mcw) {c : Nat} (hc : r.Known c) : ∃ e, stringOf r.tab c = some e := by
  obtain ⟨h1, -, -, -, -, hm, hp, -⟩ := h
  refine stringOf_isSome hm (fun e he => ⟨(hp e he).1, (hp e he).2.1⟩) ?_
  unfold Known at hc
  omega

/-- `firstOf` is the first byte of the string (43_lzw_decoder.md R200). -/
theorem first (h : r.Ok mcw) {c : Nat} (hc : r.Known c) {e : List Byte} (he : stringOf r.tab c = some e) :
    firstOf r.tab c = e.head? := by
  by_cases hl : c ≤ 255
  · rw [stringOf_literal (fun t ht => (h.code_mem ht).1) hl] at he
    cases he
    simp [firstOf, hl]
  · have hc' : 257 ≤ c ∧ c < r.next := hc.resolve_left hl
    have hmem : c ∈ r.tab.map TabEntry.code := by
      rw [h.2.2.2.2.2.1, List.mem_reverse, List.mem_range'_1]
      omega
    obtain ⟨t, ht, htc⟩ := List.mem_map.mp hmem
    have hf : (r.tab.find? fun t => t.code == c).isSome = true :=
      List.find?_isSome.mpr ⟨t, ht, by simp [htc]⟩
    obtain ⟨u, hu⟩ := Option.isSome_iff_exists.mp hf
    have huc : u.code = c := by simpa using List.find?_some hu
    have hfirst := (h.2.2.2.2.2.2.1 u (List.mem_of_find?_eq_some hu)).2.2
    rw [huc, he] at hfirst
    simp only [firstOf, hl, if_false, hu, Option.map_some]
    exact hfirst.symm

/-- The previous code is known. -/
theorem prev_known (h : r.Ok mcw) (hh : r.has = true) : r.Known r.prev := by
  have := h.2.2.2.2.2.2.2.1 hh
  unfold Known
  omega

/-- The entry of a KWKWK code. -/
theorem kwkwk (h : r.Ok mcw) (hh : r.has = true) :
    ∃ p b, stringOf r.tab r.prev = some p ∧ firstOf r.tab r.prev = some b ∧ p.head? = some b ∧
      r.kwkwk = some (p ++ [b]) := by
  obtain ⟨p, hp⟩ := h.string (h.prev_known hh)
  have hf := h.first (h.prev_known hh) hp
  obtain ⟨b, tl, rfl⟩ := List.exists_cons_of_ne_nil (stringOf_ne_nil hp)
  exact ⟨_, b, hp, hf, rfl, by simp only [LzdRegs.kwkwk, hp, hf]; rfl⟩

theorem grow (hn : 257 ≤ r.next ∧ r.next ≤ 2 ^ mcw) (hw : 9 ≤ r.width ∧ r.width ≤ mcw)
    (hr : r.next < 2 ^ r.width ∨ r.width = mcw)
    (hm : r.tab.map TabEntry.code = (List.range' 257 (r.next - 257)).reverse)
    (hp : ∀ e ∈ r.tab, e.pre < e.code ∧ e.pre ≠ 256 ∧ (stringOf r.tab e.code).bind List.head? = some e.first)
    {c : Nat} (hc : c < r.next ∧ c ≠ 256) : ({ r.grow mcw with prev := c, has := true } : LzdRegs).Ok mcw := by
  unfold LzdRegs.grow
  split
  · rename_i hg
    refine ⟨hn.1, hn.2, by simp only; omega, by simp only; omega, ?_, hm, hp, fun _ => hc, fun hh => by cases hh⟩
    left
    simp only [pow_succ]
    have : 2 ^ 9 ≤ 2 ^ r.width := Nat.pow_le_pow_right (by norm_num) hw.1
    omega
  · rename_i hg
    refine ⟨hn.1, hn.2, hw.1, hw.2, ?_, hm, hp, fun _ => hc, fun hh => by cases hh⟩
    simp only
    omega

/-- Accepting a resolved code keeps the invariant (43_lzw_decoder.md R205, R206). The code is known, or it is the next
one with the entry of KWKWK. -/
theorem accept (h : r.Ok mcw) {c : Nat} {e : List Byte} (he : e ≠ []) (hc : r.Known c ∨ (c = r.next ∧ r.has = true))
    (hlt : c = r.next → r.next < 2 ^ mcw) : ∃ t, r.accept mcw c e = some t ∧ t.Ok mcw := by
  obtain ⟨b, tl, rfl⟩ := List.exists_cons_of_ne_nil he
  have h256 : c ≠ 256 := by
    have := h.1
    unfold Known at hc
    omega
  by_cases hi : r.has = true ∧ r.next < 2 ^ mcw
  · obtain ⟨p, f, hp, hf, hpf, -⟩ := h.kwkwk hi.1
    refine ⟨_, by
      simp only [LzdRegs.accept, List.head?_cons, Option.bind_some, LzdRegs.insert]
      rw [if_pos hi, hf, Option.map_some, Option.map_some], ?_⟩
    have hprev := h.2.2.2.2.2.2.2.1 hi.1
    have h1 := h.1
    refine grow (r := { r with
      tab := { code := r.next, pre := r.prev, last := b, first := f } :: r.tab, next := r.next + 1 }) ?_ ?_ ?_ ?_ ?_ ?_
    · exact ⟨by simp only; omega, hi.2⟩
    · exact ⟨h.2.2.1, h.2.2.2.1⟩
    · have := h.2.2.2.2.1
      simp only
      omega
    · have e1 : r.next + 1 - 257 = (r.next - 257) + 1 := by omega
      simp only [List.map_cons, e1]
      rw [List.range'_1_concat, List.reverse_append, h.2.2.2.2.2.1]
      simp
      omega
    · intro t ht
      simp only [List.mem_cons] at ht
      rcases ht with rfl | ht
      · refine ⟨by simp only; omega, by simp only; omega, ?_⟩
        rw [stringOf_cons_self, hp]
        obtain ⟨b', tl', rfl⟩ := List.exists_cons_of_ne_nil (stringOf_ne_nil hp)
        simpa using hpf
      · obtain ⟨q1, q2, q3⟩ := h.2.2.2.2.2.2.1 t ht
        have := (h.code_mem ht).2
        refine ⟨q1, q2, ?_⟩
        rw [stringOf_cons_of_ne (by simp only; omega)]
        exact q3
    · refine ⟨?_, h256⟩
      unfold Known at hc
      simp only
      omega
  · refine ⟨{ r with prev := c, has := true }, by
      simp only [LzdRegs.accept, List.head?_cons, Option.bind_some, LzdRegs.insert, hi, if_false, Option.map_some], ?_⟩
    have hcn : c < r.next := by
      rcases hc with hc | ⟨rfl, hh⟩
      · have := h.1
        unfold Known at hc
        omega
      · exact absurd ⟨hh, hlt rfl⟩ hi
    obtain ⟨h1, h2, h3, h4, h5, h6, h7, h8, h9⟩ := h
    exact ⟨h1, h2, h3, h4, h5, h6, h7, fun _ => ⟨hcn, h256⟩, fun hh => by cases hh⟩

end LzdRegs.Ok

/-- The decoder's registers at the start of a command meet the invariant (43_lzw_decoder.md R201). -/
theorem LzdRegs.init_ok {mcw : Nat} (h : 9 ≤ mcw) (r : LzdRegs) : r.init.Ok mcw := by
  have : 2 ^ 9 ≤ 2 ^ mcw := Nat.pow_le_pow_right (by norm_num) h
  refine ⟨by simp [LzdRegs.init], ?_, by simp [LzdRegs.init], h,
    by simp [LzdRegs.init, Config.firstCode, Config.minWidth], by simp [LzdRegs.init], ?_, ?_, ?_⟩
  · simp only [LzdRegs.init, Config.firstCode]
    omega
  · simp [LzdRegs.init]
  · simp [LzdRegs.init]
  · simp [LzdRegs.init]

end Sys2Proof.Machine
end

