-- ==== Sys2Proof/Laws/State.lean ====
section
/-! SUPPORT. One lemma per field for each update of the state, so that no later proof unfolds a record update. -/

namespace Sys2Proof.Machine

open Sys2Proof

/-! ### storeCtrl (40_commands.md R136) -/

@[simp] theorem storeCtrl_caps (m : Bool) (a : BitVec 2) (i : Bool) (s : State) :
    (s.storeCtrl m a i).caps = s.caps := rfl
@[simp] theorem storeCtrl_mode (m : Bool) (a : BitVec 2) (i : Bool) (s : State) :
    (s.storeCtrl m a i).mode = m := rfl
@[simp] theorem storeCtrl_alg (m : Bool) (a : BitVec 2) (i : Bool) (s : State) :
    (s.storeCtrl m a i).alg = a := rfl
@[simp] theorem storeCtrl_ie (m : Bool) (a : BitVec 2) (i : Bool) (s : State) :
    (s.storeCtrl m a i).ie = i := rfl
@[simp] theorem storeCtrl_done (m : Bool) (a : BitVec 2) (i : Bool) (s : State) :
    (s.storeCtrl m a i).done = s.done := rfl
@[simp] theorem storeCtrl_rejected (m : Bool) (a : BitVec 2) (i : Bool) (s : State) :
    (s.storeCtrl m a i).rejected = s.rejected := rfl
@[simp] theorem storeCtrl_err (m : Bool) (a : BitVec 2) (i : Bool) (s : State) :
    (s.storeCtrl m a i).err = s.err := rfl
@[simp] theorem storeCtrl_inLen (m : Bool) (a : BitVec 2) (i : Bool) (s : State) :
    (s.storeCtrl m a i).inLen = s.inLen := rfl
@[simp] theorem storeCtrl_outLen (m : Bool) (a : BitVec 2) (i : Bool) (s : State) :
    (s.storeCtrl m a i).outLen = s.outLen := rfl
@[simp] theorem storeCtrl_inBuf (m : Bool) (a : BitVec 2) (i : Bool) (s : State) :
    (s.storeCtrl m a i).inBuf = s.inBuf := rfl
@[simp] theorem storeCtrl_outBuf (m : Bool) (a : BitVec 2) (i : Bool) (s : State) :
    (s.storeCtrl m a i).outBuf = s.outBuf := rfl
@[simp] theorem storeCtrl_phase (m : Bool) (a : BitVec 2) (i : Bool) (s : State) :
    (s.storeCtrl m a i).phase = s.phase := rfl
@[simp] theorem storeCtrl_eng (m : Bool) (a : BitVec 2) (i : Bool) (s : State) :
    (s.storeCtrl m a i).eng = s.eng := rfl
@[simp] theorem storeCtrl_busData (m : Bool) (a : BitVec 2) (i : Bool) (s : State) :
    (s.storeCtrl m a i).busData = s.busData := rfl
@[simp] theorem storeCtrl_hostQueue (m : Bool) (a : BitVec 2) (i : Bool) (s : State) :
    (s.storeCtrl m a i).hostQueue = s.hostQueue := rfl
@[simp] theorem storeCtrl_inEpoch (m : Bool) (a : BitVec 2) (i : Bool) (s : State) :
    (s.storeCtrl m a i).inEpoch = s.inEpoch := rfl
@[simp] theorem storeCtrl_outEpoch (m : Bool) (a : BitVec 2) (i : Bool) (s : State) :
    (s.storeCtrl m a i).outEpoch = s.outEpoch := rfl
@[simp] theorem storeCtrl_draws (m : Bool) (a : BitVec 2) (i : Bool) (s : State) :
    (s.storeCtrl m a i).draws = s.draws := rfl

/-! ### writeStatus (40_commands.md R148) -/

@[simp] theorem writeStatus_caps (v : Word) (s : State) :
    (s.writeStatus v).caps = s.caps := rfl
@[simp] theorem writeStatus_mode (v : Word) (s : State) :
    (s.writeStatus v).mode = s.mode := rfl
@[simp] theorem writeStatus_alg (v : Word) (s : State) :
    (s.writeStatus v).alg = s.alg := rfl
@[simp] theorem writeStatus_ie (v : Word) (s : State) :
    (s.writeStatus v).ie = s.ie := rfl
@[simp] theorem writeStatus_done (v : Word) (s : State) :
    (s.writeStatus v).done = (s.done && !v.getLsbD 1) := rfl
@[simp] theorem writeStatus_rejected (v : Word) (s : State) :
    (s.writeStatus v).rejected = (s.rejected && !v.getLsbD 2) := rfl
@[simp] theorem writeStatus_err (v : Word) (s : State) :
    (s.writeStatus v).err = s.err := rfl
@[simp] theorem writeStatus_inLen (v : Word) (s : State) :
    (s.writeStatus v).inLen = s.inLen := rfl
@[simp] theorem writeStatus_outLen (v : Word) (s : State) :
    (s.writeStatus v).outLen = s.outLen := rfl
@[simp] theorem writeStatus_inBuf (v : Word) (s : State) :
    (s.writeStatus v).inBuf = s.inBuf := rfl
@[simp] theorem writeStatus_outBuf (v : Word) (s : State) :
    (s.writeStatus v).outBuf = s.outBuf := rfl
@[simp] theorem writeStatus_phase (v : Word) (s : State) :
    (s.writeStatus v).phase = s.phase := rfl
@[simp] theorem writeStatus_eng (v : Word) (s : State) :
    (s.writeStatus v).eng = s.eng := rfl
@[simp] theorem writeStatus_busData (v : Word) (s : State) :
    (s.writeStatus v).busData = s.busData := rfl
@[simp] theorem writeStatus_hostQueue (v : Word) (s : State) :
    (s.writeStatus v).hostQueue = s.hostQueue := rfl
@[simp] theorem writeStatus_inEpoch (v : Word) (s : State) :
    (s.writeStatus v).inEpoch = s.inEpoch := rfl
@[simp] theorem writeStatus_outEpoch (v : Word) (s : State) :
    (s.writeStatus v).outEpoch = s.outEpoch := rfl
@[simp] theorem writeStatus_draws (v : Word) (s : State) :
    (s.writeStatus v).draws = s.draws := rfl

/-! ### answer (30_encoding.md R94) -/

@[simp] theorem answer_caps (d : Word) (s : State) :
    (s.answer d).caps = s.caps := rfl
@[simp] theorem answer_mode (d : Word) (s : State) :
    (s.answer d).mode = s.mode := rfl
@[simp] theorem answer_alg (d : Word) (s : State) :
    (s.answer d).alg = s.alg := rfl
@[simp] theorem answer_ie (d : Word) (s : State) :
    (s.answer d).ie = s.ie := rfl
@[simp] theorem answer_done (d : Word) (s : State) :
    (s.answer d).done = s.done := rfl
@[simp] theorem answer_rejected (d : Word) (s : State) :
    (s.answer d).rejected = s.rejected := rfl
@[simp] theorem answer_err (d : Word) (s : State) :
    (s.answer d).err = s.err := rfl
@[simp] theorem answer_inLen (d : Word) (s : State) :
    (s.answer d).inLen = s.inLen := rfl
@[simp] theorem answer_outLen (d : Word) (s : State) :
    (s.answer d).outLen = s.outLen := rfl
@[simp] theorem answer_inBuf (d : Word) (s : State) :
    (s.answer d).inBuf = s.inBuf := rfl
@[simp] theorem answer_outBuf (d : Word) (s : State) :
    (s.answer d).outBuf = s.outBuf := rfl
@[simp] theorem answer_phase (d : Word) (s : State) :
    (s.answer d).phase = s.phase := rfl
@[simp] theorem answer_eng (d : Word) (s : State) :
    (s.answer d).eng = s.eng := rfl
@[simp] theorem answer_busData (d : Word) (s : State) :
    (s.answer d).busData = d := rfl
@[simp] theorem answer_hostQueue (d : Word) (s : State) :
    (s.answer d).hostQueue = s.hostQueue := rfl
@[simp] theorem answer_inEpoch (d : Word) (s : State) :
    (s.answer d).inEpoch = s.inEpoch := rfl
@[simp] theorem answer_outEpoch (d : Word) (s : State) :
    (s.answer d).outEpoch = s.outEpoch := rfl
@[simp] theorem answer_draws (d : Word) (s : State) :
    (s.answer d).draws = s.draws := rfl

/-! ### complete (40_commands.md R138) -/

@[simp] theorem complete_caps (s : State) :
    (complete s).caps = s.caps := rfl
@[simp] theorem complete_mode (s : State) :
    (complete s).mode = s.mode := rfl
@[simp] theorem complete_alg (s : State) :
    (complete s).alg = s.alg := rfl
@[simp] theorem complete_ie (s : State) :
    (complete s).ie = s.ie := rfl
@[simp] theorem complete_done (s : State) :
    (complete s).done = true := rfl
@[simp] theorem complete_rejected (s : State) :
    (complete s).rejected = s.rejected := rfl
@[simp] theorem complete_err (s : State) :
    (complete s).err = .none := rfl
@[simp] theorem complete_inLen (s : State) :
    (complete s).inLen = s.inLen := rfl
@[simp] theorem complete_outLen (s : State) :
    (complete s).outLen = BitVec.ofNat 32 s.eng.outPos := rfl
@[simp] theorem complete_inBuf (s : State) :
    (complete s).inBuf = s.inBuf := rfl
@[simp] theorem complete_outBuf (s : State) :
    (complete s).outBuf = s.outBuf := rfl
@[simp] theorem complete_phase (s : State) :
    (complete s).phase = .idle := rfl
@[simp] theorem complete_eng (s : State) :
    (complete s).eng = s.eng := rfl
@[simp] theorem complete_busData (s : State) :
    (complete s).busData = s.busData := rfl
@[simp] theorem complete_hostQueue (s : State) :
    (complete s).hostQueue = s.hostQueue := rfl
@[simp] theorem complete_inEpoch (s : State) :
    (complete s).inEpoch = s.inEpoch := rfl
@[simp] theorem complete_outEpoch (s : State) :
    (complete s).outEpoch = s.outEpoch := rfl
@[simp] theorem complete_draws (s : State) :
    (complete s).draws = s.draws := rfl

/-! ### raise (60_exceptions.md R304) -/

@[simp] theorem raise_caps (e : ErrCode) (s : State) :
    (raise e s).caps = s.caps := rfl
@[simp] theorem raise_mode (e : ErrCode) (s : State) :
    (raise e s).mode = s.mode := rfl
@[simp] theorem raise_alg (e : ErrCode) (s : State) :
    (raise e s).alg = s.alg := rfl
@[simp] theorem raise_ie (e : ErrCode) (s : State) :
    (raise e s).ie = s.ie := rfl
@[simp] theorem raise_done (e : ErrCode) (s : State) :
    (raise e s).done = true := rfl
@[simp] theorem raise_rejected (e : ErrCode) (s : State) :
    (raise e s).rejected = s.rejected := rfl
@[simp] theorem raise_err (e : ErrCode) (s : State) :
    (raise e s).err = e := rfl
@[simp] theorem raise_inLen (e : ErrCode) (s : State) :
    (raise e s).inLen = s.inLen := rfl
@[simp] theorem raise_outLen (e : ErrCode) (s : State) :
    (raise e s).outLen = 0 := rfl
@[simp] theorem raise_inBuf (e : ErrCode) (s : State) :
    (raise e s).inBuf = s.inBuf := rfl
@[simp] theorem raise_outBuf (e : ErrCode) (s : State) :
    (raise e s).outBuf = [] := rfl
@[simp] theorem raise_phase (e : ErrCode) (s : State) :
    (raise e s).phase = .idle := rfl
@[simp] theorem raise_eng (e : ErrCode) (s : State) :
    (raise e s).eng = Config.freeEngine s.draws := rfl
@[simp] theorem raise_busData (e : ErrCode) (s : State) :
    (raise e s).busData = s.busData := rfl
@[simp] theorem raise_hostQueue (e : ErrCode) (s : State) :
    (raise e s).hostQueue = s.hostQueue := rfl
@[simp] theorem raise_inEpoch (e : ErrCode) (s : State) :
    (raise e s).inEpoch = s.inEpoch := rfl
@[simp] theorem raise_outEpoch (e : ErrCode) (s : State) :
    (raise e s).outEpoch = s.outEpoch + 1 := rfl
@[simp] theorem raise_draws (e : ErrCode) (s : State) :
    (raise e s).draws = s.draws + 1 := rfl

/-! ### illegal (40_commands.md R146) -/

@[simp] theorem illegal_caps (s : State) :
    (illegal s).caps = s.caps := rfl
@[simp] theorem illegal_mode (s : State) :
    (illegal s).mode = s.mode := rfl
@[simp] theorem illegal_alg (s : State) :
    (illegal s).alg = s.alg := rfl
@[simp] theorem illegal_ie (s : State) :
    (illegal s).ie = s.ie := rfl
@[simp] theorem illegal_done (s : State) :
    (illegal s).done = true := rfl
@[simp] theorem illegal_rejected (s : State) :
    (illegal s).rejected = s.rejected := rfl
@[simp] theorem illegal_err (s : State) :
    (illegal s).err = .illegalCommand := rfl
@[simp] theorem illegal_inLen (s : State) :
    (illegal s).inLen = s.inLen := rfl
@[simp] theorem illegal_outLen (s : State) :
    (illegal s).outLen = 0 := rfl
@[simp] theorem illegal_inBuf (s : State) :
    (illegal s).inBuf = s.inBuf := rfl
@[simp] theorem illegal_outBuf (s : State) :
    (illegal s).outBuf = s.outBuf := rfl
@[simp] theorem illegal_phase (s : State) :
    (illegal s).phase = s.phase := rfl
@[simp] theorem illegal_eng (s : State) :
    (illegal s).eng = s.eng := rfl
@[simp] theorem illegal_busData (s : State) :
    (illegal s).busData = s.busData := rfl
@[simp] theorem illegal_hostQueue (s : State) :
    (illegal s).hostQueue = s.hostQueue := rfl
@[simp] theorem illegal_inEpoch (s : State) :
    (illegal s).inEpoch = s.inEpoch := rfl
@[simp] theorem illegal_outEpoch (s : State) :
    (illegal s).outEpoch = s.outEpoch := rfl
@[simp] theorem illegal_draws (s : State) :
    (illegal s).draws = s.draws := rfl

/-! ### reject (40_commands.md R140) -/

@[simp] theorem reject_caps (s : State) :
    (reject s).caps = s.caps := rfl
@[simp] theorem reject_mode (s : State) :
    (reject s).mode = s.mode := rfl
@[simp] theorem reject_alg (s : State) :
    (reject s).alg = s.alg := rfl
@[simp] theorem reject_ie (s : State) :
    (reject s).ie = s.ie := rfl
@[simp] theorem reject_done (s : State) :
    (reject s).done = s.done := rfl
@[simp] theorem reject_rejected (s : State) :
    (reject s).rejected = true := rfl
@[simp] theorem reject_err (s : State) :
    (reject s).err = s.err := rfl
@[simp] theorem reject_inLen (s : State) :
    (reject s).inLen = s.inLen := rfl
@[simp] theorem reject_outLen (s : State) :
    (reject s).outLen = s.outLen := rfl
@[simp] theorem reject_inBuf (s : State) :
    (reject s).inBuf = s.inBuf := rfl
@[simp] theorem reject_outBuf (s : State) :
    (reject s).outBuf = s.outBuf := rfl
@[simp] theorem reject_phase (s : State) :
    (reject s).phase = s.phase := rfl
@[simp] theorem reject_eng (s : State) :
    (reject s).eng = s.eng := rfl
@[simp] theorem reject_busData (s : State) :
    (reject s).busData = s.busData := rfl
@[simp] theorem reject_hostQueue (s : State) :
    (reject s).hostQueue = s.hostQueue := rfl
@[simp] theorem reject_inEpoch (s : State) :
    (reject s).inEpoch = s.inEpoch := rfl
@[simp] theorem reject_outEpoch (s : State) :
    (reject s).outEpoch = s.outEpoch := rfl
@[simp] theorem reject_draws (s : State) :
    (reject s).draws = s.draws := rfl

/-! ### latch (40_commands.md R137) -/

@[simp] theorem latch_caps (s : State) :
    (latch s).caps = s.caps := rfl
@[simp] theorem latch_mode (s : State) :
    (latch s).mode = s.mode := rfl
@[simp] theorem latch_alg (s : State) :
    (latch s).alg = s.alg := rfl
@[simp] theorem latch_ie (s : State) :
    (latch s).ie = s.ie := rfl
@[simp] theorem latch_done (s : State) :
    (latch s).done = false := rfl
@[simp] theorem latch_rejected (s : State) :
    (latch s).rejected = s.rejected := rfl
@[simp] theorem latch_err (s : State) :
    (latch s).err = .none := rfl
@[simp] theorem latch_inLen (s : State) :
    (latch s).inLen = s.inLen := rfl
@[simp] theorem latch_outLen (s : State) :
    (latch s).outLen = 0 := rfl
@[simp] theorem latch_inBuf (s : State) :
    (latch s).inBuf = s.inBuf := rfl
@[simp] theorem latch_outBuf (s : State) :
    (latch s).outBuf = s.outBuf := rfl
@[simp] theorem latch_phase (s : State) :
    (latch s).phase = s.phase := rfl
@[simp] theorem latch_eng (s : State) :
    (latch s).eng = { s.eng with
      cmdAlg := s.alg, cmdMode := s.mode, inLenL := s.inLen.toNat, bw := BitWriter.empty, outPos := 0 } := rfl
@[simp] theorem latch_busData (s : State) :
    (latch s).busData = s.busData := rfl
@[simp] theorem latch_hostQueue (s : State) :
    (latch s).hostQueue = s.hostQueue := rfl
@[simp] theorem latch_inEpoch (s : State) :
    (latch s).inEpoch = s.inEpoch := rfl
@[simp] theorem latch_outEpoch (s : State) :
    (latch s).outEpoch = s.outEpoch := rfl
@[simp] theorem latch_draws (s : State) :
    (latch s).draws = s.draws := rfl

/-! ### lzeInit (42_lzw_encoder.md R174) -/

@[simp] theorem lzeInit_caps (s : State) :
    (lzeInit s).caps = s.caps := rfl
@[simp] theorem lzeInit_mode (s : State) :
    (lzeInit s).mode = s.mode := rfl
@[simp] theorem lzeInit_alg (s : State) :
    (lzeInit s).alg = s.alg := rfl
@[simp] theorem lzeInit_ie (s : State) :
    (lzeInit s).ie = s.ie := rfl
@[simp] theorem lzeInit_done (s : State) :
    (lzeInit s).done = s.done := rfl
@[simp] theorem lzeInit_rejected (s : State) :
    (lzeInit s).rejected = s.rejected := rfl
@[simp] theorem lzeInit_err (s : State) :
    (lzeInit s).err = s.err := rfl
@[simp] theorem lzeInit_inLen (s : State) :
    (lzeInit s).inLen = s.inLen := rfl
@[simp] theorem lzeInit_outLen (s : State) :
    (lzeInit s).outLen = s.outLen := rfl
@[simp] theorem lzeInit_inBuf (s : State) :
    (lzeInit s).inBuf = s.inBuf := rfl
@[simp] theorem lzeInit_outBuf (s : State) :
    (lzeInit s).outBuf = s.outBuf := rfl
@[simp] theorem lzeInit_phase (s : State) :
    (lzeInit s).phase = .lzeScan := rfl
@[simp] theorem lzeInit_eng (s : State) :
    (lzeInit s).eng = { s.eng with lze := s.eng.lze.init, inPos := 0 } := rfl
@[simp] theorem lzeInit_busData (s : State) :
    (lzeInit s).busData = s.busData := rfl
@[simp] theorem lzeInit_hostQueue (s : State) :
    (lzeInit s).hostQueue = s.hostQueue := rfl
@[simp] theorem lzeInit_inEpoch (s : State) :
    (lzeInit s).inEpoch = s.inEpoch := rfl
@[simp] theorem lzeInit_outEpoch (s : State) :
    (lzeInit s).outEpoch = s.outEpoch := rfl
@[simp] theorem lzeInit_draws (s : State) :
    (lzeInit s).draws = s.draws := rfl

/-! ### lzdInit (43_lzw_decoder.md R201) -/

@[simp] theorem lzdInit_caps (s : State) :
    (lzdInit s).caps = s.caps := rfl
@[simp] theorem lzdInit_mode (s : State) :
    (lzdInit s).mode = s.mode := rfl
@[simp] theorem lzdInit_alg (s : State) :
    (lzdInit s).alg = s.alg := rfl
@[simp] theorem lzdInit_ie (s : State) :
    (lzdInit s).ie = s.ie := rfl
@[simp] theorem lzdInit_done (s : State) :
    (lzdInit s).done = s.done := rfl
@[simp] theorem lzdInit_rejected (s : State) :
    (lzdInit s).rejected = s.rejected := rfl
@[simp] theorem lzdInit_err (s : State) :
    (lzdInit s).err = s.err := rfl
@[simp] theorem lzdInit_inLen (s : State) :
    (lzdInit s).inLen = s.inLen := rfl
@[simp] theorem lzdInit_outLen (s : State) :
    (lzdInit s).outLen = s.outLen := rfl
@[simp] theorem lzdInit_inBuf (s : State) :
    (lzdInit s).inBuf = s.inBuf := rfl
@[simp] theorem lzdInit_outBuf (s : State) :
    (lzdInit s).outBuf = s.outBuf := rfl
@[simp] theorem lzdInit_phase (s : State) :
    (lzdInit s).phase = .lzdLoop := rfl
@[simp] theorem lzdInit_eng (s : State) :
    (lzdInit s).eng = { s.eng with lzd := s.eng.lzd.init, brPos := 0 } := rfl
@[simp] theorem lzdInit_busData (s : State) :
    (lzdInit s).busData = s.busData := rfl
@[simp] theorem lzdInit_hostQueue (s : State) :
    (lzdInit s).hostQueue = s.hostQueue := rfl
@[simp] theorem lzdInit_inEpoch (s : State) :
    (lzdInit s).inEpoch = s.inEpoch := rfl
@[simp] theorem lzdInit_outEpoch (s : State) :
    (lzdInit s).outEpoch = s.outEpoch := rfl
@[simp] theorem lzdInit_draws (s : State) :
    (lzdInit s).draws = s.draws := rfl

/-! ### hueInit (44_huffman_encoder.md R230) -/

@[simp] theorem hueInit_caps (s : State) :
    (hueInit s).caps = s.caps := rfl
@[simp] theorem hueInit_mode (s : State) :
    (hueInit s).mode = s.mode := rfl
@[simp] theorem hueInit_alg (s : State) :
    (hueInit s).alg = s.alg := rfl
@[simp] theorem hueInit_ie (s : State) :
    (hueInit s).ie = s.ie := rfl
@[simp] theorem hueInit_done (s : State) :
    (hueInit s).done = s.done := rfl
@[simp] theorem hueInit_rejected (s : State) :
    (hueInit s).rejected = s.rejected := rfl
@[simp] theorem hueInit_err (s : State) :
    (hueInit s).err = s.err := rfl
@[simp] theorem hueInit_inLen (s : State) :
    (hueInit s).inLen = s.inLen := rfl
@[simp] theorem hueInit_outLen (s : State) :
    (hueInit s).outLen = s.outLen := rfl
@[simp] theorem hueInit_inBuf (s : State) :
    (hueInit s).inBuf = s.inBuf := rfl
@[simp] theorem hueInit_outBuf (s : State) :
    (hueInit s).outBuf = s.outBuf := rfl
@[simp] theorem hueInit_phase (s : State) :
    (hueInit s).phase = .hueCount := rfl
@[simp] theorem hueInit_eng (s : State) :
    (hueInit s).eng = { s.eng with inPos := 0, huf := { s.eng.huf with freq := clearFreq } } := rfl
@[simp] theorem hueInit_busData (s : State) :
    (hueInit s).busData = s.busData := rfl
@[simp] theorem hueInit_hostQueue (s : State) :
    (hueInit s).hostQueue = s.hostQueue := rfl
@[simp] theorem hueInit_inEpoch (s : State) :
    (hueInit s).inEpoch = s.inEpoch := rfl
@[simp] theorem hueInit_outEpoch (s : State) :
    (hueInit s).outEpoch = s.outEpoch := rfl
@[simp] theorem hueInit_draws (s : State) :
    (hueInit s).draws = s.draws := rfl

/-! ### hudInit (40_commands.md R137) -/

@[simp] theorem hudInit_caps (s : State) :
    (hudInit s).caps = s.caps := rfl
@[simp] theorem hudInit_mode (s : State) :
    (hudInit s).mode = s.mode := rfl
@[simp] theorem hudInit_alg (s : State) :
    (hudInit s).alg = s.alg := rfl
@[simp] theorem hudInit_ie (s : State) :
    (hudInit s).ie = s.ie := rfl
@[simp] theorem hudInit_done (s : State) :
    (hudInit s).done = s.done := rfl
@[simp] theorem hudInit_rejected (s : State) :
    (hudInit s).rejected = s.rejected := rfl
@[simp] theorem hudInit_err (s : State) :
    (hudInit s).err = s.err := rfl
@[simp] theorem hudInit_inLen (s : State) :
    (hudInit s).inLen = s.inLen := rfl
@[simp] theorem hudInit_outLen (s : State) :
    (hudInit s).outLen = s.outLen := rfl
@[simp] theorem hudInit_inBuf (s : State) :
    (hudInit s).inBuf = s.inBuf := rfl
@[simp] theorem hudInit_outBuf (s : State) :
    (hudInit s).outBuf = s.outBuf := rfl
@[simp] theorem hudInit_phase (s : State) :
    (hudInit s).phase = .hudHeader := rfl
@[simp] theorem hudInit_eng (s : State) :
    (hudInit s).eng = s.eng := rfl
@[simp] theorem hudInit_busData (s : State) :
    (hudInit s).busData = s.busData := rfl
@[simp] theorem hudInit_hostQueue (s : State) :
    (hudInit s).hostQueue = s.hostQueue := rfl
@[simp] theorem hudInit_inEpoch (s : State) :
    (hudInit s).inEpoch = s.inEpoch := rfl
@[simp] theorem hudInit_outEpoch (s : State) :
    (hudInit s).outEpoch = s.outEpoch := rfl
@[simp] theorem hudInit_draws (s : State) :
    (hudInit s).draws = s.draws := rfl

/-! ### hardReset (70_reset_and_hazards.md R330) -/

@[simp] theorem hardReset_caps (s : State) :
    (hardReset s).caps = s.caps := rfl
@[simp] theorem hardReset_mode (s : State) :
    (hardReset s).mode = false := rfl
@[simp] theorem hardReset_alg (s : State) :
    (hardReset s).alg = 0 := rfl
@[simp] theorem hardReset_ie (s : State) :
    (hardReset s).ie = false := rfl
@[simp] theorem hardReset_done (s : State) :
    (hardReset s).done = false := rfl
@[simp] theorem hardReset_rejected (s : State) :
    (hardReset s).rejected = false := rfl
@[simp] theorem hardReset_err (s : State) :
    (hardReset s).err = .none := rfl
@[simp] theorem hardReset_inLen (s : State) :
    (hardReset s).inLen = 0 := rfl
@[simp] theorem hardReset_outLen (s : State) :
    (hardReset s).outLen = 0 := rfl
@[simp] theorem hardReset_inBuf (s : State) :
    (hardReset s).inBuf = [] := rfl
@[simp] theorem hardReset_outBuf (s : State) :
    (hardReset s).outBuf = [] := rfl
@[simp] theorem hardReset_phase (s : State) :
    (hardReset s).phase = .idle := rfl
@[simp] theorem hardReset_eng (s : State) :
    (hardReset s).eng = Config.freeEngine s.draws := rfl
@[simp] theorem hardReset_busData (s : State) :
    (hardReset s).busData = s.busData := rfl
@[simp] theorem hardReset_hostQueue (s : State) :
    (hardReset s).hostQueue = s.hostQueue := rfl
@[simp] theorem hardReset_inEpoch (s : State) :
    (hardReset s).inEpoch = s.inEpoch + 1 := rfl
@[simp] theorem hardReset_outEpoch (s : State) :
    (hardReset s).outEpoch = s.outEpoch + 1 := rfl
@[simp] theorem hardReset_draws (s : State) :
    (hardReset s).draws = s.draws + 1 := rfl

/-! ### The conditional updates -/

theorem busy_eq (s : State) : s.busy = (s.phase != .idle) := rfl

@[simp] theorem busy_eq_false (s : State) : s.busy = false ↔ s.phase = .idle := by
  simp [State.busy]

@[simp] theorem busy_eq_true (s : State) : s.busy = true ↔ s.phase ≠ .idle := by
  simp [State.busy]

theorem writeInLen_idle {s : State} (h : s.phase = .idle) (v : Word) :
    s.writeInLen v = { s with inLen := v } := by
  simp [State.writeInLen, State.busy, h]

theorem writeInLen_busy {s : State} (h : s.phase ≠ .idle) (v : Word) : s.writeInLen v = s := by
  simp [State.writeInLen, State.busy, h]

theorem hostWriteIn_idle {s : State} (h : s.phase = .idle) {i : Nat} (hi : i < s.caps.inCap) (b : Byte) :
    s.hostWriteIn i b = { s with inBuf := s.inBuf.write i b } := by
  simp [State.hostWriteIn, State.busy, h, hi]

theorem hostWriteIn_busy {s : State} (h : s.phase ≠ .idle) (i : Nat) (b : Byte) : s.hostWriteIn i b = s := by
  simp [State.hostWriteIn, State.busy, h]

theorem hostWriteIn_out_of_range {s : State} {i : Nat} (hi : s.caps.inCap ≤ i) (b : Byte) :
    s.hostWriteIn i b = s := by
  simp [State.hostWriteIn, Nat.not_lt.mpr hi]

/-- `start()` either refuses or latches the command and selects its engine. -/
theorem start_refused {s : State} (h : s.startRefused = true) : start s = illegal s := by simp [start, h]

theorem start_accepted {s : State} (h : s.startRefused = false) : start s = engineStart (latch s) := by
  simp [start, h]

/-- What a CTRL write with START = 1 does (40_commands.md R130). -/
theorem ctrlStartWrite_cases (m : Bool) (a : BitVec 2) (i : Bool) (s : State) :
    (s.phase ≠ .idle ∧ ctrlStartWrite m a i s = reject (s.storeCtrl m a i)) ∨
    (s.phase = .idle ∧ (s.storeCtrl m a i).startRefused = true ∧
      ctrlStartWrite m a i s = illegal (s.storeCtrl m a i)) ∨
    (s.phase = .idle ∧ (s.storeCtrl m a i).startRefused = false ∧
      ctrlStartWrite m a i s = engineStart (latch (s.storeCtrl m a i))) := by
  by_cases hp : s.phase = .idle
  · cases hr : (s.storeCtrl m a i).startRefused <;>
      simp [ctrlStartWrite, State.busy, hp, hr, start]
  · simp [ctrlStartWrite, State.busy, hp]

/-- The four engines a latched command may select. -/
theorem engineStart_cases (s : State) :
    (s.eng.cmdAlg.getLsbD 0 = false ∧ s.eng.cmdMode = false ∧ engineStart s = lzeInit s) ∨
    (s.eng.cmdAlg.getLsbD 0 = false ∧ s.eng.cmdMode = true ∧ engineStart s = lzdInit s) ∨
    (s.eng.cmdAlg.getLsbD 0 = true ∧ s.eng.cmdMode = false ∧ engineStart s = hueInit s) ∨
    (s.eng.cmdAlg.getLsbD 0 = true ∧ s.eng.cmdMode = true ∧ engineStart s = hudInit s) := by
  unfold engineStart
  cases s.eng.cmdAlg.getLsbD 0 <;> cases s.eng.cmdMode <;> simp

end Sys2Proof.Machine
end

