-- ==== Sys2Proof/Laws/Ops.lean ====
section
/-! SUPPORT. What the shared operations can do: output into OUT with its capacity check, the error entry, the ends of a
command. Provers cite these instead of unfolding the operations. -/

namespace Sys2Proof.Machine

open Sys2Proof

/-! ### A run of bytes written at rising indices -/

/-- `bs` written at `a`, `a + 1`, … -/
def Memory.writeRun (m : Memory) (a : Nat) : List Byte → Memory
  | [] => m
  | b :: bs => Memory.writeRun (m.write a b) (a + 1) bs

@[simp] theorem Memory.writeRun_nil (m : Memory) (a : Nat) : m.writeRun a [] = m := rfl

theorem Memory.writeRun_cons (m : Memory) (a : Nat) (b : Byte) (bs : List Byte) :
    m.writeRun a (b :: bs) = (m.write a b).writeRun (a + 1) bs := rfl

theorem Memory.writeRun_append (m : Memory) (a : Nat) (bs cs : List Byte) :
    m.writeRun a (bs ++ cs) = (m.writeRun a bs).writeRun (a + bs.length) cs := by
  induction bs generalizing m a with
  | nil => simp
  | cons b bs ih => simp [Memory.writeRun_cons, ih, Nat.add_assoc, Nat.add_comm 1]

theorem Memory.read_writeRun_below (m : Memory) (bs : List Byte) {a k : Nat} (h : k < a) :
    (m.writeRun a bs).read k = m.read k := by
  induction bs generalizing m a with
  | nil => rfl
  | cons b bs ih =>
    rw [Memory.writeRun_cons, ih _ (by omega), Memory.read_write_other _ _ (by omega)]

/-- Every byte after a run of writes: the run's byte inside it, the old byte outside. -/
theorem Memory.read_writeRun (m : Memory) (a k : Nat) (bs : List Byte) :
    (m.writeRun a bs).read k = if h : a ≤ k ∧ k < a + bs.length then some (bs[k - a]) else m.read k := by
  induction bs generalizing m a with
  | nil => simp
  | cons b bs ih =>
    rw [Memory.writeRun_cons, ih]
    by_cases h1 : k = a
    · subst h1; simp
    · by_cases h2 : a + 1 ≤ k ∧ k < a + 1 + bs.length
      · have h3 : a ≤ k ∧ k < a + (b :: bs).length := by simp; omega
        rw [dif_pos h2, dif_pos h3]
        have : k - a = (k - (a + 1)) + 1 := by omega
        simp [this]
      · have h3 : ¬ (a ≤ k ∧ k < a + (b :: bs).length) := by simp; omega
        rw [dif_neg h2, dif_neg h3, Memory.read_write_other _ _ h1]

theorem Memory.wf_writeRun {m : Memory} (a : Nat) (bs : List Byte) (h : m.wf = true) :
    (m.writeRun a bs).wf = true := by
  induction bs generalizing m a with
  | nil => exact h
  | cons b bs ih => exact ih _ (Memory.wf_write a b h)

theorem Memory.below_writeRun {m : Memory} {cap a : Nat} (bs : List Byte) (h : m.below cap = true)
    (ha : a + bs.length ≤ cap) : (m.writeRun a bs).below cap = true := by
  induction bs generalizing m a with
  | nil => exact h
  | cons b bs ih =>
    simp only [List.length_cons] at ha
    exact ih (Memory.below_write b h (by omega)) (by omega)

/-! ### Output -/

/-- `s` with the bytes `bs` put out. -/
def State.emit (bs : List Byte) (s : State) : State :=
  { s with outBuf := s.outBuf.writeRun s.eng.outPos bs, eng := { s.eng with outPos := s.eng.outPos + bs.length } }

@[simp] theorem emit_nil (s : State) : s.emit [] = s := by simp [State.emit]

/-- `OutByte` in full (41_bitpacker.md R151). -/
theorem putOut_eq (v : Byte) (s : State) :
    putOut v s = if s.eng.outPos = s.caps.outCap then .error .outputOverflow else .ok (s.emit [v]) := rfl

/-- A run of `OutByte` in full: it raises OUTPUT_OVERFLOW exactly when the bytes do not fit (40_commands.md R141). -/
theorem putOuts_eq (bs : List Byte) (s : State) (h : s.eng.outPos ≤ s.caps.outCap) :
    putOuts bs s = if s.eng.outPos + bs.length ≤ s.caps.outCap then .ok (s.emit bs) else .error .outputOverflow := by
  induction bs generalizing s with
  | nil => simp [putOuts, h]
  | cons v bs ih =>
    unfold putOuts
    rw [putOut_eq]
    by_cases hc : s.eng.outPos = s.caps.outCap
    · simp [hc]
    · rw [if_neg hc]
      simp only
      rw [ih _ (by simp [State.emit]; omega)]
      simp [State.emit, Memory.writeRun, Nat.add_assoc, Nat.add_comm 1]

theorem putOuts_ok {bs : List Byte} {s t : State} (h : s.eng.outPos ≤ s.caps.outCap) (e : putOuts bs s = .ok t) :
    s.eng.outPos + bs.length ≤ s.caps.outCap ∧ t = s.emit bs := by
  rw [putOuts_eq bs s h] at e
  split at e
  · exact ⟨‹_›, by simpa using e.symm⟩
  · cases e

theorem putOuts_error {bs : List Byte} {s : State} {e : ErrCode} (h : putOuts bs s = .error e) :
    e = .outputOverflow := by
  induction bs generalizing s with
  | nil => simp [putOuts] at h
  | cons v bs ih =>
    unfold putOuts at h
    rw [putOut_eq] at h
    split at h
    · exact ih h
    · rename_i e' he
      split at he
      · cases h; cases he; rfl
      · cases he

/-- `s` with the BitWriter's registers replaced. -/
def State.setBw (w : BitWriter) (s : State) : State := { s with eng := { s.eng with bw := w } }

theorem packOut_eq (r : BitWriter × List Byte) (s : State) : packOut r s = putOuts r.2 (s.setBw r.1) := rfl

/-- A BitWriter operation in full. -/
theorem packOut_full (r : BitWriter × List Byte) (s : State) (h : s.eng.outPos ≤ s.caps.outCap) :
    packOut r s = if s.eng.outPos + r.2.length ≤ s.caps.outCap then .ok ((s.setBw r.1).emit r.2)
      else .error .outputOverflow := by
  rw [packOut_eq, putOuts_eq _ _ (by simpa [State.setBw] using h)]
  rfl

theorem writeBits_full (ps : List (Nat × Nat)) (s : State) (h : s.eng.outPos ≤ s.caps.outCap) :
    writeBits ps s =
      if s.eng.outPos + (BitWriter.writeAll ps s.eng.bw).2.length ≤ s.caps.outCap then
        .ok ((s.setBw (BitWriter.writeAll ps s.eng.bw).1).emit (BitWriter.writeAll ps s.eng.bw).2)
      else .error .outputOverflow := packOut_full _ s h

theorem finishOut_full (s : State) (h : s.eng.outPos ≤ s.caps.outCap) :
    finishOut s =
      if s.eng.outPos + s.eng.bw.finish.2.length ≤ s.caps.outCap then
        .ok (complete ((s.setBw s.eng.bw.finish.1).emit s.eng.bw.finish.2))
      else .error .outputOverflow := by
  unfold finishOut
  rw [packOut_full _ s h]
  by_cases hc : s.eng.outPos + s.eng.bw.finish.2.length ≤ s.caps.outCap <;> simp [hc]

/-! ### Frames of the output operations -/

@[simp] theorem emit_caps (bs : List Byte) (s : State) : (s.emit bs).caps = s.caps := rfl
@[simp] theorem emit_mode (bs : List Byte) (s : State) : (s.emit bs).mode = s.mode := rfl
@[simp] theorem emit_alg (bs : List Byte) (s : State) : (s.emit bs).alg = s.alg := rfl
@[simp] theorem emit_ie (bs : List Byte) (s : State) : (s.emit bs).ie = s.ie := rfl
@[simp] theorem emit_done (bs : List Byte) (s : State) : (s.emit bs).done = s.done := rfl
@[simp] theorem emit_rejected (bs : List Byte) (s : State) : (s.emit bs).rejected = s.rejected := rfl
@[simp] theorem emit_err (bs : List Byte) (s : State) : (s.emit bs).err = s.err := rfl
@[simp] theorem emit_inLen (bs : List Byte) (s : State) : (s.emit bs).inLen = s.inLen := rfl
@[simp] theorem emit_outLen (bs : List Byte) (s : State) : (s.emit bs).outLen = s.outLen := rfl
@[simp] theorem emit_inBuf (bs : List Byte) (s : State) : (s.emit bs).inBuf = s.inBuf := rfl
@[simp] theorem emit_outBuf (bs : List Byte) (s : State) :
    (s.emit bs).outBuf = s.outBuf.writeRun s.eng.outPos bs := rfl
@[simp] theorem emit_phase (bs : List Byte) (s : State) : (s.emit bs).phase = s.phase := rfl
@[simp] theorem emit_eng (bs : List Byte) (s : State) :
    (s.emit bs).eng = { s.eng with outPos := s.eng.outPos + bs.length } := rfl
@[simp] theorem emit_busData (bs : List Byte) (s : State) : (s.emit bs).busData = s.busData := rfl
@[simp] theorem emit_hostQueue (bs : List Byte) (s : State) : (s.emit bs).hostQueue = s.hostQueue := rfl
@[simp] theorem emit_inEpoch (bs : List Byte) (s : State) : (s.emit bs).inEpoch = s.inEpoch := rfl
@[simp] theorem emit_outEpoch (bs : List Byte) (s : State) : (s.emit bs).outEpoch = s.outEpoch := rfl
@[simp] theorem emit_draws (bs : List Byte) (s : State) : (s.emit bs).draws = s.draws := rfl

/-- Every OUT byte after a run of output. -/
theorem outByte_emit (bs : List Byte) (s : State) (k : Nat) :
    (s.emit bs).outByte k =
      if h : s.eng.outPos ≤ k ∧ k < s.eng.outPos + bs.length then bs[k - s.eng.outPos] else s.outByte k := by
  simp only [State.outByte, emit_outBuf, emit_outEpoch, Memory.read_writeRun]
  split <;> rfl

/-- Output never touches IN. -/
@[simp] theorem inByte_emit (bs : List Byte) (s : State) : (s.emit bs).inByte = s.inByte := rfl

@[simp] theorem setBw_caps (w : BitWriter) (s : State) : (s.setBw w).caps = s.caps := rfl
@[simp] theorem setBw_mode (w : BitWriter) (s : State) : (s.setBw w).mode = s.mode := rfl
@[simp] theorem setBw_alg (w : BitWriter) (s : State) : (s.setBw w).alg = s.alg := rfl
@[simp] theorem setBw_ie (w : BitWriter) (s : State) : (s.setBw w).ie = s.ie := rfl
@[simp] theorem setBw_done (w : BitWriter) (s : State) : (s.setBw w).done = s.done := rfl
@[simp] theorem setBw_rejected (w : BitWriter) (s : State) : (s.setBw w).rejected = s.rejected := rfl
@[simp] theorem setBw_err (w : BitWriter) (s : State) : (s.setBw w).err = s.err := rfl
@[simp] theorem setBw_inLen (w : BitWriter) (s : State) : (s.setBw w).inLen = s.inLen := rfl
@[simp] theorem setBw_outLen (w : BitWriter) (s : State) : (s.setBw w).outLen = s.outLen := rfl
@[simp] theorem setBw_inBuf (w : BitWriter) (s : State) : (s.setBw w).inBuf = s.inBuf := rfl
@[simp] theorem setBw_outBuf (w : BitWriter) (s : State) : (s.setBw w).outBuf = s.outBuf := rfl
@[simp] theorem setBw_phase (w : BitWriter) (s : State) : (s.setBw w).phase = s.phase := rfl
@[simp] theorem setBw_eng (w : BitWriter) (s : State) : (s.setBw w).eng = { s.eng with bw := w } := rfl
@[simp] theorem setBw_busData (w : BitWriter) (s : State) : (s.setBw w).busData = s.busData := rfl
@[simp] theorem setBw_hostQueue (w : BitWriter) (s : State) : (s.setBw w).hostQueue = s.hostQueue := rfl
@[simp] theorem setBw_inEpoch (w : BitWriter) (s : State) : (s.setBw w).inEpoch = s.inEpoch := rfl
@[simp] theorem setBw_outEpoch (w : BitWriter) (s : State) : (s.setBw w).outEpoch = s.outEpoch := rfl
@[simp] theorem setBw_draws (w : BitWriter) (s : State) : (s.setBw w).draws = s.draws := rfl

@[simp] theorem settle_ok (s t : State) : settle s (.ok t) = t := rfl

@[simp] theorem settle_error (s : State) (e : ErrCode) : settle s (.error e) = raise e s := rfl

/-- A step's operations end in the step's state or in the error entry. -/
theorem settle_cases (s : State) (r : Except ErrCode State) :
    (∃ t, r = .ok t ∧ settle s r = t) ∨ (∃ e, r = .error e ∧ settle s r = raise e s) := by
  cases r with
  | ok t => exact .inl ⟨t, rfl, rfl⟩
  | error e => exact .inr ⟨e, rfl, rfl⟩

end Sys2Proof.Machine
end

