-- ==== Sys2Proof/Laws/CodeStep.lean ====
section
/-! SUPPORT. One code of the LZW stream (43_lzw_decoder.md R202 to R206): what running the instruction it decodes to does,
in terms of the code's entry. -/

namespace Sys2Proof.Machine

open Sys2Proof

/-- A resolved code has an entry of at least one byte, and is known or the next code (43_lzw_decoder.md R203). -/
theorem LzdRegs.resolve_some {r : LzdRegs} {c : Nat} {e : List Byte} (h : r.resolve c = some e) :
    e ≠ [] ∧ (r.Known c ∨ (c = r.next ∧ r.has = true)) := by
  unfold LzdRegs.resolve at h
  split at h
  · exact ⟨stringOf_ne_nil h, .inl ‹_›⟩
  · split at h
    · rename_i hk
      unfold LzdRegs.kwkwk at h
      split at h <;> cases h
      exact ⟨by simp, .inr ⟨hk.2, hk.1⟩⟩
    · cases h

/-- The instruction a code decodes to, run: the end of the stream, the error entry, or the code's entry accepted
(43_lzw_decoder.md R202, R203). -/
theorem exec_code {mcw : Nat} {s : State} (h : s.eng.lzd.Ok mcw) (c : Nat) :
    exec (decodeCode s.codeCtx c) s =
      if c = 256 then .next (complete s)
      else match s.eng.lzd.resolve c with
        | none => .next (raise .corruptStream s)
        | some e => lzdAccept c (some e) s := by
  have hu : decodeCode s.codeCtx c =
      if c = 256 then .lzwEos
      else if c ≤ 255 then .lzwLit (BitVec.ofNat 8 c)
      else if 257 ≤ c ∧ c < s.eng.lzd.next then .lzwRef c
      else if c = s.eng.lzd.next ∧ s.eng.lzd.has = true then .lzwKwkwk c
      else .lzwBad c := rfl
  by_cases h1 : c = 256
  · rw [hu, if_pos h1, if_pos h1]; rfl
  by_cases h2 : c ≤ 255
  · have hd : decodeCode s.codeCtx c = .lzwLit (BitVec.ofNat 8 c) := by rw [hu, if_neg h1, if_pos h2]
    have hr : s.eng.lzd.resolve c = some [BitVec.ofNat 8 c] := by
      rw [LzdRegs.resolve, if_pos (Or.inl h2), stringOf_literal (fun t ht => (h.code_mem ht).1) h2]
    have e : (BitVec.ofNat 8 c).toNat = c := by simp; omega
    have hx : exec (.lzwLit (BitVec.ofNat 8 c)) s =
      lzdAccept (BitVec.ofNat 8 c).toNat (some [BitVec.ofNat 8 c]) s := rfl
    rw [hd, hr, if_neg h1, hx, e]
  by_cases h3 : 257 ≤ c ∧ c < s.eng.lzd.next
  · have hd : decodeCode s.codeCtx c = .lzwRef c := by
      rw [hu, if_neg h1, if_neg h2, if_pos h3]
    obtain ⟨e, he⟩ := h.string (c := c) (.inr h3)
    have hr : s.eng.lzd.resolve c = some e := by rw [LzdRegs.resolve, if_pos (Or.inr h3), he]
    have hx : exec (.lzwRef c) s = lzdAccept c (stringOf s.eng.lzd.tab c) s := rfl
    rw [hd, hr, if_neg h1, hx, he]
  have h23 : ¬ (c ≤ 255 ∨ (257 ≤ c ∧ c < s.eng.lzd.next)) := fun hh => hh.elim h2 h3
  by_cases h4 : c = s.eng.lzd.next ∧ s.eng.lzd.has = true
  · have hd : decodeCode s.codeCtx c = .lzwKwkwk c := by
      rw [hu, if_neg h1, if_neg h2, if_neg h3, if_pos h4]
    obtain ⟨p, b, -, -, -, hk⟩ := h.kwkwk h4.2
    have hr : s.eng.lzd.resolve c = some (p ++ [b]) := by
      rw [LzdRegs.resolve, if_neg h23, if_pos ⟨h4.2, h4.1⟩, hk]
    have hx : exec (.lzwKwkwk c) s = lzdAccept c s.eng.lzd.kwkwk s := rfl
    rw [hd, hr, if_neg h1, hx, hk]
  · have hd : decodeCode s.codeCtx c = .lzwBad c := by
      rw [hu, if_neg h1, if_neg h2, if_neg h3, if_neg h4]
    have hr : s.eng.lzd.resolve c = none := by
      rw [LzdRegs.resolve, if_neg h23, if_neg fun hh => h4 ⟨hh.2, hh.1⟩]
    rw [hd, hr, if_neg h1]
    rfl

/-- Accepting a resolved code of the current width: its entry is put out and the registers move on, or it does not fit
(43_lzw_decoder.md R204 to R206). -/
theorem lzdAccept_full {s : State} (h : s.eng.lzd.Ok s.caps.maxCodeWidth) (hp : s.eng.outPos ≤ s.caps.outCap) {c : Nat}
    {e : List Byte} (he : s.eng.lzd.resolve c = some e) (hc : c < 2 ^ s.eng.lzd.width) :
    ∃ r, s.eng.lzd.accept s.caps.maxCodeWidth c e = some r ∧ r.Ok s.caps.maxCodeWidth ∧
      lzdAccept c (some e) s =
        .next (if s.eng.outPos + e.length ≤ s.caps.outCap then
          { s.emit e with eng := { (s.emit e).eng with lzd := r } } else raise .outputOverflow s) := by
  obtain ⟨h1, h2⟩ := LzdRegs.resolve_some he
  have hm : 2 ^ s.eng.lzd.width ≤ 2 ^ s.caps.maxCodeWidth := Nat.pow_le_pow_right (by norm_num) h.2.2.2.1
  obtain ⟨r, hr, hok⟩ := h.accept h1 h2 (by omega)
  refine ⟨r, hr, hok, ?_⟩
  simp only [lzdAccept]
  rw [putOuts_eq _ _ hp]
  by_cases hf : s.eng.outPos + e.length ≤ s.caps.outCap
  · rw [if_pos hf, if_pos hf]
    simp only [emit_eng, emit_caps, hr]
  · rw [if_neg hf, if_neg hf]

end Sys2Proof.Machine
end

