-- ==== Sys2Proof/Laws/Encoding.lean ====
section
/-! SUPPORT. Fields of addresses and words, and the bits of a value: what the encoder writes, the decoder reads. -/

namespace Sys2Proof

/-! ### Bits of a number -/

@[simp] theorem length_bitsOf (v w : Nat) : (bitsOf v w).length = w := by
  induction w with
  | zero => rfl
  | succ w ih => simp [bitsOf, ih]

theorem ofBits_foldl (bs : List Bool) (v : Nat) :
    bs.foldl (fun v b => 2 * v + b.toNat) v = v * 2 ^ bs.length + ofBits bs := by
  induction bs generalizing v with
  | nil => simp [ofBits]
  | cons b bs ih =>
    simp only [List.foldl_cons, List.length_cons, ofBits]
    rw [ih, ih (2 * 0 + b.toNat), pow_succ]
    ring

theorem ofBits_cons (b : Bool) (bs : List Bool) : ofBits (b :: bs) = b.toNat * 2 ^ bs.length + ofBits bs := by
  have := ofBits_foldl bs (2 * 0 + b.toNat)
  simpa [ofBits] using this

theorem ofBits_append (as bs : List Bool) : ofBits (as ++ bs) = ofBits as * 2 ^ bs.length + ofBits bs := by
  rw [ofBits, List.foldl_append, ofBits_foldl]; rfl

theorem ofBits_lt (bs : List Bool) : ofBits bs < 2 ^ bs.length := by
  induction bs with
  | nil => simp [ofBits]
  | cons b bs ih =>
    rw [ofBits_cons, List.length_cons, pow_succ]
    cases b <;> simp <;> omega

/-- The number whose bits are the low `w` bits of `v`. -/
theorem ofBits_bitsOf_mod (v w : Nat) : ofBits (bitsOf v w) = v % 2 ^ w := by
  induction w with
  | zero => simp [bitsOf, ofBits, Nat.mod_one]
  | succ w ih =>
    rw [bitsOf, ofBits_cons, ih, length_bitsOf, Nat.mod_pow_succ, Nat.toNat_testBit, Nat.add_comm, Nat.mul_comm]

/-- Writing a value in `w` bits and reading them back (30_encoding.md R99). -/
theorem ofBits_bitsOf {v w : Nat} (h : v < 2 ^ w) : ofBits (bitsOf v w) = v := by
  rw [ofBits_bitsOf_mod, Nat.mod_eq_of_lt h]

/-! ### Addresses -/

theorem getLsbD_addrOf (r : BitVec 2) (i : BitVec 30) (k : Nat) :
    (addrOf r i).getLsbD k = if k < 30 then i.getLsbD k else r.getLsbD (k - 30) :=
  BitVec.getLsbD_append

theorem getLsbD_regAddr (idx : BitVec 28) (k : Nat) :
    (regAddr idx).getLsbD k = if k < 2 then false else if k - 2 < 28 then idx.getLsbD (k - 2) else false := by
  have h1 : (regAddr idx).getLsbD k = if k < 2 then (0#2).getLsbD k else (0#2 ++ idx).getLsbD (k - 2) :=
    BitVec.getLsbD_append
  rw [h1, BitVec.getLsbD_append]
  simp

@[simp] theorem addrRegion_addrOf (r : BitVec 2) (i : BitVec 30) : addrRegion (addrOf r i) = r := by
  apply BitVec.eq_of_getLsbD_eq
  intro k hk
  simp [addrRegion, getLsbD_addrOf, hk]

@[simp] theorem addrIndex_addrOf (r : BitVec 2) (i : BitVec 30) : addrIndex (addrOf r i) = i := by
  apply BitVec.eq_of_getLsbD_eq
  intro k hk
  simp [addrIndex, getLsbD_addrOf, hk]

@[simp] theorem addrRegion_regAddr (idx : BitVec 28) : addrRegion (regAddr idx) = 0#2 := by
  apply BitVec.eq_of_getLsbD_eq
  intro k hk
  have h3 : ¬ 30 + k - 2 < 28 := by omega
  simp [addrRegion, getLsbD_regAddr, h3]

@[simp] theorem addrRegIndex_regAddr (idx : BitVec 28) : addrRegIndex (regAddr idx) = idx := by
  apply BitVec.eq_of_getLsbD_eq
  intro k hk
  have h2 : ¬ 2 + k < 2 := by omega
  simp only [addrRegIndex, BitVec.getLsbD_extractLsb', hk, getLsbD_regAddr, h2, Nat.add_sub_cancel_left]
  simp

/-! ### CTRL words -/

@[simp] theorem ctrlStart_ctrlWord (st m : Bool) (a : BitVec 2) (i : Bool) : ctrlStart (ctrlWord st m a i) = st := by
  revert st m a i; decide

@[simp] theorem ctrlMode_ctrlWord (st m : Bool) (a : BitVec 2) (i : Bool) : ctrlMode (ctrlWord st m a i) = m := by
  revert st m a i; decide

@[simp] theorem ctrlAlg_ctrlWord (st m : Bool) (a : BitVec 2) (i : Bool) : ctrlAlg (ctrlWord st m a i) = a := by
  revert st m a i; decide

@[simp] theorem ctrlIe_ctrlWord (st m : Bool) (a : BitVec 2) (i : Bool) : ctrlIe (ctrlWord st m a i) = i := by
  revert st m a i; decide

/-- A transaction that writes CTRL decodes by the written word (30_encoding.md R94). -/
@[simp] theorem decodeTxn_ctrlTxn (v : Word) : decodeTxn (ctrlTxn v) = decodeCtrl v := by
  simp [decodeTxn, ctrlTxn, addrRegion, addrRegIndex]

/-- A byte on the data lines D[7:0]. -/
@[simp] theorem byte_on_bus (b : Byte) : (b.setWidth 32).setWidth 8 = b := by
  simp

/-! ### Numbered words -/

@[simp] theorem txnOfNat_natOfTxn (t : Txn) : txnOfNat (natOfTxn t) = t := by
  obtain ⟨dir, a, d⟩ := t
  have ha := a.isLt
  have hd := d.isLt
  have h1 : (a.toNat * 2 ^ 32 + d.toNat) < 2 ^ 64 := by omega
  cases dir with
  | wr =>
    simp only [txnOfNat, natOfTxn, Nat.zero_add, Txn.mk.injEq]
    refine ⟨by rw [Nat.testBit_eq_false_of_lt h1]; simp, ?_, ?_⟩ <;>
      · apply BitVec.eq_of_toNat_eq; simp; omega
  | rd =>
    simp only [txnOfNat, natOfTxn, Nat.add_assoc, Txn.mk.injEq]
    refine ⟨?_, ?_, ?_⟩
    · rw [Nat.testBit_two_pow_add_eq, Nat.testBit_eq_false_of_lt h1]; simp
    all_goals apply BitVec.eq_of_toNat_eq; simp; omega

theorem natOfTxn_lt (t : Txn) : natOfTxn t < 2 ^ 65 := by
  obtain ⟨dir, a, d⟩ := t
  have ha := a.isLt
  have hd := d.isLt
  cases dir <;> simp [natOfTxn] <;> omega

end Sys2Proof
end

