-- ==== Sys2Proof/Laws/Frames.lean ====
section
/-! SUPPORT. What the sequencer's operations leave alone: the parameters, CTRL, REJECTED, IN_LEN, IN and the host's side
(10_state.md R43, 20_memory.md R62). One lemma per operation. -/

namespace Sys2Proof.Machine

open Sys2Proof

/-- Everything of the host's is the same in `t` as in `s`. -/
structure HostKept (s t : State) : Prop where
  caps : t.caps = s.caps
  mode : t.mode = s.mode
  alg : t.alg = s.alg
  ie : t.ie = s.ie
  rejected : t.rejected = s.rejected
  inLen : t.inLen = s.inLen
  inBuf : t.inBuf = s.inBuf
  inEpoch : t.inEpoch = s.inEpoch
  busData : t.busData = s.busData
  hostQueue : t.hostQueue = s.hostQueue

namespace HostKept

theorem refl (s : State) : HostKept s s := by constructor <;> rfl

theorem trans {s t u : State} (h : HostKept s t) (h' : HostKept t u) : HostKept s u := by
  obtain ⟨a, b, c, d, e, f, g, i, j, k⟩ := h
  obtain ⟨a', b', c', d', e', f', g', i', j', k'⟩ := h'
  exact ⟨a'.trans a, b'.trans b, c'.trans c, d'.trans d, e'.trans e, f'.trans f, g'.trans g, i'.trans i, j'.trans j,
    k'.trans k⟩

/-- The registers and buffers that are the sequencer's to write. -/
theorem of_update {s t : State} (p : Phase) (e : Engine) (h : HostKept { s with phase := p, eng := e } t) :
    HostKept s t := by
  obtain ⟨a, b, c, d, e, f, g, i, j, k⟩ := h
  exact ⟨a, b, c, d, e, f, g, i, j, k⟩

theorem update (s : State) (p : Phase) (e : Engine) : HostKept s { s with phase := p, eng := e } := by
  constructor <;> rfl

theorem raise (e : ErrCode) (s : State) : HostKept s (raise e s) := by constructor <;> rfl

theorem complete (s : State) : HostKept s (complete s) := by constructor <;> rfl

theorem putOuts {vs : List Byte} {s t : State} (h : putOuts vs s = .ok t) : HostKept s t := by
  induction vs generalizing s with
  | nil => cases h; exact refl _
  | cons v vs ih =>
    simp only [Machine.putOuts, putOut_eq] at h
    split at h
    · rename_i hp
      split at hp <;> cases hp
      exact trans (by constructor <;> rfl) (ih h)
    · cases h

theorem packOut {r : BitWriter × List Byte} {s t : State} (h : packOut r s = .ok t) : HostKept s t :=
  of_update s.phase { s.eng with bw := r.1 } (putOuts h)

theorem finishOut {s t : State} (h : finishOut s = .ok t) : HostKept s t := by
  unfold Machine.finishOut at h
  split at h <;> cases h
  rename_i hp
  exact (packOut hp).trans (complete _)

/-- A step whose operations keep the host's side keeps it whether or not they raise. -/
theorem settle {s : State} {r : Except ErrCode State} (h : ∀ t, r = .ok t → HostKept s t) :
    HostKept s (settle s r) := by
  cases r with
  | ok t => exact h t rfl
  | error e => exact raise e s

theorem lzdAccept {c : Nat} {e : Option (List Byte)} {s t : State} (h : lzdAccept c e s = .next t) :
    HostKept s t := by
  unfold Machine.lzdAccept at h
  split at h
  · cases h
  · split at h
    · cases h; exact raise _ _
    · rename_i hp
      split at h <;> cases h
      exact trans (putOuts hp) (by constructor <;> rfl)

/-- Every LZW code keeps the host's side. -/
theorem code {ctx : CodeCtx} {c : Nat} {s t : State} (h : exec (decodeCode ctx c) s = .next t) : HostKept s t := by
  unfold decodeCode at h
  split at h
  · cases h; exact complete _
  · split at h
    · exact lzdAccept (c := (BitVec.ofNat 8 c).toNat) (e := some [BitVec.ofNat 8 c]) h
    · split at h
      · exact lzdAccept (c := c) h
      · split at h
        · exact lzdAccept (c := c) h
        · cases h; exact raise _ _

theorem lzdLoop {s t : State} (h : lzdLoop s = .next t) : HostKept s t := by
  unfold Machine.lzdLoop at h
  split at h
  · cases h; exact complete _
  · rename_i hf
    unfold fetchCode at hf
    split at hf <;> cases hf
    exact of_update s.phase _ (code h)

theorem lzeScan (s : State) : HostKept s (lzeScan s) := by
  unfold Machine.lzeScan
  split
  · exact settle fun t h => of_update s.phase _ (packOut h)
  · constructor <;> rfl

theorem lzeFinish (s : State) : HostKept s (lzeFinish s) := by
  refine settle fun t h => ?_
  split at h
  · rename_i hw
    exact of_update s.phase _ ((packOut hw).trans (finishOut h))
  · cases h

theorem hueCount (s : State) : HostKept s (hueCount s) := by
  unfold Machine.hueCount
  split
  · constructor <;> rfl
  · split
    · exact complete _
    · constructor <;> rfl

theorem hueHeader (s : State) : HostKept s (hueHeader s) :=
  settle fun _ h => of_update .hueBuild _ (packOut h)

theorem hueBuild {s t : State} (h : hueBuild s = .next t) : HostKept s t := by
  unfold Machine.hueBuild at h
  split at h <;> cases h <;> constructor <;> rfl

theorem hueCodegen (s : State) : HostKept s (hueCodegen s) := by constructor <;> rfl

theorem huePayload (s : State) : HostKept s (huePayload s) := by
  refine settle fun t h => ?_
  split at h
  · exact of_update s.phase _ (packOut h)
  · exact finishOut h

theorem hudHeader (s : State) : HostKept s (hudHeader s) := by
  unfold Machine.hudHeader
  split
  · exact complete _
  · refine settle fun t h => ?_
    unfold hudHeaderRead at h
    split at h <;> cases h
    split <;> constructor <;> rfl

theorem hudBuild {s t : State} (h : hudBuild s = .next t) : HostKept s t := by
  unfold Machine.hudBuild at h
  split at h <;> cases h <;> constructor <;> rfl

theorem hudWalk (s : State) : HostKept s (hudWalk s) := by
  unfold Machine.hudWalk
  split
  · refine settle fun t h => ?_
    unfold hudWalkBit at h
    split at h
    · cases h
    · exact of_update s.phase _ (putOuts h)
  · exact complete _

end HostKept

end Sys2Proof.Machine
end

