-- ==== Sys2Proof/Laws/HuffmanTree.lean ====
section
/-! SUPPORT. The frequency table, the symbol list and the tree builder (44_huffman_encoder.md R230 to R237): what each
operation does, and that a merge keeps the build's invariant. -/

namespace Sys2Proof.Machine

open Sys2Proof

/-! ### FREQ and the symbol list -/

@[simp] theorem length_clearFreq : clearFreq.length = 256 := List.length_replicate ..

@[simp] theorem sum_clearFreq : clearFreq.sum = 0 :=
  List.sum_eq_zero fun _ h => List.eq_of_mem_replicate h

@[simp] theorem length_countByte (freq : List Nat) (b : Byte) : (countByte freq b).length = freq.length := by
  simp [countByte]

theorem sum_set_succ (l : List Nat) (i : Nat) (h : i < l.length) : (l.set i (l.getD i 0 + 1)).sum = l.sum + 1 := by
  induction l generalizing i with
  | nil => simp at h
  | cons a l ih =>
    cases i with
    | zero => simp; omega
    | succ i =>
      simp only [List.length_cons, Nat.add_lt_add_iff_right] at h
      have := ih i h
      simp only [List.set_cons_succ, List.sum_cons, List.getD_cons_succ]
      omega

/-- Counting a byte adds 1 to the total (44_huffman_encoder.md R230). -/
theorem sum_countByte {freq : List Nat} (h : freq.length = 256) (b : Byte) :
    (countByte freq b).sum = freq.sum + 1 := by
  have := b.isLt
  exact sum_set_succ freq _ (by omega)

/-- Counting a byte adds 1 to its counter and leaves the others alone. -/
theorem getD_countByte {freq : List Nat} (h : freq.length = 256) (b c : Byte) :
    (countByte freq b).getD c.toNat 0 = freq.getD c.toNat 0 + if c = b then 1 else 0 := by
  have hb := b.isLt
  simp only [countByte, List.getD_eq_getElem?_getD, List.getElem?_set]
  by_cases hc : c = b
  · subst hc; simp [h, hb]
  · have : b.toNat ≠ c.toNat := fun hh => hc (BitVec.eq_of_toNat_eq hh.symm)
    simp [this, hc]

/-- A byte and its count are on the symbol list exactly when the byte occurs (44_huffman_encoder.md R232). -/
theorem mem_symbols {freq : List Nat} {s : Byte} {f : Nat} :
    (s, f) ∈ symbols freq ↔ f = freq.getD s.toNat 0 ∧ 0 < f := by
  have hs := s.isLt
  simp only [symbols, List.mem_filterMap, List.mem_range, Option.ite_none_left_eq_some, Option.some.injEq,
    Prod.mk.injEq]
  constructor
  · rintro ⟨i, hi, h0, rfl, rfl⟩
    have : (BitVec.ofNat 8 i).toNat = i := by simp; omega
    rw [this]
    exact ⟨rfl, Nat.pos_of_ne_zero h0⟩
  · rintro ⟨rfl, h0⟩
    exact ⟨s.toNat, hs, by omega, by simp, rfl⟩

theorem length_symbols_le (freq : List Nat) : (symbols freq).length ≤ 256 := by
  have := List.length_filterMap_le (fun i => if freq.getD i 0 = 0 then none
    else some (BitVec.ofNat 8 i, freq.getD i 0)) (List.range 256)
  simpa [symbols] using this

theorem sum_symbols_aux (freq : List Nat) (is : List Nat) :
    ((is.filterMap fun i => if freq.getD i 0 = 0 then none
      else some ((BitVec.ofNat 8 i : Byte), freq.getD i 0)).map Prod.snd).sum = (is.map fun i => freq.getD i 0).sum := by
  induction is with
  | nil => rfl
  | cons i is ih =>
    rw [List.filterMap_cons]
    split
    · rename_i h
      simp only [ite_eq_left_iff, reduceCtorEq, imp_false, not_not] at h
      rw [List.map_cons, List.sum_cons, ih, h, Nat.zero_add]
    · rename_i h
      simp only [Option.ite_none_left_eq_some, Option.some.injEq] at h
      obtain ⟨-, rfl⟩ := h
      rw [List.map_cons, List.map_cons, List.sum_cons, List.sum_cons, ih]

theorem map_getD_range (l : List Nat) : ((List.range l.length).map fun i => l.getD i 0) = l := by
  apply List.ext_getElem (by simp)
  intro i h1 h2
  simp [List.getD_eq_getElem?_getD, h2]

/-- The counts on the symbol list add up to the input's length (44_huffman_encoder.md R233). -/
theorem sum_symbols {freq : List Nat} (h : freq.length = 256) : ((symbols freq).map Prod.snd).sum = freq.sum := by
  have := sum_symbols_aux freq (List.range 256)
  rw [← h, map_getD_range, h] at this
  exact this

/-- The symbol list is strictly ascending (44_huffman_encoder.md R232). -/
theorem symbols_ascending (freq : List Nat) : ((symbols freq).map Prod.fst).Pairwise (· < ·) := by
  rw [List.pairwise_map]
  apply List.Pairwise.filterMap (R := fun i j => i < j ∧ j < 256) _ _ _
  · intro i j hij p hp q hq
    simp only [Option.ite_none_left_eq_some, Option.some.injEq] at hp hq
    obtain ⟨-, rfl⟩ := hp
    obtain ⟨-, rfl⟩ := hq
    rw [BitVec.lt_def]
    simp
    omega
  · rw [List.pairwise_iff_getElem]
    intro i j hi hj hij
    simp at hi hj ⊢
    omega

/-! ### Nodes -/

theorem nodeAt_append_lt {nodes : List Node} {i : Nat} (more : List Node) (h : i < nodes.length) :
    nodeAt (nodes ++ more) i = nodeAt nodes i := by
  simp [nodeAt, List.getElem?_append, h]

@[simp] theorem nodeAt_append_length (nodes : List Node) (n : Node) : nodeAt (nodes ++ [n]) nodes.length = n := by
  simp [nodeAt]

theorem nodeAt_eq_getElem {nodes : List Node} {i : Nat} (h : i < nodes.length) : nodeAt nodes i = nodes[i] := by
  simp [nodeAt, h]

/-- What a well-formed node is. -/
theorem nodeOk_cases {nodes : List Node} {i : Nat} (h : nodeOk nodes i = true) :
    (∃ s f, nodeAt nodes i = .leaf s f ∧ 0 < f) ∨
    (∃ l r f, nodeAt nodes i = .internal l r f ∧ l < i ∧ r < i ∧ l ≠ r ∧
      f = (nodeAt nodes l).weight + (nodeAt nodes r).weight) := by
  unfold nodeOk at h
  cases hn : nodeAt nodes i with
  | leaf s f => rw [hn] at h; exact .inl ⟨s, f, rfl, by simpa using h⟩
  | internal l r f => rw [hn] at h; exact .inr ⟨l, r, f, rfl, by simpa using h⟩

/-- A later node does not change an earlier one. -/
theorem nodeOk_append {nodes : List Node} {i : Nat} (n : Node) (hi : i < nodes.length) (h : nodeOk nodes i = true) :
    nodeOk (nodes ++ [n]) i = true := by
  rcases nodeOk_cases h with ⟨s, f, hn, hf⟩ | ⟨l, r, f, hn, hl, hr, hlr, hf⟩
  · simp [nodeOk, nodeAt_append_lt _ hi, hn, hf]
  · simp [nodeOk, nodeAt_append_lt _ hi, hn, hl, hr, hlr, hf, nodeAt_append_lt [n] (hl.trans hi),
      nodeAt_append_lt [n] (hr.trans hi)]

/-- A well-formed node occurs at least once. -/
theorem weight_pos {nodes : List Node} (h : ∀ i < nodes.length, nodeOk nodes i = true) {i : Nat}
    (hi : i < nodes.length) : 0 < (nodeAt nodes i).weight := by
  induction i using Nat.strong_induction_on with
  | _ i ih =>
    rcases nodeOk_cases (h i hi) with ⟨s, f, hn, hf⟩ | ⟨l, r, f, hn, hl, hr, hlr, hf⟩
    · simpa [hn, Node.weight] using hf
    · have := ih l hl (by omega)
      simp only [hn, Node.weight]
      omega

/-! ### PopMin -/

/-- The priority order is total on different nodes (44_huffman_encoder.md R235). -/
theorem before_iff (nodes : List Node) (a b : Nat) :
    before nodes a b = true ↔ (nodeAt nodes a).weight < (nodeAt nodes b).weight ∨
      ((nodeAt nodes a).weight = (nodeAt nodes b).weight ∧ a < b) := by
  simp [before]

theorem firstOfActive_mem (nodes : List Node) (m : Nat) (l : List Nat) : firstOfActive nodes m l ∈ m :: l := by
  induction l generalizing m with
  | nil => simp [firstOfActive]
  | cons a l ih =>
    unfold firstOfActive
    have := ih (if before nodes a m then a else m)
    simp only [List.mem_cons] at this ⊢
    rcases this with h | h
    · rw [h]; split <;> simp
    · exact .inr (.inr h)

theorem firstOfActive_least (nodes : List Node) (m : Nat) (l : List Nat) :
    ∀ b ∈ m :: l, b = firstOfActive nodes m l ∨ before nodes (firstOfActive nodes m l) b = true := by
  induction l generalizing m with
  | nil => intro b hb; left; simpa [firstOfActive] using hb
  | cons a l ih =>
    intro b hb
    have key := ih (if before nodes a m then a else m)
    unfold firstOfActive
    have hsel := key _ (by simp : (if before nodes a m = true then a else m) ∈ _)
    simp only [List.mem_cons] at hb
    rcases hb with rfl | rfl | hb
    · by_cases h : before nodes a b = true
      · simp only [h, if_true] at hsel ⊢
        rw [before_iff] at h
        rcases hsel with hs | hs
        · right; rw [← hs, before_iff]; exact h
        · right; rw [before_iff] at hs ⊢; omega
      · simp only [h] at hsel ⊢; exact hsel
    · by_cases h : before nodes b m = true
      · simp only [h, if_true] at hsel ⊢; exact hsel
      · simp only [h] at hsel ⊢
        rw [before_iff] at h
        by_cases hbm : b = m
        · subst hbm; exact hsel
        · rcases hsel with hs | hs
          · right; rw [before_iff]; simp only [Bool.false_eq_true, if_false] at hs ⊢; rw [← hs]; omega
          · right; rw [before_iff] at hs ⊢; simp only [Bool.false_eq_true, if_false] at hs ⊢; omega
    · exact key b (by simp [hb])

/-- PopMin on a set that is not empty (44_huffman_encoder.md R235). -/
theorem popMin_some {nodes : List Node} {active : List Nat} (h : active ≠ []) :
    ∃ a, popMin nodes active = some (a, active.erase a) ∧ a ∈ active := by
  obtain ⟨b, l, rfl⟩ := List.exists_cons_of_ne_nil h
  exact ⟨_, rfl, firstOfActive_mem nodes b l⟩

/-- What PopMin returns (44_huffman_encoder.md R235). -/
theorem popMin_spec {nodes : List Node} {active rest : List Nat} {a : Nat}
    (h : popMin nodes active = some (a, rest)) :
    a ∈ active ∧ rest = active.erase a ∧ ∀ b ∈ active, b = a ∨ before nodes a b = true := by
  match active, h with
  | b :: l, h =>
    simp only [popMin, Option.some.injEq, Prod.mk.injEq] at h
    obtain ⟨rfl, rfl⟩ := h
    exact ⟨firstOfActive_mem nodes b l, rfl, firstOfActive_least nodes b l⟩

/-- Taking one node out of ACTIVE takes its frequency out of the total. -/
theorem sum_erase (f : Nat → Nat) {l : List Nat} {a : Nat} (h : a ∈ l) :
    (l.map f).sum = f a + ((l.erase a).map f).sum := by
  have := ((List.perm_cons_erase h).map f).sum_eq
  simpa using this

/-! ### Building -/

theorem foldl_create (l : List (Byte × Nat)) (h : HufRegs) :
    l.foldl (fun g p => g.create (.leaf p.1 p.2)) h = { h with
      node := h.node ++ l.map fun p => .leaf p.1 p.2
      active := h.active ++ List.range' h.nodeCnt l.length
      nodeCnt := h.nodeCnt + l.length } := by
  induction l generalizing h with
  | nil => simp
  | cons p l ih =>
    rw [List.foldl_cons, ih]
    simp [HufRegs.create, List.range'_succ, Nat.add_assoc, Nat.add_comm 1]

/-- The leaves of a tree: leaf `j` is node `j` (44_huffman_encoder.md R234). -/
theorem leaves_eq (l : List (Byte × Nat)) (h : HufRegs) :
    h.leaves l = { h with
      node := l.map fun p => .leaf p.1 p.2
      active := List.range l.length
      nodeCnt := l.length } := by
  rw [HufRegs.leaves, foldl_create, List.range_eq_range']
  simp

/-- The leaves of a list of positive frequencies start a build (44_huffman_encoder.md R234). -/
theorem leaves_buildOk {l : List (Byte × Nat)} (h : HufRegs) (h0 : l ≠ []) (hl : l.length ≤ 256)
    (hp : ∀ p ∈ l, 0 < p.2) : (h.leaves l).BuildOk (l.map Prod.snd).sum := by
  have hn : ∀ i, (hi : i < l.length) → nodeAt (l.map fun p => Node.leaf p.1 p.2) i = .leaf l[i].1 l[i].2 := by
    intro i hi
    simp [nodeAt, hi]
  rw [leaves_eq]
  refine ⟨by simpa using h0, by simp, by simp; omega, List.pairwise_lt_range, by simp, ?_, ?_⟩
  · intro i hi
    simp only [List.length_map] at hi
    have := hp l[i] (List.getElem_mem hi)
    simp [nodeOk, hn i hi, this]
  · simp only
    congr 1
    apply List.ext_getElem (by simp)
    intro i h1 h2
    simp only [List.length_map, List.length_range] at h1
    simp [hn i h1, Node.weight]

/-- What a merge does, with the two nodes PopMin gives (44_huffman_encoder.md R236). -/
theorem merge_eq {h : HufRegs} {a b : Nat} {l l' : List Nat} (h1 : popMin h.node h.active = some (a, l))
    (h2 : popMin h.node l = some (b, l')) :
    h.merge = some { h with
      node := h.node ++ [.internal a b ((nodeAt h.node a).weight + (nodeAt h.node b).weight)]
      active := l' ++ [h.nodeCnt]
      nodeCnt := h.nodeCnt + 1 } := by
  simp only [HufRegs.merge, h1, h2]
  rfl

/-- A merge of a build of at least two active nodes keeps the build's invariant and leaves one active node less
(44_huffman_encoder.md R236, R245). -/
theorem merge_buildOk {total : Nat} {h : HufRegs} (hk : h.BuildOk total) (h2 : 2 ≤ h.active.length) :
    ∃ g, h.merge = some g ∧ g.BuildOk total ∧ g.active.length + 1 = h.active.length ∧ g.freq = h.freq ∧
      g.node.length = h.node.length + 1 := by
  obtain ⟨k1, k2, k3, k4, k5, k6, k7⟩ := hk
  obtain ⟨a, ha, ham⟩ := popMin_some (nodes := h.node) k1
  have hl1 : (h.active.erase a).length = h.active.length - 1 := List.length_erase_of_mem ham
  have hne : h.active.erase a ≠ [] := by
    intro hh
    rw [hh] at hl1
    simp at hl1
    omega
  obtain ⟨b, hb, hbm⟩ := popMin_some (nodes := h.node) hne
  have hl2 : ((h.active.erase a).erase b).length = (h.active.erase a).length - 1 := List.length_erase_of_mem hbm
  have hbm' : b ∈ h.active := List.mem_of_mem_erase hbm
  have hnd : h.active.Nodup := k4.imp (fun hh => Nat.ne_of_lt hh)
  have hab : a ≠ b := by
    rintro rfl
    exact (hnd.not_mem_erase) hbm
  have hsub : ((h.active.erase a).erase b).Sublist h.active :=
    (List.erase_sublist).trans (List.erase_sublist)
  have hlt : ∀ i ∈ (h.active.erase a).erase b, i < h.nodeCnt := fun i hi => k5 i (hsub.subset hi)
  refine ⟨_, merge_eq ha hb, ⟨by simp, by simp [k2], ?_, ?_, ?_, ?_, ?_⟩, ?_, rfl, by simp⟩
  · simp only [List.length_append, List.length_singleton]
    omega
  · simp only [List.pairwise_append, List.pairwise_singleton, List.mem_singleton, true_and]
    exact ⟨k4.sublist hsub, fun i hi j hj => by rw [hj]; exact hlt i hi⟩
  · intro i hi
    simp only [List.mem_append, List.mem_singleton] at hi
    rcases hi with hi | rfl
    · exact (hlt i hi).trans (Nat.lt_succ_self _)
    · exact Nat.lt_succ_self _
  · intro i hi
    simp only [List.length_append, List.length_singleton] at hi
    by_cases hi' : i < h.node.length
    · exact nodeOk_append _ hi' (k6 i hi')
    · obtain rfl : i = h.node.length := by omega
      have ha' := k5 a ham
      have hb' := k5 b hbm'
      rw [k2] at ha' hb'
      simp [nodeOk, ha', hb', hab, nodeAt_append_lt]
  · have e : ∀ i ∈ (h.active.erase a).erase b, (nodeAt (h.node ++ [.internal a b
        ((nodeAt h.node a).weight + (nodeAt h.node b).weight)]) i).weight = (nodeAt h.node i).weight := by
      intro i hi
      rw [nodeAt_append_lt _ (by rw [← k2]; exact hlt i hi)]
    simp only [List.map_append, List.sum_append, List.map_congr_left e, List.map_singleton, List.sum_singleton]
    rw [k2, nodeAt_append_length, ← k7, sum_erase _ ham, sum_erase _ hbm]
    simp only [Node.weight]
    omega
  · simp only [List.length_append, List.length_singleton]
    omega

/-- One turn of the merge loop: the root when one node is left, else a merge (44_huffman_encoder.md R237). -/
theorem buildStep_cases {total : Nat} {h : HufRegs} (hk : h.BuildOk total) :
    (∃ r, h.active = [r] ∧ h.buildStep = some (.inr { h with root := r }) ∧
      ({ h with root := r } : HufRegs).TreeOk total) ∨
    (∃ g, h.buildStep = some (.inl g) ∧ h.merge = some g ∧ g.BuildOk total ∧
      g.active.length + 1 = h.active.length ∧ g.freq = h.freq ∧ g.node.length = h.node.length + 1) := by
  match ha : h.active with
  | [] => exact absurd ha hk.1
  | [r] =>
    obtain ⟨k1, k2, k3, k4, k5, k6, k7⟩ := hk
    refine .inl ⟨r, rfl, by simp [HufRegs.buildStep, ha], k2, ?_, k5 r (by simp [ha]), k6, ?_⟩
    · simp [ha] at k3
      simp only
      omega
    · simpa [ha] using k7
  | a :: b :: l =>
    obtain ⟨g, h1, h2, h3, h4, h5⟩ := merge_buildOk hk (by simp [ha])
    exact .inr ⟨g, by simp [HufRegs.buildStep, ha, h1], h1, h2, by simpa [ha] using h3, h4, h5⟩

end Sys2Proof.Machine
end

