-- ==== Sys2Proof/Laws/Packer.lean ====
section
/-! SUPPORT. The BitWriter and the BitReader as functions on bit sequences: what is written is the concatenation of the
values' bits (41_bitpacker.md R154), and a read gives the number whose bits stand at the cursor (R156). -/

namespace Sys2Proof.Machine

open Sys2Proof

/-- The bits of a byte, bit 7 first (20_memory.md R66). -/
def byteBits (b : Byte) : List Bool := (List.range 8).map fun i => b.getLsbD (7 - i)

/-- The bits of a byte sequence. -/
def bytesBits (bs : List Byte) : List Bool := bs.flatMap byteBits

/-- The valid bits of the partial byte, first written first (10_state.md R31). -/
def BitWriter.pending (w : BitWriter) : List Bool := (List.range w.cnt.toNat).map fun i => w.buf.getLsbD (7 - i)

/-- The bits of the partial byte that are not valid are 0 (41_bitpacker.md R153). -/
def BitWriter.Ok (w : BitWriter) : Prop := ∀ i, i < 8 - w.cnt.toNat → w.buf.getLsbD i = false

@[simp] theorem length_byteBits (b : Byte) : (byteBits b).length = 8 := by simp [byteBits]

@[simp] theorem length_bytesBits (bs : List Byte) : (bytesBits bs).length = 8 * bs.length := by
  induction bs with
  | nil => rfl
  | cons b bs ih => simp only [bytesBits, List.flatMap_cons, List.length_append] at *; simp [ih]; ring

@[simp] theorem bytesBits_nil : bytesBits [] = [] := rfl

theorem bytesBits_cons (b : Byte) (bs : List Byte) : bytesBits (b :: bs) = byteBits b ++ bytesBits bs := rfl

theorem bytesBits_append (as bs : List Byte) : bytesBits (as ++ bs) = bytesBits as ++ bytesBits bs := by
  simp [bytesBits]

@[simp] theorem length_pending (w : BitWriter) : w.pending.length = w.cnt.toNat := by simp [BitWriter.pending]

@[simp] theorem pending_empty : BitWriter.empty.pending = [] := rfl

theorem ok_empty : BitWriter.empty.Ok := fun i _ => by simp [BitWriter.empty]

theorem getLsbD_setBitAt (buf : Byte) (i j : Nat) (b : Bool) (hj : j < 8) :
    (setBitAt buf i b).getLsbD j = if j = i then b else buf.getLsbD j := by
  have h1 : ((1#8 <<< i) : Byte).getLsbD j = decide (j = i) := by
    simp only [BitVec.getLsbD_shiftLeft, BitVec.getLsbD_one]
    by_cases h : j = i
    · subst h; simp [hj]
    · by_cases h' : j < i
      · simp [h, h']
      · have : j - i ≠ 0 := by omega
        simp [h, this]
  unfold setBitAt
  split
  · rename_i hb; subst hb
    rw [BitVec.getLsbD_or, h1]
    by_cases h : j = i <;> simp [h]
  · rename_i hb
    rw [BitVec.getLsbD_and, BitVec.getLsbD_not, h1]
    by_cases h : j = i <;> simp [h, hj, hb]

/-- One `PutBit`: the written bits grow by one bit. -/
theorem put_spec (w : BitWriter) (b : Bool) (h : w.Ok) :
    (w.put b).1.Ok ∧ w.pending ++ [b] = bytesBits (w.put b).2 ++ (w.put b).1.pending := by
  have hc := w.cnt.isLt
  unfold BitWriter.put
  by_cases h7 : w.cnt = 7#3
  · rw [if_pos h7]
    refine ⟨ok_empty, ?_⟩
    have h7' : w.cnt.toNat = 7 := by rw [h7]; rfl
    have he : BitWriter.empty.pending = [] := rfl
    simp only [bytesBits_cons, bytesBits_nil, he, List.append_nil, byteBits]
    simp only [BitWriter.pending, h7']
    rw [List.range_succ (n := 7), List.map_append]
    congr 1
    · apply List.map_congr_left
      intro i hi
      have hi := List.mem_range.mp hi
      rw [getLsbD_setBitAt _ _ _ _ (by omega)]
      rw [if_neg (by omega)]
    · rw [List.map_singleton, getLsbD_setBitAt _ _ _ _ (by omega), if_pos rfl]
  · rw [if_neg h7]
    have h7' : w.cnt.toNat < 7 := by
      have : w.cnt.toNat ≠ 7 := fun hh => h7 (BitVec.eq_of_toNat_eq (by simpa using hh))
      omega
    have hs : (w.cnt + 1).toNat = w.cnt.toNat + 1 := by
      rw [BitVec.toNat_add]; simp; omega
    constructor
    · intro i hi
      simp only [hs] at hi ⊢
      rw [getLsbD_setBitAt _ _ _ _ (by omega), if_neg (by omega)]
      exact h i (by omega)
    · simp only [bytesBits_nil, List.nil_append, BitWriter.pending, hs]
      rw [List.range_succ, List.map_append]
      congr 1
      · apply List.map_congr_left
        intro i hi
        have hi := List.mem_range.mp hi
        rw [getLsbD_setBitAt _ _ _ _ (by omega), if_neg (by omega)]
      · rw [List.map_singleton, getLsbD_setBitAt _ _ _ _ (by omega), if_pos rfl]

/-- A run of `PutBit`. -/
theorem putAll_spec (bs : List Bool) (w : BitWriter) (h : w.Ok) :
    (BitWriter.putAll bs w).1.Ok ∧
      w.pending ++ bs = bytesBits (BitWriter.putAll bs w).2 ++ (BitWriter.putAll bs w).1.pending := by
  induction bs generalizing w with
  | nil => exact ⟨h, by simp [BitWriter.putAll]⟩
  | cons b bs ih =>
    obtain ⟨h1, e1⟩ := put_spec w b h
    obtain ⟨h2, e2⟩ := ih _ h1
    refine ⟨h2, ?_⟩
    simp only [BitWriter.putAll, bytesBits_append, List.append_assoc, ← e2]
    rw [← List.append_assoc, ← e1]
    simp

/-- The bits of a sequence of (value, width) pairs (41_bitpacker.md R154). -/
def fieldBits (ps : List (Nat × Nat)) : List Bool := ps.flatMap fun p => bitsOf p.1 p.2

@[simp] theorem fieldBits_nil : fieldBits [] = [] := rfl

theorem fieldBits_cons (p : Nat × Nat) (ps : List (Nat × Nat)) :
    fieldBits (p :: ps) = bitsOf p.1 p.2 ++ fieldBits ps := rfl

theorem fieldBits_append (ps qs : List (Nat × Nat)) : fieldBits (ps ++ qs) = fieldBits ps ++ fieldBits qs := by
  simp [fieldBits]

theorem length_fieldBits (ps : List (Nat × Nat)) : (fieldBits ps).length = (ps.map Prod.snd).sum := by
  induction ps with
  | nil => rfl
  | cons p ps ih => simp [fieldBits_cons, ih]

/-- A run of `WriteBits`. -/
theorem writeAll_spec (ps : List (Nat × Nat)) (w : BitWriter) (h : w.Ok) :
    (BitWriter.writeAll ps w).1.Ok ∧
      w.pending ++ fieldBits ps = bytesBits (BitWriter.writeAll ps w).2 ++ (BitWriter.writeAll ps w).1.pending := by
  induction ps generalizing w with
  | nil => exact ⟨h, by simp [BitWriter.writeAll]⟩
  | cons p ps ih =>
    obtain ⟨h1, e1⟩ := putAll_spec (bitsOf p.1 p.2) w h
    obtain ⟨h2, e2⟩ := ih _ h1
    refine ⟨h2, ?_⟩
    simp only [BitWriter.writeAll, BitWriter.write, bytesBits_append, List.append_assoc, ← e2, fieldBits_cons] at *
    rw [← List.append_assoc, e1, List.append_assoc]

/-- Writing in two parts is writing the whole. -/
theorem writeAll_append (ps qs : List (Nat × Nat)) (w : BitWriter) :
    BitWriter.writeAll (ps ++ qs) w =
      ((BitWriter.writeAll qs (BitWriter.writeAll ps w).1).1,
        (BitWriter.writeAll ps w).2 ++ (BitWriter.writeAll qs (BitWriter.writeAll ps w).1).2) := by
  induction ps generalizing w with
  | nil => simp [BitWriter.writeAll]
  | cons p ps ih => simp [BitWriter.writeAll, ih]

/-- `Finish` fills the last byte with zero bits (41_bitpacker.md R153). -/
theorem finish_spec (w : BitWriter) (h : w.Ok) :
    bytesBits w.finish.2 = w.pending ++ List.replicate ((8 - w.cnt.toNat) % 8) false := by
  have hc := w.cnt.isLt
  unfold BitWriter.finish
  by_cases h0 : w.cnt = 0#3
  · have : w.cnt.toNat = 0 := by rw [h0]; rfl
    simp [h0, BitWriter.pending]
  · rw [if_neg h0]
    have h0' : w.cnt.toNat ≠ 0 := fun hh => h0 (BitVec.eq_of_toNat_eq (by simpa using hh))
    have hm : (8 - w.cnt.toNat) % 8 = 8 - w.cnt.toNat := Nat.mod_eq_of_lt (by omega)
    simp only [bytesBits_cons, bytesBits_nil, List.append_nil, hm]
    apply List.ext_getElem
    · simp; omega
    · intro i h1 h2
      simp only [length_byteBits] at h1
      rw [List.getElem_append]
      split
      · rename_i hi
        simp [byteBits, BitWriter.pending]
      · rename_i hi
        simp only [length_pending] at hi
        simp only [List.getElem_replicate, byteBits, List.getElem_map, List.getElem_range]
        exact h (7 - i) (by omega)

/-- The stream equation on bits: the packed stream is the values' bits and the zero padding (41_bitpacker.md R154). -/
theorem bytesBits_packed (ps : List (Nat × Nat)) :
    bytesBits (packed ps) =
      fieldBits ps ++ List.replicate ((8 - (fieldBits ps).length % 8) % 8) false := by
  obtain ⟨h1, e1⟩ := writeAll_spec ps BitWriter.empty ok_empty
  have e2 := finish_spec _ h1
  have hc := (BitWriter.writeAll ps BitWriter.empty).1.cnt.isLt
  have hl := congrArg List.length e1
  simp only [pending_empty, List.nil_append] at e1
  simp only [List.length_append, length_bytesBits, length_pending, pending_empty, List.length_nil] at hl
  rw [packed, bytesBits_append, e2, ← List.append_assoc, ← e1]
  congr 2
  have : (fieldBits ps).length % 8 = (BitWriter.writeAll ps BitWriter.empty).1.cnt.toNat := by omega
  rw [this]

/-- The length of a packed stream in bytes. -/
theorem length_packed (ps : List (Nat × Nat)) : (packed ps).length = ((fieldBits ps).length + 7) / 8 := by
  have h := congrArg List.length (bytesBits_packed ps)
  simp only [length_bytesBits, List.length_append, List.length_replicate] at h
  omega

/-! ### Reading -/

/-- The bit of a byte sequence at a position inside it. -/
theorem listBit_eq (x : List Byte) (p : Nat) (h : p < 8 * x.length) :
    listBit x p = (bytesBits x)[p]'(by simpa using h) := by
  induction x generalizing p with
  | nil => simp at h
  | cons b x ih =>
    have key : (bytesBits (b :: x))[p]'(by simpa using h) = (byteBits b ++ bytesBits x)[p]'(by simp at *; omega) := rfl
    rw [key, List.getElem_append]
    split
    · rename_i hp
      simp only [length_byteBits] at hp
      have h0 : p / 8 = 0 := by omega
      have h1 : p % 8 = p := by omega
      simp [listBit, streamBit, byteBits, h0, h1]
    · rename_i hp
      simp only [length_byteBits, not_lt] at hp
      simp only [List.length_cons] at h
      simp only [length_byteBits]
      rw [← ih (p - 8) (by omega)]
      have h0 : p / 8 = (p - 8) / 8 + 1 := by omega
      have h1 : p % 8 = (p - 8) % 8 := by omega
      simp [listBit, streamBit, h0, h1]

/-- `ReadBits`' loop: the bits at the cursor, most significant first (41_bitpacker.md R156). -/
theorem gatherBits_eq (bit : Nat → Bool) (w pos v : Nat) :
    gatherBits bit w pos v = v * 2 ^ w + ofBits ((List.range w).map fun t => bit (pos + t)) := by
  induction w generalizing pos v with
  | zero => simp [gatherBits, ofBits]
  | succ w ih =>
    rw [gatherBits, ih, List.range_succ_eq_map, List.map_cons, ofBits_cons, pow_succ]
    simp only [List.length_map, List.length_range, List.map_map, Nat.add_zero]
    have : ((fun t => bit (pos + t)) ∘ Nat.succ) = fun t => bit (pos + 1 + t) := by
      funext t; simp [Nat.add_assoc, Nat.add_comm 1]
    rw [this]
    ring

theorem gatherBits_lt (bit : Nat → Bool) (w pos : Nat) : gatherBits bit w pos 0 < 2 ^ w := by
  rw [gatherBits_eq]
  have := ofBits_lt ((List.range w).map fun t => bit (pos + t))
  simpa using this

/-- A read depends only on the bits it reads. -/
theorem gatherBits_congr {f g : Nat → Bool} {w pos : Nat} (v : Nat) (h : ∀ p, pos ≤ p → p < pos + w → f p = g p) :
    gatherBits f w pos v = gatherBits g w pos v := by
  rw [gatherBits_eq, gatherBits_eq]
  congr 2
  apply List.map_congr_left
  intro t ht
  have := List.mem_range.mp ht
  exact h _ (by omega) (by omega)

/-- `ReadBits` in full: either too few bits remain, or the value of the bits at the cursor, which moves past them. -/
theorem readBits_cases (bit : Nat → Bool) (total pos w : Nat) :
    (total - pos < w ∧ readBits bit total pos w = .error .unexpectedEof) ∨
    (w ≤ total - pos ∧ readBits bit total pos w = .ok (gatherBits bit w pos 0, pos + w)) := by
  by_cases h : total - pos < w
  · exact .inl ⟨h, by simp [readBits, h]⟩
  · exact .inr ⟨by omega, by simp [readBits, h]⟩

theorem readBits_ok {bit : Nat → Bool} {total pos w v p : Nat} (h : readBits bit total pos w = .ok (v, p)) :
    w ≤ total - pos ∧ p = pos + w ∧ v = gatherBits bit w pos 0 ∧ v < 2 ^ w := by
  rcases readBits_cases bit total pos w with ⟨_, e⟩ | ⟨hw, e⟩
  · rw [e] at h; cases h
  · rw [e] at h
    cases h
    exact ⟨hw, rfl, rfl, gatherBits_lt _ _ _⟩

end Sys2Proof.Machine
end

