-- ==== Sys2Proof/Laws/HuffmanHeader.lean ====
section
/-! SUPPORT. The Huffman decoder's header (45_huffman_decoder.md R261, R262) and walk (R265): what a read that raises
nothing has read, and which errors there are. -/

namespace Sys2Proof.Machine

open Sys2Proof

/-- What holds of a header read so far: the listed bytes rise strictly and stay below HUD_LAST, every frequency is
positive, HUD_SUM is their sum, and the cursor stands after them (45_huffman_decoder.md R261). -/
structure HeaderRead.Ok (total : Nat) (h : HeaderRead) : Prop where
  rising : (h.leaves.map Prod.fst).Pairwise (· < ·)
  below : ∀ p ∈ h.leaves, p.1.toNat < h.last
  freqs : ∀ p ∈ h.leaves, 0 < p.2 ∧ p.2 < 2 ^ 32
  sum : (h.leaves.map Prod.snd).sum = h.sum
  pos : h.pos = 16 + 40 * h.leaves.length
  inside : h.pos ≤ total

/-- One pair of the header that raises nothing (45_huffman_decoder.md R261). -/
theorem hudPair_ok {bit : Nat → Bool} {total : Nat} {h t : HeaderRead} (e : hudPair bit total h = .ok t) :
    ∃ s f, h.last ≤ s ∧ s < 256 ∧ 0 < f ∧ f < 2 ^ 32 ∧ h.pos + 40 ≤ total ∧
      s = gatherBits bit 8 h.pos 0 ∧ f = gatherBits bit 32 (h.pos + 8) 0 ∧
      t = { pos := h.pos + 40, last := s + 1, sum := h.sum + f, leaves := h.leaves ++ [(BitVec.ofNat 8 s, f)] } := by
  unfold hudPair at e
  split at e
  · cases e
  · rename_i s p h1
    obtain ⟨a1, rfl, a3, a4⟩ := readBits_ok h1
    split at e
    · cases e
    · rename_i h2
      split at e
      · cases e
      · rename_i f p' h3
        obtain ⟨b1, rfl, b3, b4⟩ := readBits_ok h3
        split at e
        · cases e
        · rename_i h4
          cases e
          refine ⟨s, f, by omega, a4, by omega, b4, by omega, a3, b3, ?_⟩
          simp [Nat.add_assoc]

/-- The errors of one pair. -/
theorem hudPair_error {bit : Nat → Bool} {total : Nat} {h : HeaderRead} {x : ErrCode}
    (e : hudPair bit total h = .error x) : x = .unexpectedEof ∨ x = .badHeader := by
  unfold hudPair at e
  split at e
  · rename_i h1
    rcases readBits_cases bit total h.pos 8 with ⟨-, h2⟩ | ⟨-, h2⟩ <;> rw [h2] at h1 <;> cases h1
    cases e; exact .inl rfl
  · rename_i s p h1
    split at e
    · cases e; exact .inr rfl
    · split at e
      · rename_i h3
        rcases readBits_cases bit total p 32 with ⟨-, h2⟩ | ⟨-, h2⟩ <;> rw [h2] at h3 <;> cases h3
        cases e; exact .inl rfl
      · split at e
        · cases e; exact .inr rfl
        · cases e

theorem HeaderRead.Ok.pair {bit : Nat → Bool} {total : Nat} {h t : HeaderRead} (hk : h.Ok total)
    (e : hudPair bit total h = .ok t) : t.Ok total ∧ t.leaves.length = h.leaves.length + 1 := by
  obtain ⟨s, f, h1, h2, h3, h4, h5, -, -, rfl⟩ := hudPair_ok e
  have hs : (BitVec.ofNat 8 s).toNat = s := by simp; omega
  refine ⟨⟨?_, ?_, ?_, ?_, ?_, h5⟩, by simp⟩
  · simp only [List.map_append, List.map_singleton, List.pairwise_append, List.pairwise_singleton,
      List.mem_singleton, true_and]
    refine ⟨hk.rising, fun a ha b hb => ?_⟩
    obtain ⟨p, hp, rfl⟩ := List.mem_map.mp ha
    have := hk.below p hp
    rw [hb, BitVec.lt_def, hs]
    omega
  · intro p hp
    simp only [List.mem_append, List.mem_singleton] at hp
    simp only
    rcases hp with hp | rfl
    · have := hk.below p hp; omega
    · simp only [hs]; omega
  · intro p hp
    simp only [List.mem_append, List.mem_singleton] at hp
    rcases hp with hp | rfl
    · exact hk.freqs p hp
    · exact ⟨h3, h4⟩
  · simp [hk.sum]
  · have := hk.pos
    simp only [List.length_append, List.length_singleton]
    omega

/-- The header's loop keeps what has been read in order (45_huffman_decoder.md R261). -/
theorem HeaderRead.Ok.pairs {bit : Nat → Bool} {total : Nat} {d : Nat} {h t : HeaderRead} (hk : h.Ok total)
    (e : hudPairs bit total d h = .ok t) : t.Ok total ∧ t.leaves.length = h.leaves.length + d := by
  induction d generalizing h with
  | zero => cases e; exact ⟨hk, rfl⟩
  | succ d ih =>
    unfold hudPairs at e
    split at e
    · cases e
    · rename_i g hg
      obtain ⟨h1, h2⟩ := hk.pair hg
      obtain ⟨h3, h4⟩ := ih h1 e
      exact ⟨h3, by omega⟩

theorem hudPairs_error {bit : Nat → Bool} {total d : Nat} {h : HeaderRead} {x : ErrCode}
    (e : hudPairs bit total d h = .error x) : x = .unexpectedEof ∨ x = .badHeader := by
  induction d generalizing h with
  | zero => cases e
  | succ d ih =>
    unfold hudPairs at e
    split at e
    · rename_i hg
      cases e
      exact hudPair_error hg
    · exact ih e

/-- A header that raises nothing (45_huffman_decoder.md R261, R262). -/
theorem readHeader_ok {bit : Nat → Bool} {total d n pos : Nat} {h : HeaderRead}
    (e : readHeader bit total = .ok (d, h, n, pos)) :
    d ≤ 256 ∧ h.leaves.length = d ∧ h.Ok total ∧ h.sum = n ∧ n < 2 ^ 32 ∧ pos = h.pos + 32 ∧ pos ≤ total ∧
      d = gatherBits bit 16 0 0 ∧ hudPairs bit total d { pos := 16, last := 0, sum := 0, leaves := [] } = .ok h ∧
      n = gatherBits bit 32 h.pos 0 := by
  unfold readHeader at e
  split at e
  · cases e
  · rename_i d' p h1
    obtain ⟨a1, rfl, a3, a4⟩ := readBits_ok h1
    split at e
    · cases e
    · rename_i h2
      split at e
      · cases e
      · rename_i g hg
        split at e
        · cases e
        · rename_i n' p' h3
          obtain ⟨b1, rfl, b3, b4⟩ := readBits_ok h3
          split at e
          · rename_i h4
            cases e
            have h0 : ({ pos := 0 + 16, last := 0, sum := 0, leaves := [] } : HeaderRead).Ok total :=
              ⟨by simp, by simp, by simp, by simp, by simp, by simp only; omega⟩
            obtain ⟨c1, c2⟩ := h0.pairs hg
            have := c1.inside
            exact ⟨by omega, by simpa using c2, c1, h4, b4, rfl, by omega, a3, hg, b3⟩
          · cases e

/-- The errors of the header (45_huffman_decoder.md R270). -/
theorem readHeader_error {bit : Nat → Bool} {total : Nat} {x : ErrCode} (e : readHeader bit total = .error x) :
    x = .unexpectedEof ∨ x = .badHeader := by
  unfold readHeader at e
  split at e
  · rename_i h1
    rcases readBits_cases bit total 0 16 with ⟨-, h2⟩ | ⟨-, h2⟩ <;> rw [h2] at h1 <;> cases h1
    cases e; exact .inl rfl
  · split at e
    · cases e; exact .inr rfl
    · split at e
      · rename_i hg
        cases e
        exact hudPairs_error hg
      · rename_i g hg
        split at e
        · rename_i h1
          rcases readBits_cases bit total g.pos 32 with ⟨-, h2⟩ | ⟨-, h2⟩ <;> rw [h2] at h1 <;> cases h1
          cases e; exact .inl rfl
        · split at e
          · cases e
          · cases e; exact .inr rfl

/-! ### The walk -/

/-- The walk over a built tree stays on its nodes, and stands on a leaf only at a one-leaf tree's root
(45_huffman_decoder.md R265, R266). -/
theorem walkBit_ok {nodes : List Node} {root walk : Nat} (bit : Bool)
    (hk : ∀ i < nodes.length, nodeOk nodes i = true) (hr : root < nodes.length) (hw : walk < nodes.length)
    (hn : walk = root ∨ (nodeAt nodes walk).isLeaf = false) :
    (walkBit nodes root walk bit).2 < nodes.length ∧
      ((walkBit nodes root walk bit).2 = root ∨
        (nodeAt nodes (walkBit nodes root walk bit).2).isLeaf = false) := by
  unfold walkBit
  split
  · exact ⟨hw, hn⟩
  · rename_i l r f h1
    have hc : childOf nodes walk bit < nodes.length := by
      unfold childOf
      split
      · rename_i h2
        rcases hn with rfl | hn
        · rw [h1] at h2; cases h2
        · rw [h2] at hn; cases hn
      · rename_i h2
        rcases nodeOk_cases (hk walk hw) with ⟨_, _, h3, -⟩ | ⟨_, _, _, h3, h4, h5, -⟩ <;> rw [h3] at h2 <;> cases h2
        split <;> omega
    split
    · exact ⟨hr, .inl rfl⟩
    · rename_i h2
      exact ⟨hc, .inr (by simp only [h2]; rfl)⟩

/-- At most one symbol a bit (45_huffman_decoder.md R265). -/
theorem walkBit_symbol_le (nodes : List Node) (root walk : Nat) (bit : Bool) :
    (walkBit nodes root walk bit).1.toList.length ≤ 1 := by
  cases (walkBit nodes root walk bit).1 <;> simp

end Sys2Proof.Machine
end

