-- ==== Sys2Proof/Laws/Reading.lean ====
section
/-! SUPPORT. Reading back what the packer wrote (41_bitpacker.md R154 to R158): the bits of a packed stream, and what a
stream that carries given (value, width) pairs reads as. -/

namespace Sys2Proof.Machine

open Sys2Proof

/-- A bit string as a sum of powers of two. -/
theorem ofBits_sum (bs : List Bool) : ofBits bs =
    ((List.range bs.length).map fun t => (bs.getD t false).toNat * 2 ^ (bs.length - 1 - t)).sum := by
  induction bs with
  | nil => rfl
  | cons b bs ih =>
    rw [ofBits_cons, List.length_cons, List.range_succ_eq_map, List.map_cons, List.sum_cons, ih, List.map_map]
    simp only [List.getD_cons_zero, Nat.add_sub_cancel, Nat.sub_zero]
    congr 2
    apply List.map_congr_left
    intro t ht
    have := List.mem_range.1 ht
    simp only [Function.comp, List.getD_cons_succ]
    congr 2
    omega

/-- A byte is its eight bits. -/
theorem byteBits_inj {a b : Byte} (h : byteBits a = byteBits b) : a = b := by
  apply BitVec.eq_of_getLsbD_eq
  intro i hi
  have := congrArg (fun l => l[7 - i]?) h
  simp only [byteBits, List.getElem?_map] at this
  rw [List.getElem?_range (by omega)] at this
  simp only [Option.map_some, Option.some.injEq] at this
  have e : 7 - (7 - i) = i := by omega
  rwa [e] at this

/-- A byte sequence is its bits. -/
theorem bytesBits_inj {a b : List Byte} (h : bytesBits a = bytesBits b) : a = b := by
  induction a generalizing b with
  | nil =>
    have := congrArg List.length h
    simp at this
    exact this.symm
  | cons x a ih =>
    cases b with
    | nil => have := congrArg List.length h; simp at this
    | cons y b =>
      rw [bytesBits_cons, bytesBits_cons] at h
      obtain ⟨h1, h2⟩ := List.append_inj h (by simp)
      rw [byteBits_inj h1, ih h2]

/-- A bit of the number that a bit string spells. -/
theorem testBit_ofBits (bs : List Bool) (i : Nat) (h : i < bs.length) : (ofBits bs).testBit i =
    bs[bs.length - 1 - i] := by
  induction bs with
  | nil => simp at h
  | cons b bs ih =>
    rw [ofBits_cons, Nat.mul_comm, Nat.testBit_two_pow_mul_add _ (ofBits_lt bs)]
    simp only [List.length_cons] at h
    by_cases hi : i < bs.length
    · simp only [hi, if_true, ih hi]
      have e : (b :: bs).length - 1 - i = (bs.length - 1 - i) + 1 := by simp; omega
      simp only [e, List.getElem_cons_succ]
    · have : i = bs.length := by omega
      subst this
      simp
      cases b <;> rfl

/-- The bytes of a bit string: its bits, then zeros up to a whole byte (20_memory.md R66). -/
theorem bytesOfBits_spec (bs : List Bool) : bytesBits (bytesOfBits bs) =
    bs ++ List.replicate ((8 - bs.length % 8) % 8) false := by
  have hlen : (bytesBits (bytesOfBits bs)).length = (bs ++ List.replicate ((8 - bs.length % 8) % 8) false).length := by
    simp [bytesOfBits]; omega
  apply List.ext_getElem hlen
  intro p h1 h2
  have h3 : p < 8 * (bytesOfBits bs).length := by simpa using h1
  rw [← listBit_eq _ _ h3]
  have hL : (bytesOfBits bs).length = (bs.length + 7) / 8 := by simp [bytesOfBits]
  have hk : p / 8 < (bs.length + 7) / 8 := by omega
  unfold listBit streamBit
  have : (bytesOfBits bs).getD (p / 8) 0 =
    BitVec.ofNat 8 (ofBits ((List.range 8).map fun i => bs.getD (8 * (p / 8) + i) false)) := by
    simp [bytesOfBits, List.getD_eq_getElem?_getD, hk]
  simp only []
  rw [this, BitVec.getLsbD, BitVec.toNat_ofNat, Nat.testBit_mod_two_pow]
  rw [testBit_ofBits _ _ (by simp; omega)]
  simp only [List.length_map, List.length_range, List.getElem_map, List.getElem_range]
  have e : 8 * (p / 8) + (8 - 1 - (7 - p % 8)) = p := by omega
  rw [e, List.getD_eq_getElem?_getD]
  have : 7 - p % 8 < 8 := by omega
  simp only [this, decide_true, Bool.true_and]
  rw [List.getElem_append]
  split
  · rename_i hp; simp [hp]
  · rename_i hp; simp at hp; simp [hp]

/-- The packed stream as the bytes of the values' bits (41_bitpacker.md R154). -/
theorem packed_eq (ps : List (Nat × Nat)) : packed ps = bytesOfBits (fieldBits ps) := by
  apply bytesBits_inj
  rw [bytesBits_packed, bytesOfBits_spec]

/-- The bits of a packed stream are the values' bits. -/
theorem listBit_packed (ps : List (Nat × Nat)) (i : Nat) (h : i < (fieldBits ps).length) : listBit (packed ps) i =
    (fieldBits ps)[i] := by
  have hl := length_packed ps
  rw [listBit_eq _ _ (by omega)]
  simp only [bytesBits_packed]
  rw [List.getElem_append_left]

/-- The bits from `pos` on are those of the (value, width) pairs `ps`, then anything. -/
def Carries (bit : Nat → Bool) (total pos : Nat) (ps : List (Nat × Nat)) : Prop :=
  pos + (fieldBits ps).length ≤ total ∧ ∀ i, (h : i < (fieldBits ps).length) → bit (pos + i) = (fieldBits ps)[i]

/-- Reading the first of the pairs that a stream carries (41_bitpacker.md R156, R158). -/
theorem Carries.read {bit total pos c w ps} (h : Carries bit total pos ((c, w) :: ps)) (hc : c < 2 ^ w) :
    readBits bit total pos w = .ok (c, pos + w) ∧ Carries bit total (pos + w) ps := by
  obtain ⟨hfit, hb⟩ := h
  have hlen : (fieldBits ((c, w) :: ps)).length = w + (fieldBits ps).length := by
    rw [fieldBits_cons, List.length_append, length_bitsOf]
  rw [hlen] at hfit
  constructor
  · have hr : readBits bit total pos w = .ok (gatherBits bit w pos 0, pos + w) := by
      rcases readBits_cases bit total pos w with ⟨h, e⟩ | ⟨h, e⟩
      · omega
      · exact e
    have hv : gatherBits bit w pos 0 = c := by
      rw [gatherBits_eq, Nat.zero_mul, Nat.zero_add]
      have : ((List.range w).map fun t => bit (pos + t)) = bitsOf c w := by
        apply List.ext_getElem (by simp)
        intro i h1 h2
        simp only [List.length_map, List.length_range] at h1
        simp only [List.getElem_map, List.getElem_range]
        rw [hb i (by omega)]
        simp only [fieldBits_cons]
        rw [List.getElem_append_left]
      rw [this, ofBits_bitsOf hc]
    rw [hr, hv]
  · refine ⟨by omega, fun i hi => ?_⟩
    have := hb (w + i) (by omega)
    rw [← Nat.add_assoc] at this
    rw [this]
    simp only [fieldBits_cons]
    rw [List.getElem_append_right (by simp)]
    simp

/-- A packed stream carries the pairs it was made of. -/
theorem carries_packed (ps : List (Nat × Nat)) : Carries (listBit (packed ps)) (8 * (packed ps).length) 0 ps := by
  have hl := length_packed ps
  refine ⟨by omega, fun i hi => ?_⟩
  rw [Nat.zero_add]; exact listBit_packed ps i hi

/-- Reading one bit. -/
theorem Carries.bit_one {bit total pos} {b : Bool} {ps} (h : Carries bit total pos ((b.toNat, 1) :: ps)) :
    readBits bit total pos 1 = .ok (b.toNat, pos + 1) ∧ Carries bit total (pos + 1) ps :=
  h.read (by cases b <;> decide)

/-- The bits of a stream depend only on the bytes that hold them. -/
theorem streamBit_congr {f : Nat → Byte} {x : List Byte} (h : ∀ i < x.length, f i = x.getD i 0) (p : Nat)
    (hp : p < 8 * x.length) : streamBit f p = listBit x p := by
  unfold listBit streamBit
  rw [h _ (by omega)]

/-- `ReadBits` depends only on the bits of the stream. -/
theorem readBits_congr {f g : Nat → Bool} {total : Nat} (h : ∀ p < total, f p = g p) (pos w : Nat) :
    readBits f total pos w = readBits g total pos w := by
  unfold readBits
  split
  · rfl
  · rw [gatherBits_congr 0 (fun p h1 h2 => h p (by omega))]

end Sys2Proof.Machine
end

