-- ==== Sys2Proof/Laws/HuffmanCodes.lean ====
section
/-! SUPPORT. The code tree that a build makes (44_huffman_encoder.md R234 to R243), and the decoder's way back
(45_huffman_decoder.md R261, R265). -/

namespace Sys2Proof.Machine

open Sys2Proof

/-! ### Counting -/

/-- Counting a list of bytes onto a table. -/
theorem countAll_spec (x : List Byte) (f : List Nat) (h : f.length = 256) :
   (x.foldl countByte f).length = 256 ∧ ∀ s : Byte, (x.foldl countByte f).getD s.toNat 0 =
     f.getD s.toNat 0 + x.count s := by
  induction x generalizing f with
  | nil => simp [h]
  | cons b x ih =>
    obtain ⟨h1, h2⟩ := ih (countByte f b) (by simp [h])
    refine ⟨h1, fun s => ?_⟩
    rw [List.foldl_cons, h2, getD_countByte h, List.count_cons]
    by_cases hh : s = b
    · subst hh; simp; omega
    · have : ¬ b = s := fun e => hh e.symm
      simp [hh, this]

/-- The counts of pass 1 (44_huffman_encoder.md R230). -/
theorem countAll_getD (x : List Byte) (s : Byte) : (countAll x).getD s.toNat 0 = x.count s := by
  have := (countAll_spec x clearFreq length_clearFreq).2 s
  unfold countAll
  rw [this]
  have hs := s.isLt
  have : clearFreq.getD s.toNat 0 = 0 := by
    unfold clearFreq
    rw [List.getD_eq_getElem?_getD, List.getElem?_replicate]
    split <;> rfl
  rw [this, Nat.zero_add]

/-- The counts of an input add up to its length. -/
theorem sum_countAll (x : List Byte) : (countAll x).sum = x.length := by
  have : ∀ (f : List Nat), f.length = 256 → (x.foldl countByte f).sum = f.sum + x.length := by
    induction x with
    | nil => simp
    | cons b x ih =>
      intro f hf
      rw [List.foldl_cons, ih _ (by simp [hf]), sum_countByte hf]
      simp; omega
  have := this clearFreq length_clearFreq
  unfold countAll
  rw [this, sum_clearFreq]; omega

/-! ### Trees -/

/-- A code tree, as a tree. -/
inductive CodeTree where
  | leaf (s : Byte)
  | node (l r : CodeTree)

namespace CodeTree

/-- The symbols, left to right. -/
def leaves : CodeTree → List Byte
  | leaf s => [s]
  | node l r => l.leaves ++ r.leaves

/-- The path to a symbol, `false` for left (44_huffman_encoder.md R238). -/
def path (s : Byte) : CodeTree → Option (List Bool)
  | leaf t => if t = s then some [] else none
  | node l r =>
    match l.path s with
    | some p => some (false :: p)
    | none => (r.path s).map (true :: ·)

theorem leaves_pos (t : CodeTree) : 1 ≤ t.leaves.length := by
  induction t with
  | leaf s => simp [leaves]
  | node l r h1 h2 => simp [leaves]; omega

/-- Every symbol of the tree has a path. -/
theorem path_isSome {t : CodeTree} {s : Byte} (h : s ∈ t.leaves) : ∃ p, t.path s = some p := by
  induction t with
  | leaf u => simp [leaves] at h; exact ⟨[], by simp [path, h]⟩
  | node l r h1 h2 =>
    simp only [path]
    cases hl : l.path s with
    | some p => exact ⟨_, rfl⟩
    | none =>
      simp only [leaves, List.mem_append] at h
      rcases h with h | h
      · obtain ⟨p, hp⟩ := h1 h; rw [hl] at hp; cases hp
      · obtain ⟨p, hp⟩ := h2 h; exact ⟨_, by rw [hp]; rfl⟩

/-- A path is shorter than the number of leaves (44_huffman_encoder.md R245). -/
theorem path_length {t : CodeTree} {s : Byte} {p} (h : t.path s = some p) : p.length + 1 ≤ t.leaves.length := by
  induction t generalizing p with
  | leaf u => simp only [path] at h; split at h <;> cases h; simp [leaves]
  | node l r h1 h2 =>
    have := l.leaves_pos
    have := r.leaves_pos
    simp only [path] at h
    simp only [leaves, List.length_append]
    cases hl : l.path s with
    | some q => rw [hl] at h; cases h; have := h1 hl; simp; omega
    | none =>
      rw [hl] at h
      simp only [Option.map_eq_some_iff] at h
      obtain ⟨q, hq, rfl⟩ := h
      have := h2 hq; simp; omega

/-- No path is a prefix of another symbol's (44_huffman_encoder.md R243). -/
theorem prefix_eq {t : CodeTree} {a b : Byte} {p q} (hp : t.path a = some p) (hq : t.path b = some q) (h : p <+: q) :
    a = b := by
  induction t generalizing p q with
  | leaf u =>
    simp only [path] at hp hq
    split at hp <;> split at hq <;> simp_all
  | node l r h1 h2 =>
    simp only [path] at hp hq
    cases hla : l.path a <;> cases hlb : l.path b <;> rw [hla] at hp <;> rw [hlb] at hq <;>
      simp only [Option.map_eq_some_iff, Option.some.injEq] at hp hq
    · obtain ⟨p', hp', rfl⟩ := hp
      obtain ⟨q', hq', rfl⟩ := hq
      exact h2 hp' hq' (by simpa using h)
    · obtain ⟨p', hp', rfl⟩ := hp
      subst hq
      simp at h
    · obtain ⟨q', hq', rfl⟩ := hq
      subst hp
      simp at h
    · subst hp; subst hq
      exact h1 hla hlb (by simpa using h)

end CodeTree

/-- The tree under node `i`, at most `fuel` levels deep. -/
def codeTreeAt (nodes : List Node) : Nat → Nat → CodeTree
  | 0, _ => .leaf 0
  | fuel + 1, i =>
    match nodeAt nodes i with
    | .leaf s _ => .leaf s
    | .internal l r _ => .node (codeTreeAt nodes fuel l) (codeTreeAt nodes fuel r)

/-- The tree under node `i`; a child is older than its parent, so `i + 1` levels are enough. -/
def codeTree (nodes : List Node) (i : Nat) : CodeTree := codeTreeAt nodes (i + 1) i

/-- Every node is well formed. -/
def NodesOk (nodes : List Node) : Prop := ∀ i < nodes.length, nodeOk nodes i = true

/-- More levels give the same tree. -/
theorem codeTreeAt_fuel {nodes} (h : NodesOk nodes) : ∀ fuel i, i < nodes.length → i < fuel →
    codeTreeAt nodes fuel i = codeTree nodes i := by
  intro fuel
  induction fuel using Nat.strong_induction_on with
  | _ fuel ih =>
    intro i hi hf
    obtain ⟨f, rfl⟩ : ∃ f, fuel = f + 1 := ⟨fuel - 1, by omega⟩
    unfold codeTree
    simp only [codeTreeAt]
    rcases nodeOk_cases (h i hi) with ⟨s, w, hn, -⟩ | ⟨l, r, w, hn, hl, hr, -⟩
    · rw [hn]
    · rw [hn]
      simp only
      by_cases hfi : f = i
      · subst hfi; rfl
      · rw [ih f (by omega) l (by omega) (by omega), ih f (by omega) r (by omega) (by omega),
            ih i (by omega) l (by omega) (by omega), ih i (by omega) r (by omega) (by omega)]

theorem codeTree_leaf {nodes i s w} (h : nodeAt nodes i = .leaf s w) : codeTree nodes i = .leaf s := by
  simp [codeTree, codeTreeAt, h]

/-- The tree under an internal node. -/
theorem codeTree_internal {nodes} (g : NodesOk nodes) {i l r w} (hi : i < nodes.length)
    (h : nodeAt nodes i = .internal l r w) :
    codeTree nodes i = .node (codeTree nodes l) (codeTree nodes r) ∧ l < i ∧ r < i := by
  rcases nodeOk_cases (g i hi) with ⟨s, w, hn, -⟩ | ⟨l', r', w', hn, hl, hr, -⟩
  · rw [hn] at h; cases h
  · rw [hn] at h; cases h
    refine ⟨?_, hl, hr⟩
    rw [← codeTreeAt_fuel g i l (by omega) hl, ← codeTreeAt_fuel g i r (by omega) hr]
    simp [codeTree, codeTreeAt, hn]

/-- A later node does not change the tree under an earlier one. -/
theorem codeTree_append {nodes : List Node} (g : NodesOk nodes) (n : Node) {i : Nat} (hi : i < nodes.length) :
    codeTree (nodes ++ [n]) i = codeTree nodes i := by
  induction i using Nat.strong_induction_on with
  | _ i ih =>
    have e := nodeAt_append_lt [n] hi
    rcases nodeOk_cases (g i hi) with ⟨s, w, hn, -⟩ | ⟨l, r, w, hn, hl, hr, -⟩
    · rw [codeTree_leaf hn, codeTree_leaf (by rw [e, hn])]
    · rw [(codeTree_internal g hi hn).1]
      -- unfold the left side one level
      have : ∀ fuel j, j < i → j < fuel → codeTreeAt (nodes ++ [n]) fuel j = codeTreeAt nodes fuel j := by
        intro fuel
        induction fuel with
        | zero => intro j _ h; omega
        | succ f ihf =>
          intro j hj hf
          simp only [codeTreeAt]
          rw [nodeAt_append_lt [n] (by omega)]
          rcases nodeOk_cases (g j (by omega)) with ⟨s, w, hn, -⟩ | ⟨l, r, w, hn, hl, hr, -⟩
          · rw [hn]
          · rw [hn]; simp only
            rw [ihf l (by omega) (by omega), ihf r (by omega) (by omega)]
      unfold codeTree
      rw [codeTreeAt, e, hn]
      simp only
      rw [this i l hl hl, this i r hr hr, codeTreeAt_fuel g i l (by omega) hl, codeTreeAt_fuel g i r (by omega) hr]
      rfl

/-- A path from an internal node is not empty. -/
theorem path_ne_nil {nodes : List Node} (g : NodesOk nodes) {i l r w : Nat} (hi : i < nodes.length)
    (hn : nodeAt nodes i = .internal l r w) {s : Byte} {p : List Bool} (h : (codeTree nodes i).path s = some p) :
      p ≠ [] := by
  rw [(codeTree_internal g hi hn).1] at h
  rintro rfl
  simp only [CodeTree.path] at h
  cases hl : (codeTree nodes l).path s <;> rw [hl] at h <;> simp at h

/-- The symbols under node `i`. -/
def leavesAt (nodes : List Node) (i : Nat) : List Byte := (codeTree nodes i).leaves

/-! ### The build -/

/-- A build whose active nodes hold the symbols `syms`. -/
structure BuildLeaves (syms : List Byte) (total : Nat) (h : HufRegs) : Prop where
  ok : h.BuildOk total
  perm : (h.active.flatMap (leavesAt h.node)).Perm syms

/-- A merge keeps the symbols (44_huffman_encoder.md R236). -/
theorem BuildLeaves.merge {syms total h} (b : BuildLeaves syms total h) (h2 : 2 ≤ h.active.length) {g}
    (hg : h.merge = some g) :
    (g.active.flatMap (leavesAt g.node)).Perm syms := by
  obtain ⟨k1, k2, k3, k4, k5, k6, k7⟩ := b.ok
  obtain ⟨a, ha, ham⟩ := popMin_some (nodes := h.node) k1
  have hl1 : (h.active.erase a).length = h.active.length - 1 := List.length_erase_of_mem ham
  have hne : h.active.erase a ≠ [] := by
    intro hh
    rw [hh] at hl1
    simp at hl1
    omega
  obtain ⟨b', hb, hbm⟩ := popMin_some (nodes := h.node) hne
  have hbm' : b' ∈ h.active := List.mem_of_mem_erase hbm
  rw [merge_eq ha hb] at hg
  cases hg
  have ha' := k5 a ham
  have hb' := k5 b' hbm'
  rw [k2] at ha' hb'
  have gd : NodesOk h.node := k6
  simp only
  have e : ∀ i ∈ (h.active.erase a).erase b',
    leavesAt (h.node ++ [.internal a b' ((nodeAt h.node a).weight + (nodeAt h.node b').weight)]) i =
    leavesAt h.node i := by
    intro i hi
    have := k5 i (List.mem_of_mem_erase (List.mem_of_mem_erase hi))
    unfold leavesAt
    rw [codeTree_append gd _ (by omega)]
  rw [List.flatMap_append, List.flatMap_singleton, List.flatMap_congr e, k2]
  have e2 : leavesAt (h.node ++ [.internal a b' ((nodeAt h.node a).weight + (nodeAt h.node b').weight)]) h.node.length
    = leavesAt h.node a ++ leavesAt h.node b' := by
    unfold leavesAt codeTree
    rw [codeTreeAt, nodeAt_append_length]
    simp only [CodeTree.leaves]
    have : ∀ fuel j, j < h.node.length →
      codeTreeAt (h.node ++ [.internal a b' ((nodeAt h.node a).weight + (nodeAt h.node b').weight)]) fuel j =
      codeTreeAt h.node fuel j := by
      intro fuel
      induction fuel with
      | zero => intro j _; rfl
      | succ f ihf =>
        intro j hj
        simp only [codeTreeAt]
        rw [nodeAt_append_lt _ hj]
        rcases nodeOk_cases (gd j hj) with ⟨s, w, hn, -⟩ | ⟨l, r, w, hn, hl, hr, -⟩
        · rw [hn]
        · rw [hn]; simp only
          rw [ihf l (by omega), ihf r (by omega)]
    rw [this _ _ ha', this _ _ hb', codeTreeAt_fuel gd _ a ha' ha', codeTreeAt_fuel gd _ b' hb' hb']
    rfl
  rw [e2]
  refine List.Perm.trans ?_ b.perm
  have p1 := (List.perm_cons_erase ham).flatMap_right (leavesAt h.node)
  have p2 := (List.perm_cons_erase hbm).flatMap_right (leavesAt h.node)
  simp only [List.flatMap_cons] at p1 p2
  refine List.Perm.trans ?_ p1.symm
  refine List.Perm.trans ?_ (p2.append_left _).symm
  refine List.perm_append_comm.trans ?_
  rw [List.append_assoc]

/-- A build run to its end: a tree of all the symbols (44_huffman_encoder.md R237). -/
theorem build_treeOk (syms : List Byte) (total : Nat) : ∀ fuel (h : HufRegs), BuildLeaves syms total h →
    h.active.length ≤ fuel →
    (h.build fuel).TreeOk total ∧ (leavesAt (h.build fuel).node (h.build fuel).root).Perm syms := by
  intro fuel
  induction fuel with
  | zero => intro h b hf; exact absurd (List.length_eq_zero_iff.1 (by omega)) b.ok.1
  | succ f ih =>
    intro h b hf
    rcases buildStep_cases b.ok with ⟨r, ha, hs, ht⟩ | ⟨g, hs, hm, hk, hl, hfq, hnl⟩
    · simp only [HufRegs.build, hs]
      refine ⟨ht, ?_⟩
      have := b.perm
      rw [ha, List.flatMap_singleton] at this
      exact this
    · simp only [HufRegs.build, hs]
      have h2 : 2 ≤ h.active.length := by
        have := List.length_pos_of_ne_nil hk.1
        omega
      exact ih g ⟨hk, b.merge h2 hm⟩ (by omega)

/-- The leaves hold the symbols listed (44_huffman_encoder.md R234). -/
theorem leaves_buildLeaves {l : List (Byte × Nat)} (h : HufRegs) (h0 : l ≠ []) (hl : l.length ≤ 256)
    (hp : ∀ p ∈ l, 0 < p.2) : BuildLeaves (l.map Prod.fst) (l.map Prod.snd).sum (h.leaves l) := by
  refine ⟨leaves_buildOk h h0 hl hp, ?_⟩
  rw [leaves_eq]
  simp only
  have : ∀ i ∈ List.range l.length,
      leavesAt (l.map fun p => Node.leaf p.1 p.2) i = [(l.map Prod.fst).getD i 0] := by
    intro i hi
    have hi := List.mem_range.1 hi
    have : nodeAt (l.map fun p => Node.leaf p.1 p.2) i = .leaf l[i].1 l[i].2 := by simp [nodeAt, hi]
    unfold leavesAt
    rw [codeTree_leaf this]
    simp [CodeTree.leaves, List.getD_eq_getElem?_getD, hi]
  rw [List.flatMap_congr this]
  apply List.Perm.of_eq
  rw [← List.map_eq_flatMap]
  apply List.ext_getElem (by simp)
  intro i h1 h2
  simp at h1
  simp [List.getD_eq_getElem?_getD, h1]

/-- `BuildTree(L)` is a tree of the symbols of `L`. -/
theorem tree_treeOk {l : List (Byte × Nat)} (h : HufRegs) (h0 : l ≠ []) (hl : l.length ≤ 256)
    (hp : ∀ p ∈ l, 0 < p.2) : (HufRegs.tree l h).TreeOk (l.map Prod.snd).sum ∧
      (leavesAt (HufRegs.tree l h).node (HufRegs.tree l h).root).Perm (l.map Prod.fst) :=
  build_treeOk _ _ _ _ (leaves_buildLeaves h h0 hl hp) (by simp [leaves_eq])

/-! ### The codes -/

/-- The machine's search for a leaf finds the tree's path. -/
theorem pathTo_eq_path {nodes : List Node} (g : NodesOk nodes) (s : Byte) :
    ∀ fuel i, i < nodes.length → i < fuel →
    pathTo nodes s fuel i = (codeTree nodes i).path s := by
  intro fuel
  induction fuel with
  | zero => intro i _ h; omega
  | succ f ih =>
    intro i hi hf
    simp only [pathTo]
    rcases nodeOk_cases (g i hi) with ⟨t, w, hn, -⟩ | ⟨l, r, w, hn, hl, hr, -⟩
    · simp only [hn, codeTree_leaf hn, CodeTree.path]
    · rw [hn, (codeTree_internal g hi hn).1]
      simp only [CodeTree.path]
      have hl' := ih l (by omega) (by omega)
      have hr' := ih r (by omega) (by omega)
      cases h : (codeTree nodes l).path s <;> simp only [hl', hr', h]

/-- A build step does not depend on FREQ. -/
theorem buildStep_freq (h : HufRegs) (f : List Nat) : ({ h with freq := f } : HufRegs).buildStep =
    match h.buildStep with
    | none => none
    | some (.inl g) => some (.inl { g with freq := f })
    | some (.inr g) => some (.inr { g with freq := f }) := by
  simp only [HufRegs.buildStep]
  match ha : h.active with
  | [] => rfl
  | [r] => rfl
  | a :: b :: l =>
    simp only [HufRegs.merge, ha]
    cases h1 : popMin h.node (a :: b :: l) with
    | none => rfl
    | some q =>
      obtain ⟨q1, q2⟩ := q
      simp only
      cases h2 : popMin h.node q2 with
      | none => rfl
      | some q' => rfl

theorem build_freq (fuel : Nat) (h : HufRegs) (f : List Nat) : HufRegs.build fuel { h with freq := f } =
    { HufRegs.build fuel h with freq := f } := by
  induction fuel generalizing h with
  | zero => rfl
  | succ n ih =>
    simp only [HufRegs.build]
    rw [buildStep_freq]
    match h.buildStep with
    | none => rfl
    | some (.inl g) => simp only; rw [ih]
    | some (.inr g) => rfl

/-- A tree does not depend on FREQ. -/
theorem tree_freq (l : List (Byte × Nat)) (h : HufRegs) (f : List Nat) : HufRegs.tree l { h with freq := f } =
    { HufRegs.tree l h with freq := f } := by
  unfold HufRegs.tree
  rw [← build_freq, leaves_eq, leaves_eq]

theorem hufTree_eq (x : List Byte) : hufTree x =
    { Engine.zero.huf.tree (symbols (countAll x)) with freq := countAll x } := tree_freq _ _ _

theorem symbols_ne_nil {x : List Byte} (hx : x ≠ []) : symbols (countAll x) ≠ [] := by
  obtain ⟨b, l, rfl⟩ := List.exists_cons_of_ne_nil hx
  exact List.ne_nil_of_mem (mem_symbols.2 ⟨(countAll_getD (b :: l) b).symm, by simp⟩)

/-- The tree of an input that is not empty. -/
theorem hufTree_spec {x : List Byte} (hx : x ≠ []) :
    let t := hufTree x
    t.TreeOk ((symbols (countAll x)).map Prod.snd).sum ∧
      (leavesAt t.node t.root).Perm ((symbols (countAll x)).map Prod.fst) ∧ t.freq = countAll x := by
  have := tree_treeOk (l := symbols (countAll x)) Engine.zero.huf (symbols_ne_nil hx) (length_symbols_le _)
    (fun p hp => (mem_symbols.1 hp).2)
  rw [hufTree_eq]
  exact ⟨this.1, this.2, rfl⟩

/-- Every byte of the input is a symbol of its tree. -/
theorem mem_leaves {x : List Byte} {s : Byte} (hs : s ∈ x) : s ∈ leavesAt (hufTree x).node (hufTree x).root := by
  have hx : x ≠ [] := List.ne_nil_of_mem hs
  rw [(hufTree_spec hx).2.1.mem_iff, List.mem_map]
  exact ⟨(s, x.count s), mem_symbols.2 ⟨(countAll_getD x s).symm, List.count_pos_iff.2 hs⟩, rfl⟩

/-- The code of an occurring byte: "0" in a one-leaf tree, else its path (44_huffman_encoder.md R238, R239). -/
theorem codeOf_spec {x : List Byte} {s : Byte} (hs : s ∈ x) :
    ∃ p, (codeTree (hufTree x).node (hufTree x).root).path s = some p ∧
      (hufTree x).codeOf s = if (nodeAt (hufTree x).node (hufTree x).root).isLeaf then [false] else p := by
  have hx : x ≠ [] := List.ne_nil_of_mem hs
  obtain ⟨ht, hp, hf⟩ := hufTree_spec hx
  obtain ⟨k1, k2, k3, k4, k5⟩ := ht
  obtain ⟨p, hpp⟩ := CodeTree.path_isSome (mem_leaves hs)
  refine ⟨p, hpp, ?_⟩
  unfold HufRegs.codeOf
  rw [hf, countAll_getD, if_neg (by have := List.count_pos_iff.2 hs; omega)]
  cases hn : nodeAt (hufTree x).node (hufTree x).root with
  | leaf t w => simp [Node.isLeaf]
  | internal l r w =>
    simp only [Node.isLeaf]
    rw [pathTo_eq_path k4 s _ _ (by omega) (by omega), hpp]
    simp

/-! ### The way back -/

/-- A bit string as (value, width) pairs of width 1. -/
def bitFields (bs : List Bool) : List (Nat × Nat) := bs.map fun b => (b.toNat, 1)

/-- The pairs of a payload byte are the bits of its code (44_huffman_encoder.md R240). -/
theorem payloadFields_codes (x : List Byte) (s : Byte) : payloadFields (hufTree x).codes s =
    bitFields ((hufTree x).codeOf s) := by
  have hs := s.isLt
  unfold payloadFields bitFields HufRegs.codes
  congr 1
  rw [List.getD_eq_getElem?_getD, List.getElem?_map, List.getElem?_range (by omega)]
  simp

/-- One bit over a one-leaf tree puts out its symbol (45_huffman_decoder.md R266). -/
theorem hudRun_leaf (nodes : List Node) (root n : Nat) (bit : Nat → Bool) (total : Nat) {s : Byte} {w : Nat}
    (hr : nodeAt nodes root = .leaf s w) (b : Bool) (ps : List (Nat × Nat)) (fuel pos cnt : Nat)
    (hb : Carries bit total pos ((b.toNat, 1) :: ps)) (hc : cnt < n) (walk : Nat) :
    hudRun nodes root n bit total (fuel + 1) pos walk cnt =
      (s :: (hudRun nodes root n bit total fuel (pos + 1) walk (cnt + 1)).1,
        (hudRun nodes root n bit total fuel (pos + 1) walk (cnt + 1)).2) := by
  obtain ⟨r1, -⟩ := hb.bit_one
  rw [hudRun, if_pos hc, r1]
  simp [walkBit, hr]

/-- A walk down a path to a leaf puts out its symbol and is back at the root (45_huffman_decoder.md R265). -/
theorem hudRun_path {nodes : List Node} (g : NodesOk nodes) (root n : Nat) (bit : Nat → Bool) (total : Nat)
    {l0 r0 w0 : Nat} (hr : nodeAt nodes root = .internal l0 r0 w0) (s : Byte) (ps : List (Nat × Nat)) :
    ∀ (p : List Bool) (i : Nat) (fuel pos cnt : Nat), i < nodes.length → p ≠ [] →
      (codeTree nodes i).path s = some p →
      cnt < n →
      Carries bit total pos (bitFields p ++ ps) →
      hudRun nodes root n bit total (fuel + p.length) pos i cnt =
        (s :: (hudRun nodes root n bit total fuel (pos + p.length) root (cnt + 1)).1,
          (hudRun nodes root n bit total fuel (pos + p.length) root (cnt + 1)).2) := by
  intro p
  induction p with
  | nil => intro i fuel pos cnt _ h; exact absurd rfl h
  | cons b p ih =>
    intro i fuel pos cnt hi _ hp hc hb
    obtain ⟨r1, hb'⟩ := hb.bit_one
    rcases nodeOk_cases (g i hi) with ⟨t, w, hn, -⟩ | ⟨l, r, w, hn, -⟩
    · rw [codeTree_leaf hn] at hp
      simp only [CodeTree.path] at hp
      split at hp <;> simp at hp
    · obtain ⟨e, hl, hrr⟩ := codeTree_internal g hi hn
      rw [e] at hp
      have hch : (codeTree nodes (childOf nodes i b)).path s = some p ∧ childOf nodes i b < nodes.length := by
        simp only [CodeTree.path] at hp
        cases hq : (codeTree nodes l).path s with
        | some q =>
          rw [hq] at hp
          simp at hp
          obtain ⟨rfl, rfl⟩ := hp
          simp only [childOf, hn]
          exact ⟨by simpa using hq, by simp; omega⟩
        | none =>
          rw [hq] at hp
          simp at hp
          obtain ⟨h1, rfl⟩ := hp
          simp only [childOf, hn]
          exact ⟨by simpa using h1, by simp; omega⟩
      have hbn : ((b.toNat != 0) : Bool) = b := by cases b <;> rfl
      rw [List.length_cons, ← Nat.add_assoc, hudRun, if_pos hc, r1]
      simp only [hbn, walkBit, hr]
      rcases nodeOk_cases (g _ hch.2) with ⟨t, w', hn', -⟩ | ⟨l', r', w', hn', -⟩
      · rw [hn']
        have hp2 := hch.1
        rw [codeTree_leaf hn'] at hp2
        simp only [CodeTree.path] at hp2
        split at hp2
        · rename_i hts
          simp at hp2
          subst hp2; subst hts
          simp
        · cases hp2
      · rw [hn']
        simp only [Option.toList_none, List.length_nil, Nat.add_zero, List.nil_append]
        have hpne : p ≠ [] := by
          rintro rfl
          have hp2 := hch.1
          rw [(codeTree_internal g hch.2 hn').1] at hp2
          simp only [CodeTree.path] at hp2
          cases hq : (codeTree nodes l').path s <;> rw [hq] at hp2 <;> simp at hp2
        rw [ih _ fuel (pos + 1) cnt hch.2 hpne hch.1 hc hb']
        rw [show pos + 1 + p.length = pos + (p.length + 1) by omega]

/-- A walk over the payload of the bytes `y` puts out `y`. -/
theorem hudRun_payload {x : List Byte} (n : Nat) (bit : Nat → Bool) (total : Nat) :
    ∀ (y : List Byte) (fuel pos cnt : Nat), (∀ s ∈ y, s ∈ x) → cnt + y.length = n →
      Carries bit total pos (y.flatMap (payloadFields (hufTree x).codes)) →
      (fieldBits (y.flatMap (payloadFields (hufTree x).codes))).length + 1 ≤ fuel →
      hudRun (hufTree x).node (hufTree x).root n bit total fuel pos (hufTree x).root cnt = (y, .none) := by
  intro y
  induction y with
  | nil =>
    intro fuel pos cnt _ hc _ hf
    obtain ⟨f, rfl⟩ : ∃ f, fuel = f + 1 := ⟨fuel - 1, by omega⟩
    simp only [List.length_nil] at hc
    rw [hudRun, if_neg (by omega)]
  | cons s y ih =>
    intro fuel pos cnt hy hc hb hf
    have hs : s ∈ x := hy s (by simp)
    have hx : x ≠ [] := List.ne_nil_of_mem hs
    obtain ⟨ht, hperm, hfr⟩ := hufTree_spec hx
    obtain ⟨p, h1, h2⟩ := codeOf_spec hs
    rw [List.flatMap_cons, payloadFields_codes] at hb hf
    have hlen : ∀ p : List Bool, (fieldBits (bitFields p)).length = p.length := by
      intro p; rw [length_fieldBits]; induction p with
      | nil => rfl
      | cons b p ihp => simp only [bitFields, List.map_cons, List.sum_cons, List.length_cons] at ihp ⊢; omega
    have hhas : ∀ {pos} (p : List Bool) {ps}, Carries bit total pos (bitFields p ++ ps) →
      Carries bit total (pos + p.length) ps := by
      intro pos p
      induction p generalizing pos with
      | nil => intro ps h; exact h
      | cons b p ihp =>
        intro ps h
        have := ihp h.bit_one.2
        rw [List.length_cons, show pos + (p.length + 1) = pos + 1 + p.length by omega]
        exact this
    have hb2 := hhas _ hb
    rw [fieldBits_append, List.length_append, hlen] at hf
    simp only [List.length_cons] at hc
    cases hn : nodeAt (hufTree x).node (hufTree x).root with
    | leaf t w =>
      have hts : t = s := by
        rw [codeTree_leaf hn] at h1
        simp only [CodeTree.path] at h1
        split at h1
        · assumption
        · cases h1
      subst hts
      rw [hn] at h2
      simp only [Node.isLeaf, if_true] at h2
      rw [h2] at hb hf hb2
      obtain ⟨f, rfl⟩ : ∃ f, fuel = f + 1 := ⟨fuel - 1, by omega⟩
      rw [hudRun_leaf _ _ n bit total hn false _ f pos cnt hb (by omega)]
      rw [List.length_singleton] at hf hb2
      rw [ih f (pos + 1) (cnt + 1) (fun u hu => hy u (by simp [hu])) (by omega) hb2 (by omega)]
    | internal l r w =>
      rw [hn] at h2
      simp only [Node.isLeaf] at h2
      have h2 : (hufTree x).codeOf s = p := by simpa using h2
      have hroot : (hufTree x).root < (hufTree x).node.length := by have := ht.1; have := ht.2.2.1; omega
      have hne : p ≠ [] := by
        exact path_ne_nil ht.2.2.2.1 hroot hn h1
      rw [h2] at hb hf hb2
      obtain ⟨f, rfl⟩ : ∃ f, fuel = f + p.length := ⟨fuel - p.length, by omega⟩
      rw [hudRun_path ht.2.2.2.1 _ n bit total hn s _ p _ f pos cnt hroot hne h1 (by omega) hb]
      rw [ih f (pos + p.length) (cnt + 1) (fun u hu => hy u (by simp [hu])) (by omega) hb2 (by omega)]

/-- The header's loop over the pairs of an ascending list reads the list back (45_huffman_decoder.md R261). -/
theorem hudPairs_of_fields (bit : Nat → Bool) (total : Nat) (ps : List (Nat × Nat)) :
    ∀ (l : List (Byte × Nat)) (h : HeaderRead), (l.map Prod.fst).Pairwise (· < ·) →
      (∀ p ∈ l, 0 < p.2 ∧ p.2 < 2 ^ 32) →
      (∀ p ∈ l, h.last ≤ p.1.toNat) →
      Carries bit total h.pos ((l.flatMap fun p => [(p.1.toNat, 8), (p.2, 32)]) ++ ps) →
      ∃ h', hudPairs bit total l.length h = .ok h' ∧ h'.leaves = h.leaves ++ l ∧
        h'.sum = h.sum + (l.map Prod.snd).sum ∧
        h'.pos = h.pos + 40 * l.length ∧ Carries bit total h'.pos ps := by
  intro l
  induction l with
  | nil => intro h _ _ _ hb; exact ⟨h, rfl, by simp, by simp, by simp, hb⟩
  | cons p l ih =>
    intro h hasc hpos hlast hb
    obtain ⟨s, f⟩ := p
    have hs := s.isLt
    simp only [List.flatMap_cons, List.cons_append, List.nil_append] at hb
    obtain ⟨r1, hb⟩ := hb.read (by omega)
    have hf := hpos (s, f) (by simp)
    simp only at hf
    obtain ⟨r2, hb⟩ := hb.read hf.2
    have hl := hlast (s, f) (by simp)
    simp only at hl
    have e : hudPair bit total h = .ok { pos := h.pos + 8 + 32, last := s.toNat + 1, sum := h.sum + f, leaves :=
      h.leaves ++ [(s, f)] } := by
      unfold hudPair
      rw [r1]
      simp only
      rw [if_neg (by omega), r2]
      simp only
      rw [if_neg (by omega)]
      simp
    simp only [List.map_cons, List.pairwise_cons] at hasc
    obtain ⟨h', i1, i2, i3, i4, i5⟩ := ih { pos := h.pos + 8 + 32, last := s.toNat + 1, sum := h.sum + f, leaves :=
      h.leaves ++ [(s, f)] }
      hasc.2 (fun p hp => hpos p (by simp [hp])) (by
        intro p hp
        have := hasc.1 p.1 (List.mem_map_of_mem hp)
        have : s.toNat < p.1.toNat := this
        simp only; omega) hb
    refine ⟨h', ?_, ?_, ?_, ?_, i5⟩
    · rw [List.length_cons, hudPairs, e]; exact i1
    · rw [i2]; simp
    · rw [i3]; simp; omega
    · rw [i4]; simp only [List.length_cons]; omega

end Sys2Proof.Machine
end

