-- ==== Sys2Proof/Laws/LzwEncoder.lean ====
section
/-! SUPPORT. The LZW encoder's registers (42_lzw_encoder.md R170 to R176): what a lookup finds, and that a step keeps the
encoder's invariant. -/

namespace Sys2Proof.Machine

open Sys2Proof

/-- A lookup finds an entry with that key (42_lzw_encoder.md R171). -/
theorem LzeRegs.lookup_some {r : LzeRegs} {p c : Nat} {b : Byte} (h : r.lookup p b = some c) :
    ∃ e ∈ r.dict, e.pre = p ∧ e.byte = b ∧ e.code = c := by
  obtain ⟨e, he, rfl⟩ := Option.map_eq_some_iff.mp h
  have := List.find?_some he
  simp only [Bool.and_eq_true, beq_iff_eq] at this
  exact ⟨e, List.mem_of_find?_eq_some he, this.1, this.2, rfl⟩

/-- A lookup that fails: no entry has that key. -/
theorem LzeRegs.lookup_none {r : LzeRegs} {p : Nat} {b : Byte} (h : r.lookup p b = none) :
    ∀ e ∈ r.dict, ¬ (e.pre = p ∧ e.byte = b) := by
  intro e he hk
  have hf := Option.map_eq_none_iff.mp h
  rw [List.find?_eq_none] at hf
  exact hf e he (by simp [hk.1, hk.2])

/-- Insert with room (42_lzw_encoder.md R172, R173). -/
theorem LzeRegs.insert_room {mcw p : Nat} {b : Byte} {r : LzeRegs} (h : r.next < 2 ^ mcw) :
    r.insert mcw p b = { r with
      dict := { pre := p, byte := b, code := r.next } :: r.dict
      next := r.next + 1
      width := if r.next + 1 = 2 ^ r.width ∧ r.width < mcw then r.width + 1 else r.width } := by
  simp only [LzeRegs.insert, LzeRegs.grow]
  rw [if_pos h]
  split <;> rfl

/-- Insert into a full dictionary (42_lzw_encoder.md R172). -/
theorem LzeRegs.insert_full {mcw p : Nat} {b : Byte} {r : LzeRegs} (h : ¬ r.next < 2 ^ mcw) :
    r.insert mcw p b = r := if_neg h

/-- The three branches of `LzeStep` (42_lzw_encoder.md R175). -/
theorem LzeRegs.step_cases (mcw : Nat) (r : LzeRegs) (b : Byte) :
    (r.has = false ∧ r.step mcw b = ({ r with matched := b.toNat, has := true }, [])) ∨
    (∃ c, r.has = true ∧ r.lookup r.matched b = some c ∧ r.step mcw b = ({ r with matched := c }, [])) ∨
    (r.has = true ∧ r.lookup r.matched b = none ∧
      r.step mcw b = ({ r.insert mcw r.matched b with matched := b.toNat }, [(r.matched, r.width)])) := by
  unfold LzeRegs.step
  cases hh : r.has with
  | false => exact .inl ⟨rfl, by simp⟩
  | true =>
    cases hl : r.lookup r.matched b with
    | some c => exact .inr (.inl ⟨c, rfl, rfl, by simp⟩)
    | none => exact .inr (.inr ⟨rfl, rfl, by simp⟩)

namespace LzeRegs.Ok

variable {mcw : Nat} {r : LzeRegs}

theorem insert (h : r.Ok mcw) (hh : r.has = true) (b : Byte) : (r.insert mcw r.matched b).Ok mcw := by
  by_cases hn : r.next < 2 ^ mcw
  · obtain ⟨h1, h2, h3, h4, h5, h6, h7, h8⟩ := h
    have hm := h8 hh
    rw [LzeRegs.insert_room hn]
    have p9 : 2 ^ 9 ≤ 2 ^ r.width := Nat.pow_le_pow_right (by norm_num) h3
    have hlt : r.next < 2 ^ r.width := by
      rcases h5 with h5 | ⟨h5, h5'⟩
      · exact h5
      · rw [h5, h5'] at hn; omega
    refine ⟨by simp only; omega, hn, ?_, ?_, ?_, by simp only [List.length_cons]; omega, ?_, fun _ => ?_⟩
    · simp only; split <;> omega
    · simp only; split <;> omega
    · simp only
      split
      · left; rw [pow_succ]; omega
      · rename_i hg
        by_cases he : r.next + 1 = 2 ^ r.width
        · right; omega
        · left; omega
    · intro e he
      simp only [List.mem_cons] at he
      simp only
      rcases he with rfl | he
      · simp only; omega
      · have := h7 e he; omega
    · simp only; omega
  · rwa [LzeRegs.insert_full hn]

/-- A step keeps the invariant (42_lzw_encoder.md R182). -/
theorem step (h : r.Ok mcw) (b : Byte) : (r.step mcw b).1.Ok mcw := by
  have hb := b.isLt
  rcases LzeRegs.step_cases mcw r b with ⟨_, e⟩ | ⟨c, hh, hl, e⟩ | ⟨hh, _, e⟩ <;> rw [e]
  · obtain ⟨h1, h2, h3, h4, h5, h6, h7, h8⟩ := h
    exact ⟨h1, h2, h3, h4, h5, h6, h7, fun _ => by simp only; omega⟩
  · obtain ⟨d, hd, -, -, rfl⟩ := LzeRegs.lookup_some hl
    obtain ⟨h1, h2, h3, h4, h5, h6, h7, h8⟩ := h
    have := h7 d hd
    exact ⟨h1, h2, h3, h4, h5, h6, h7, fun _ => by simp only; omega⟩
  · obtain ⟨h1, h2, h3, h4, h5, h6, h7, h8⟩ := insert h hh b
    exact ⟨h1, h2, h3, h4, h5, h6, h7, fun _ => by simp only; omega⟩

/-- The codes a step writes fit their width and are not the end-of-stream code (42_lzw_encoder.md R180). -/
theorem step_codes (h : r.Ok mcw) (b : Byte) :
    ∀ p ∈ (r.step mcw b).2, p.1 < 2 ^ p.2 ∧ p.1 ≠ 256 ∧ p.2 = r.width := by
  rcases LzeRegs.step_cases mcw r b with ⟨_, e⟩ | ⟨c, hh, hl, e⟩ | ⟨hh, _, e⟩ <;> rw [e]
  · simp
  · simp
  · intro p hp
    obtain rfl := List.mem_singleton.mp hp
    obtain ⟨h1, h2, h3, h4, h5, h6, h7, h8⟩ := h
    have := h8 hh
    refine ⟨?_, this.2, rfl⟩
    simp only
    omega

/-- The end-of-stream width check keeps the width's bounds (42_lzw_encoder.md R176). -/
theorem lastGrow_width (h : r.Ok mcw) :
    9 ≤ (r.lastGrow mcw).width ∧ (r.lastGrow mcw).width ≤ mcw ∧ r.width ≤ (r.lastGrow mcw).width := by
  obtain ⟨h1, h2, h3, h4, -⟩ := h
  unfold LzeRegs.lastGrow
  split <;> (try simp only) <;> omega

end LzeRegs.Ok

/-- The encoder's registers at the start of a command meet the invariant (42_lzw_encoder.md R174). -/
theorem LzeRegs.init_ok {mcw : Nat} (h : 9 ≤ mcw) (r : LzeRegs) : r.init.Ok mcw := by
  have : 2 ^ 9 ≤ 2 ^ mcw := Nat.pow_le_pow_right (by norm_num) h
  refine ⟨by simp [LzeRegs.init, Config.firstCode], ?_, by simp [LzeRegs.init], h,
    by simp [LzeRegs.init, Config.firstCode, Config.minWidth], by simp [LzeRegs.init, Config.firstCode],
    by simp [LzeRegs.init], by simp [LzeRegs.init]⟩
  simp only [LzeRegs.init, Config.firstCode]
  omega

end Sys2Proof.Machine
end

