-- ==== Sys2Proof/Laws/LzwRoundTrip.lean ====
section
/-! SUPPORT. The LZW encoder's codes (42_lzw_encoder.md R175 to R179), and the encoder and the decoder in step over them
(43_lzw_decoder.md R208). -/

namespace Sys2Proof.Machine

open Sys2Proof

/-! ### Code widths -/

/-- `bitlen n` is the number of bits of `n`. -/
theorem bitlen_bounds {n : Nat} (h : n ≠ 0) : 2 ^ (bitlen n - 1) ≤ n ∧ n < 2 ^ bitlen n := by
  unfold bitlen
  exact ⟨by simpa using Nat.log2_self_le h, by rw [← Nat.log2_lt h]; omega⟩

theorem bitlen_pos (n : Nat) : 1 ≤ bitlen n := by unfold bitlen; omega

/-- `n` fits `b` bits. -/
theorem bitlen_le_iff {n b : Nat} (h : n ≠ 0) : bitlen n ≤ b ↔ n < 2 ^ b := by
  unfold bitlen
  rw [← Nat.log2_lt h]; omega

/-- The length grows at the powers of two. -/
theorem bitlen_succ {n : Nat} (h : n ≠ 0) : bitlen (n + 1) = if n + 1 =
    2 ^ bitlen n then bitlen n + 1 else bitlen n := by
  obtain ⟨h1, h2⟩ := bitlen_bounds h
  have hp := bitlen_pos n
  have a : bitlen (n + 1) ≤ bitlen n + 1 := by
    rw [bitlen_le_iff (by omega), pow_succ]; omega
  have b : bitlen n ≤ bitlen (n + 1) := by
    have := (bitlen_bounds (n := n + 1) (by omega)).2
    rw [bitlen_le_iff h]; omega
  have c := bitlen_le_iff (n := n + 1) (b := bitlen n) (by omega)
  split <;> omega

theorem bitlen_mono {a b : Nat} (h : a ≤ b) (ha : a ≠ 0) : bitlen a ≤ bitlen b := by
  have := (bitlen_bounds (n := b) (by omega)).2
  rw [bitlen_le_iff ha]; omega

/-- The width rule from one code to the next (42_lzw_encoder.md R173). -/
theorem width_next {mcw n : Nat} (hn : n ≠ 0) :
    (if n + 1 = 2 ^ (min mcw (bitlen n)) ∧ min mcw (bitlen n) < mcw then min mcw (bitlen n) + 1
      else min mcw (bitlen n))
      = min mcw (bitlen (n + 1)) := by
  rw [bitlen_succ hn]
  by_cases h : bitlen n < mcw
  · rw [Nat.min_eq_right (by omega : bitlen n ≤ mcw)]
    by_cases h2 : n + 1 = 2 ^ bitlen n
    · rw [if_pos ⟨h2, h⟩, if_pos h2]; omega
    · rw [if_neg (by tauto), if_neg h2]; omega
  · rw [Nat.min_eq_left (by omega : mcw ≤ bitlen n), if_neg (by omega)]
    split <;> omega

/-! ### The codes of an input -/

/-- The encoder with the dictionary's first match made, about to write code number `j` (42_lzw_encoder.md R179). -/
structure EncoderAt (mcw : Nat) (r : LzeRegs) (j : Nat) : Prop where
  ok : r.Ok mcw
  has : r.has = true
  pos : 1 ≤ j
  next : r.next = min (256 + j) (2 ^ mcw)
  width : r.width = min mcw (bitlen (256 + j))

/-- A step that writes a code. -/
theorem EncoderAt.emit {mcw r j} (h : EncoderAt mcw r j) {b : Byte} (hl : r.lookup r.matched b = none) :
    EncoderAt mcw (r.step mcw b).1 (j + 1) := by
  refine ⟨h.ok.step b, ?_, by omega, ?_, ?_⟩ <;> simp only [LzeRegs.step, h.has, hl, if_true]
  · by_cases hn : r.next < 2 ^ mcw
    · rw [LzeRegs.insert_room hn]; exact h.has
    · rw [LzeRegs.insert_full hn]; exact h.has
  · have := h.next
    by_cases hn : r.next < 2 ^ mcw
    · rw [LzeRegs.insert_room hn]; simp only; omega
    · rw [LzeRegs.insert_full hn]; omega
  · have hx := h.next
    by_cases hn : r.next < 2 ^ mcw
    · rw [LzeRegs.insert_room hn]; simp only
      have : r.next = 256 + j := by omega
      rw [this, h.width, width_next (by omega)]; rfl
    · rw [LzeRegs.insert_full hn, h.width]
      have : 2 ^ mcw ≤ 256 + j := by omega
      have h1 := bitlen_le_iff (n := 256 + j) (b := mcw) (by omega)
      have h2 := bitlen_le_iff (n := 256 + (j + 1)) (b := mcw) (by omega)
      omega

/-- A step that extends the match. -/
theorem EncoderAt.extend {mcw r j} (h : EncoderAt mcw r j) {b : Byte} {c : Nat} (hl : r.lookup r.matched b = some c) :
    EncoderAt mcw (r.step mcw b).1 j := by
  refine ⟨h.ok.step b, ?_, h.pos, ?_, ?_⟩ <;> simp only [LzeRegs.step, h.has, hl, if_true]
  · exact h.next
  · exact h.width

/-- The width of the end-of-stream code (42_lzw_encoder.md R176). -/
theorem EncoderAt.lastGrow {mcw r j} (h : EncoderAt mcw r j) : (r.lastGrow mcw).width =
    min mcw (bitlen (256 + (j + 1))) := by
  have hx := h.next
  have hw := h.width
  unfold LzeRegs.lastGrow
  by_cases hn : r.next < 2 ^ mcw
  · have : r.next = 256 + j := by omega
    rw [show 256 + (j + 1) = (256 + j) + 1 by omega, ← width_next (by omega), ← hw, this]
    by_cases hc : r.width < mcw ∧ 256 + j + 1 = 2 ^ r.width
    · rw [if_pos hc, if_pos ⟨hc.2, hc.1⟩]
    · rw [if_neg hc, if_neg (by tauto)]
  · have : 2 ^ mcw ≤ 256 + j := by omega
    have h1 := bitlen_le_iff (n := 256 + j) (b := mcw) (by omega)
    have h2 := bitlen_le_iff (n := 256 + (j + 1)) (b := mcw) (by omega)
    rw [if_neg (by omega)]; omega

/-- The codes that the encoder writes over a list of bytes: their number, widths and values. -/
theorem EncoderAt.scan {mcw r j} (h : EncoderAt mcw r j) (x : List Byte) :
    EncoderAt mcw (LzeRegs.scan mcw x r).1 (j + (LzeRegs.scan mcw x r).2.length) ∧
    (LzeRegs.scan mcw x r).2.length ≤ x.length ∧
    ∀ i c w, (LzeRegs.scan mcw x r).2[i]? = some (c, w) → w = min mcw (bitlen (256 + (j + i))) ∧ c < 2 ^ w ∧
      c ≠ 256 := by
  induction x generalizing r j with
  | nil => exact ⟨h, Nat.le_refl _, by simp [LzeRegs.scan]⟩
  | cons b x ih =>
    simp only [LzeRegs.scan, List.length_append, List.length_cons]
    have hs := h.ok.step_codes b
    cases hl : r.lookup r.matched b with
    | some c =>
      obtain ⟨h1, h2, h3⟩ := ih (h.extend hl)
      have e : (r.step mcw b).2 = [] := by simp [LzeRegs.step, h.has, hl]
      rw [e]
      simp only [List.length_nil, Nat.zero_add, List.nil_append]
      exact ⟨h1, by omega, h3⟩
    | none =>
      obtain ⟨h1, h2, h3⟩ := ih (h.emit hl)
      have e : (r.step mcw b).2 = [(r.matched, r.width)] := by simp [LzeRegs.step, h.has, hl]
      rw [e] at hs ⊢
      have hj : j + (1 + (LzeRegs.scan mcw x (r.step mcw b).1).2.length) =
          j + 1 + (LzeRegs.scan mcw x (r.step mcw b).1).2.length := by omega
      simp only [List.length_singleton]
      refine ⟨by rw [hj]; exact h1, by omega, ?_⟩
      intro i c w hi
      cases i with
      | zero =>
        simp at hi
        obtain ⟨rfl, rfl⟩ := hi
        have := hs (r.matched, r.width) (by simp)
        exact ⟨h.width, this.1, this.2.1⟩
      | succ i =>
        simp at hi
        have := h3 i c w hi
        rw [show j + (i + 1) = j + 1 + i by omega]
        exact this

/-- The encoder after the first byte. -/
theorem encoderAt_start {mcw : Nat} (h : 9 ≤ mcw) (b : Byte) : EncoderAt mcw (LzeRegs.fresh.step mcw b).1 1 := by
  have ok : (LzeRegs.fresh.step mcw b).1.Ok mcw := (LzeRegs.init_ok h _).step b
  have p : 2 ^ 9 ≤ 2 ^ mcw := Nat.pow_le_pow_right (by norm_num) h
  refine ⟨ok, rfl, Nat.le_refl _, ?_, ?_⟩
  · show 257 = _; omega
  · show 9 = min mcw (bitlen 257)
    have : bitlen 257 = 9 := by
      have h1 := bitlen_le_iff (n := 257) (b := 9) (by omega)
      have h2 := bitlen_le_iff (n := 257) (b := 8) (by omega)
      omega
    omega

theorem lzwCodes_nil (mcw : Nat) : lzwCodes mcw [] = [(256, 9)] := rfl

/-- The codes of an input that is not empty, in the scan's terms. -/
theorem lzwCodes_cons (mcw : Nat) (b : Byte) (x : List Byte) (h : 9 ≤ mcw) :
    lzwCodes mcw (b :: x) = (LzeRegs.scan mcw x (LzeRegs.fresh.step mcw b).1).2 ++
      [((LzeRegs.scan mcw x (LzeRegs.fresh.step mcw b).1).1.matched,
        (LzeRegs.scan mcw x (LzeRegs.fresh.step mcw b).1).1.width),
       (256, ((LzeRegs.scan mcw x (LzeRegs.fresh.step mcw b).1).1.lastGrow mcw).width)] := by
  have e := (encoderAt_start h b).scan x
  have e2 : (LzeRegs.fresh.step mcw b).2 = [] := rfl
  have e3 : (LzeRegs.scan mcw (b :: x) LzeRegs.fresh) =
    ((LzeRegs.scan mcw x (LzeRegs.fresh.step mcw b).1).1, (LzeRegs.scan mcw x (LzeRegs.fresh.step mcw b).1).2) := rfl
  unfold lzwCodes
  rw [e3]
  simp only [LzeRegs.finish, e.1.has, if_true]

/-! ### The two dictionaries -/

/-- An encoder entry as a decoder entry; `first` plays no part in the strings. -/
def entryOf (e : DictEntry) : TabEntry := { code := e.code, pre := e.pre, last := e.byte, first := 0 }

/-- The string of a code in the encoder's dictionary (43_lzw_decoder.md R200). -/
def encString (D : List DictEntry) (c : Nat) : Option (List Byte) := stringOf (D.map entryOf) c

/-- A dictionary and a table with the same entries. -/
def SameStrings (D : List DictEntry) (T : List TabEntry) : Prop :=
  D.map (fun e => (e.code, e.pre, e.byte)) = T.map (fun t => (t.code, t.pre, t.last))

/-- They have the same strings. -/
theorem SameStrings.str {D T} (h : SameStrings D T) (c : Nat) : stringOf T c = encString D c := by
  unfold SameStrings at h
  induction D generalizing T c with
  | nil =>
    obtain rfl : T = [] := by simpa using h.symm
    rfl
  | cons e D ih =>
    cases T with
    | nil => simp at h
    | cons t T =>
      simp only [List.map_cons, List.cons.injEq, Prod.mk.injEq] at h
      obtain ⟨⟨h1, h2, h3⟩, h4⟩ := h
      have ih := fun c => ih h4 c
      unfold encString at ih ⊢
      simp only [List.map_cons, stringOf, entryOf, ← h1, ← h2, ← h3]
      rw [ih, ih]

/-- The string of an entry, by its prefix (43_lzw_decoder.md R200). -/
theorem stringOf_mem {tab : List TabEntry} (hp : tab.Pairwise fun a b => b.code < a.code)
    (hlt : ∀ e ∈ tab, e.pre < e.code) {e : TabEntry} (he : e ∈ tab) :
    stringOf tab e.code = (stringOf tab e.pre).map (· ++ [e.last]) := by
  induction tab with
  | nil => simp at he
  | cons t tab ih =>
    rw [List.pairwise_cons] at hp
    have h1 := hlt e he
    rcases List.mem_cons.1 he with rfl | he'
    · rw [stringOf_cons_self, stringOf_cons_of_ne (by omega)]
    · have := hp.1 e he'
      rw [stringOf_cons_of_ne (by omega), stringOf_cons_of_ne (by omega), ih hp.2 (fun e h => hlt e (by simp [h])) he']

/-- The string of a byte's code. -/
theorem encStr_literal {mcw r} (h : LzeRegs.Ok mcw r) {c : Nat} (hc : c ≤ 255) : encString r.dict c =
    some [BitVec.ofNat 8 c] := by
  apply stringOf_literal _ hc
  intro e he
  obtain ⟨a, ha, rfl⟩ := List.mem_map.1 he
  exact (h.2.2.2.2.2.2.1 a ha).1

/-! ### In step -/

/-- The decoder `d` has read every code that the encoder `r` has written: it is one entry behind, or nothing has been
written, or both dictionaries are full (43_lzw_decoder.md R208). -/
structure InStep (mcw : Nat) (r : LzeRegs) (d : LzdRegs) : Prop where
  rok : r.Ok mcw
  rhas : r.has = true
  dok : d.Ok mcw
  codes : r.dict.Pairwise fun a b => b.code < a.code
  width : d.width = r.width
  cases : (d.has = false ∧ r.dict = [] ∧ r.next = 257 ∧ r.matched ≤ 255) ∨
    (d.has = true ∧ ∃ b D, r.dict = { pre := d.prev, byte := b, code := d.next } :: D ∧
      SameStrings D d.tab ∧ r.next = d.next + 1 ∧
      (encString r.dict r.matched).bind List.head? = some b) ∨
    (d.has = true ∧ SameStrings r.dict d.tab ∧ r.next = d.next ∧ r.next = 2 ^ mcw)

/-- The encoder extends its match by `b`. -/
theorem InStep.extend {mcw r d} (h : InStep mcw r d) {b : Byte} {c : Nat} (hl : r.lookup r.matched b = some c)
    {S : List Byte} (hS : encString r.dict r.matched = some S) :
    InStep mcw (r.step mcw b).1 d ∧ encString (r.step mcw b).1.dict (r.step mcw b).1.matched = some (S ++ [b]) := by
  have ok := h.rok.step b
  have e : (r.step mcw b).1 = { r with matched := c } := by simp [LzeRegs.step, h.rhas, hl]
  rw [e] at ok ⊢
  obtain ⟨t, ht, h1, h2, h3⟩ := LzeRegs.lookup_some hl
  have hs : encString r.dict c = some (S ++ [b]) := by
    have := stringOf_mem (tab := r.dict.map entryOf) (by rw [List.pairwise_map]; exact h.codes)
      (by intro e he; obtain ⟨a, ha, rfl⟩ := List.mem_map.1 he; exact (h.rok.2.2.2.2.2.2.1 a ha).2.2.1)
      (List.mem_map_of_mem (f := entryOf) ht)
    unfold encString at hS ⊢
    simp only [entryOf, h1, h2, h3] at this
    rw [hS] at this
    simpa using this
  refine ⟨⟨ok, h.rhas, h.dok, h.codes, h.width, ?_⟩, hs⟩
  rcases h.cases with ⟨a1, a2, a3, a4⟩ | ⟨a1, b', D, a2, a3, a4, a5⟩ | a
  · rw [a2] at ht; simp at ht
  · refine .inr (.inl ⟨a1, b', D, a2, a3, a4, ?_⟩)
    simp only
    rw [hs]
    rw [hS] at a5
    cases S with
    | nil => simp at a5
    | cons x S => simpa using a5
  · exact .inr (.inr a)

/-- The decoder takes the code that the encoder is about to write: it resolves to the match's string, and the tables
agree (43_lzw_decoder.md R203 to R206). -/
theorem InStep.emit {mcw r d} (h : InStep mcw r d) {S : List Byte} (hS : encString r.dict r.matched = some S) :
    d.resolve r.matched = some S ∧ r.matched ≠ 256 ∧ ∃ d', d.accept mcw r.matched S = some d' ∧ d'.Ok mcw ∧
      d'.has = true ∧ d'.prev = r.matched ∧ SameStrings r.dict d'.tab ∧ d'.next = r.next ∧
      d'.width = (r.lastGrow mcw).width := by
  have hm := h.rok.2.2.2.2.2.2.2 h.rhas
  have hne : S ≠ [] := stringOf_ne_nil hS
  obtain ⟨v, tl, rfl⟩ := List.exists_cons_of_ne_nil hne
  have hr : d.resolve r.matched = some (v :: tl) := by
    unfold LzdRegs.resolve
    rcases h.cases with ⟨a1, a2, a3, a4⟩ | ⟨a1, b, D, a2, a3, a4, a5⟩ | ⟨a1, a2, a3, a4⟩
    · rw [if_pos (.inl a4)]
      rw [encStr_literal h.rok a4] at hS
      rw [stringOf_literal (fun e he => (h.dok.code_mem he).1) a4, hS]
    · by_cases hc : r.matched < d.next
      · rw [if_pos (by unfold Config.firstCode; omega), a3.str]
        rw [a2] at hS
        unfold encString at hS ⊢
        rw [List.map_cons, stringOf_cons_of_ne (by simp only [entryOf]; omega)] at hS
        exact hS
      · have he : r.matched = d.next := by omega
        have := h.dok.1
        rw [if_neg (by omega), if_pos ⟨a1, he⟩]
        obtain ⟨p, f, h1, h2, h3, h4⟩ := h.dok.kwkwk a1
        rw [hS] at a5
        simp at a5
        rw [a2, he] at hS
        unfold encString at hS
        have e2 := stringOf_cons_self (entryOf { pre := d.prev, byte := b, code := d.next }) (D.map entryOf)
        simp only [entryOf] at e2
        rw [List.map_cons] at hS
        simp only [entryOf] at hS
        rw [e2] at hS
        have := a3.str d.prev
        unfold encString at this
        rw [← this, h1] at hS
        simp at hS
        rw [h4, ← hS]
        have : f = b := by
          obtain ⟨q, ql, rfl⟩ := List.exists_cons_of_ne_nil (stringOf_ne_nil h1)
          simp at h3 hS
          rw [← h3, hS.1, a5]
        rw [this]
    · rw [if_pos (by unfold Config.firstCode; omega), a2.str, hS]
  refine ⟨hr, hm.2, ?_⟩
  have hp : (257 : Nat) ≤ d.next := h.dok.1
  obtain ⟨d', hd, hok⟩ := h.dok.accept (c := r.matched) hne (LzdRegs.resolve_some hr).2 (by
    intro he
    rcases h.cases with ⟨a1, a2, a3, a4⟩ | ⟨a1, b, D, a2, a3, a4, a5⟩ | ⟨a1, a2, a3, a4⟩
    · omega
    · have := h.rok.2.1; omega
    · omega)
  refine ⟨d', hd, hok, ?_⟩
  have hw := h.width
  rcases h.cases with ⟨a1, a2, a3, a4⟩ | ⟨a1, b, D, a2, a3, a4, a5⟩ | ⟨a1, a2, a3, a4⟩
  · have hn := h.dok.2.2.2.2.2.2.2.2 a1
    have ht : d.tab = [] := by
      have := h.dok.2.2.2.2.2.1
      rw [hn] at this; simpa using this
    simp only [LzdRegs.accept, LzdRegs.insert, a1, List.head?_cons, Option.bind_some] at hd
    simp at hd
    subst hd
    refine ⟨rfl, rfl, by simp [SameStrings, ht, a2], by simp only; omega, ?_⟩
    simp only
    unfold LzeRegs.lastGrow
    rw [if_neg, hw]
    have p : 2 ^ 9 ≤ 2 ^ r.width := Nat.pow_le_pow_right (by norm_num) h.rok.2.2.1
    omega
  · have hlt : d.next < 2 ^ mcw := by have := h.rok.2.1; omega
    obtain ⟨p, f, h1, h2, h3, h4⟩ := h.dok.kwkwk a1
    rw [hS] at a5
    simp at a5
    subst a5
    simp only [LzdRegs.accept, LzdRegs.insert, a1, List.head?_cons, Option.bind_some, hlt, h2, and_self, if_true,
      Option.map_some, Option.some.injEq] at hd
    subst hd
    unfold LzdRegs.grow LzeRegs.lastGrow
    simp only
    rw [a4, ← hw]
    refine ⟨trivial, trivial, ?_, ?_, ?_⟩
    · split <;> (simp only [SameStrings, a2, List.map_cons]; rw [show D.map _ = d.tab.map _ from a3])
    · split <;> rfl
    · split <;> simp [hw]
  · have hlt : ¬ d.next < 2 ^ mcw := by omega
    simp only [LzdRegs.accept, LzdRegs.insert, List.head?_cons, Option.bind_some, hlt, and_false, if_false,
      Option.map_some, Option.some.injEq] at hd
    subst hd
    refine ⟨rfl, rfl, a2, a3.symm, ?_⟩
    simp only
    unfold LzeRegs.lastGrow
    rw [if_neg, hw]
    rintro ⟨c1, c2⟩
    have := Nat.pow_lt_pow_right (a := 2) (by norm_num) c1
    omega

/-- The encoder's step at a byte that does not extend the match, after the decoder has taken the code. -/
theorem InStep.next {mcw r d d'} (h : InStep mcw r d) (ok : d'.Ok mcw) (hh : d'.has = true) (hp : d'.prev = r.matched)
    (hs : SameStrings r.dict d'.tab) (hn : d'.next = r.next) (hw : d'.width = (r.lastGrow mcw).width) {b : Byte}
    (hl : r.lookup r.matched b = none) :
    InStep mcw (r.step mcw b).1 d' ∧ encString (r.step mcw b).1.dict (r.step mcw b).1.matched = some [b] := by
  have rok := h.rok.step b
  have hb := b.isLt
  have hlit : encString (r.step mcw b).1.dict b.toNat = some [b] := by
    rw [encStr_literal rok (by omega)]; simp
  have hm : (r.step mcw b).1.matched = b.toNat := by simp [LzeRegs.step, h.rhas, hl]
  refine ⟨?_, by rw [hm]; exact hlit⟩
  have e : (r.step mcw b).1 = { r.insert mcw r.matched b with matched := b.toNat } := by simp [LzeRegs.step, h.rhas, hl]
  rw [e] at rok hlit ⊢
  by_cases hr : r.next < 2 ^ mcw
  · rw [LzeRegs.insert_room hr] at rok hlit ⊢
    refine ⟨rok, h.rhas, ok, ?_, ?_, .inr (.inl ⟨hh, b, r.dict, ?_, hs, ?_, ?_⟩)⟩
    · simp only [List.pairwise_cons]
      exact ⟨fun a ha => (h.rok.2.2.2.2.2.2.1 a ha).2.1, h.codes⟩
    · rw [hw]
      unfold LzeRegs.lastGrow
      by_cases hc : r.width < mcw ∧ r.next + 1 = 2 ^ r.width
      · rw [if_pos hc]; simp only; rw [if_pos ⟨hc.2, hc.1⟩]
      · rw [if_neg hc]; simp only; rw [if_neg (by tauto)]
    · simp [hp, hn]
    · simp [hn]
    · simp only at hlit ⊢; rw [hlit]; rfl
  · rw [LzeRegs.insert_full hr] at rok hlit ⊢
    have h2 : r.next = 2 ^ mcw := by have := h.rok.2.1; omega
    refine ⟨rok, h.rhas, ok, h.codes, ?_, .inr (.inr ⟨hh, hs, hn.symm, h2⟩)⟩
    rw [hw]
    unfold LzeRegs.lastGrow
    rw [if_neg]
    rintro ⟨c1, c2⟩
    have := Nat.pow_lt_pow_right (a := 2) (by norm_num) c1
    omega

/-- The decoder over a stream that carries the encoder's codes from here on outputs the match's string and what the
encoder has still to read. -/
theorem lzdRun_of_scan (mcw : Nat) (bit : Nat → Bool) (total : Nat) (x : List Byte) :
    ∀ (r : LzeRegs) (d : LzdRegs) (S : List Byte) (pos fuel : Nat), InStep mcw r d → encString r.dict r.matched =
      some S →
      Carries bit total pos ((LzeRegs.scan mcw x r).2 ++ ((LzeRegs.scan mcw x r).1.finish mcw).2) →
      (LzeRegs.scan mcw x r).2.length + 2 ≤ fuel →
      lzdRun mcw bit total fuel d pos = (S ++ x, .none) := by
  induction x with
  | nil =>
    intro r d S pos fuel h hS hb hf
    simp only [LzeRegs.scan, List.nil_append, List.length_nil, LzeRegs.finish, h.rhas, if_true] at hb hf
    obtain ⟨f, rfl⟩ : ∃ f, fuel = f + 2 := ⟨fuel - 2, by omega⟩
    obtain ⟨h1, h2, d', h3, h4, h5, h6, h7, h8, h9⟩ := h.emit hS
    have hm := h.rok.2.2.2.2.2.2.2 h.rhas
    obtain ⟨r1, hb⟩ := hb.read (by have := h.rok.2.2.2.2.1; omega)
    have hw := (h.rok.lastGrow_width).1
    have p : 2 ^ 9 ≤ 2 ^ (r.lastGrow mcw).width := Nat.pow_le_pow_right (by norm_num) hw
    obtain ⟨r2, -⟩ := hb.read (by unfold Config.eos; omega)
    rw [lzdRun, h.width, r1]
    simp only
    rw [if_neg h2, h1]
    simp only
    rw [h3]
    simp only
    rw [lzdRun, h9, r2]
    simp
  | cons b x ih =>
    intro r d S pos fuel h hS hb hf
    simp only [LzeRegs.scan] at hb hf
    cases hl : r.lookup r.matched b with
    | some c =>
      obtain ⟨h1, h2⟩ := h.extend hl hS
      have e : (r.step mcw b).2 = [] := by simp [LzeRegs.step, h.rhas, hl]
      rw [e] at hb hf
      rw [List.nil_append] at hb hf
      rw [ih _ d _ pos fuel h1 h2 hb hf]
      simp
    | none =>
      obtain ⟨h1, h2, d', h3, h4, h5, h6, h7, h8, h9⟩ := h.emit hS
      obtain ⟨n1, n2⟩ := h.next h4 h5 h6 h7 h8 h9 hl
      have e : (r.step mcw b).2 = [(r.matched, r.width)] := by simp [LzeRegs.step, h.rhas, hl]
      rw [e] at hb hf
      simp only [List.cons_append, List.nil_append, List.length_cons] at hb hf
      have hm := h.rok.2.2.2.2.2.2.2 h.rhas
      obtain ⟨r1, hb⟩ := hb.read (by have := h.rok.2.2.2.2.1; omega)
      obtain ⟨f, rfl⟩ : ∃ f, fuel = f + 1 := ⟨fuel - 1, by omega⟩
      rw [lzdRun, h.width, r1]
      simp only
      rw [if_neg h2, h1]
      simp only
      rw [h3]
      simp only
      rw [ih _ d' _ _ f n1 n2 hb (by omega)]
      simp

end Sys2Proof.Machine
end

