-- ==== Sys2Proof/Laws/Sequencer.lean ====
section
/-! SUPPORT. Steps and runs, and the parts of the invariant in the form the step proofs use: the buffers (`Buffers`), a
command that is running (`Running`), and how the sequencer's operations keep them. -/

namespace Sys2Proof.Machine

open Sys2Proof

/-! ### Steps and runs -/

/-- Whose turn it is: the sequencer's, or a host event's. -/
theorem step_cases (s : State) :
    (s.hostQueue = [] ∧ step s = seqStep s) ∨
    (∃ q, s.hostQueue = .idle :: q ∧ step s = seqStep { s with hostQueue := q }) ∨
    (∃ q, s.hostQueue = .rst :: q ∧ step s = .next (hardReset { s with hostQueue := q })) ∨
    (∃ x q, s.hostQueue = .txn x :: q ∧ step s = exec (decodeTxn x) { s with hostQueue := q }) := by
  match h : s.hostQueue with
  | [] => exact .inl ⟨rfl, by simp [step, turn, h]⟩
  | .idle :: q => exact .inr (.inl ⟨q, rfl, by simp [step, turn, h, hostTurn]⟩)
  | .rst :: q => exact .inr (.inr (.inl ⟨q, rfl, by simp [step, turn, h, hostTurn]⟩))
  | .txn x :: q => exact .inr (.inr (.inr ⟨x, q, rfl, by simp [step, turn, h, hostTurn]⟩))

theorem core_run_succ (m : Host.Core) {s t : m.State} (h : m.step s = .next t) (k : Nat) :
    m.run (k + 1) s = m.run k t := by
  simp only [Host.Core.run, h]

theorem run_succ {s t : State} (h : step s = .next t) (k : Nat) :
    Sys2Proof.core.run (k + 1) s = Sys2Proof.core.run k t :=
  core_run_succ Sys2Proof.core h k

/-- A step, then a run to the end. -/
theorem endsAt_succ {s t u : State} {k : Nat} (h : step s = .next t) (he : endsAt t k u) : endsAt s (k + 1) u :=
  ⟨(run_succ h k).trans he.1, he.2⟩

/-- When the host does nothing, an idle block stays as it is. -/
theorem run_idle {s : State} (hp : s.phase = .idle) (hq : s.hostQueue = []) (k : Nat) :
    Sys2Proof.core.run k s = .next s := by
  induction k with
  | zero => rfl
  | succ k ih =>
    have : step s = .next s := by simp [step, turn, hq, seqStep, hp]
    rw [run_succ this, ih]

/-! ### CTRL writes -/

/-- The word written to CTRL does what WR.REG says, by whichever instruction it decodes to (40_commands.md R130). -/
theorem exec_decodeCtrl (v : Word) (s : State) : exec (decodeCtrl v) s = .next (writeCtrl v s) := by
  have e4 : ∀ a : BitVec 2, a = 0 ∨ a = 1 ∨ a = 2 ∨ a = 3 := by decide
  unfold decodeCtrl writeCtrl
  cases h0 : ctrlStart v
  · rfl
  · cases hm : ctrlMode v <;> rcases e4 (ctrlAlg v) with ha | ha | ha | ha <;> rw [ha] <;> rfl

/-! ### The invariant, in parts -/

theorem legal_iff (p : Params) :
    Config.legal p = true ↔ 9 ≤ p.maxCodeWidth ∧ p.maxCodeWidth ≤ 31 ∧ 1 ≤ p.inCap ∧ p.inCap ≤ 2 ^ 30 ∧
      1 ≤ p.outCap ∧ p.outCap ≤ 2 ^ 30 := by
  simp [Config.legal, and_assoc]

/-- The parameters, the buffers and the result registers. -/
structure Buffers (s : State) : Prop where
  legal : Config.legal s.caps = true
  inWf : s.inBuf.wf = true
  inBelow : s.inBuf.below s.caps.inCap = true
  outWf : s.outBuf.wf = true
  outBelow : s.outBuf.below s.caps.outCap = true
  len : s.outLen.toNat ≤ s.caps.outCap
  written : ∀ k < s.outLen.toNat, (s.outBuf.read k).isSome

theorem inv_iff (s : State) : s.Inv ↔ Buffers s ∧ (s.busy = true → s.BusyOk) ∧ s.EngineOk := by
  constructor
  · rintro ⟨a, b, c, d, e, f, g, h, i⟩
    exact ⟨⟨a, b, c, d, e, f, g⟩, h, i⟩
  · rintro ⟨⟨a, b, c, d, e, f, g⟩, h, i⟩
    exact ⟨a, b, c, d, e, f, g, h, i⟩

theorem Buffers.inv_idle {s : State} (m : Buffers s) (h : s.phase = .idle) : s.Inv := by
  rw [inv_iff]
  refine ⟨m, fun hb => ?_, ?_⟩
  · simp at hb; exact absurd h hb
  · unfold State.EngineOk; rw [h]; trivial

/-- The error entry keeps the invariant (60_exceptions.md R304). -/
theorem Buffers.inv_raise {s : State} (m : Buffers s) (e : ErrCode) : (raise e s).Inv :=
  inv_idle ⟨m.legal, m.inWf, m.inBelow, rfl, rfl, by simp, by simp⟩ rfl

/-- A command is running: all of the invariant but the engine's registers and the phase's command. -/
structure Running (s : State) : Prop where
  buffers : Buffers s
  alg : s.eng.cmdAlg.getLsbD 1 = false
  inLenL : s.eng.inLenL ≤ s.caps.inCap
  outPos : s.eng.outPos ≤ s.caps.outCap
  put : ∀ k < s.eng.outPos, (s.outBuf.read k).isSome
  outLen : s.outLen = 0
  err : s.err = .none
  done : s.done = false

theorem inv_busy {s : State} (hb : s.busy = true) :
    s.Inv ↔ Running s ∧ s.phase.command = some (s.eng.cmdAlg.getLsbD 0, s.eng.cmdMode) ∧ s.EngineOk := by
  rw [inv_iff]
  constructor
  · rintro ⟨m, b, e⟩
    obtain ⟨a1, a2, a3, a4, a5, a6, a7, a8⟩ := b hb
    exact ⟨⟨m, a2, a3, a4, a5, a6, a7, a8⟩, a1, e⟩
  · rintro ⟨r, a1, e⟩
    exact ⟨r.buffers, fun _ => ⟨a1, r.alg, r.inLenL, r.outPos, r.put, r.outLen, r.err, r.done⟩, e⟩

namespace Running

variable {s : State}

theorem inv (r : Running s) (h : s.phase.command = some (s.eng.cmdAlg.getLsbD 0, s.eng.cmdMode)) (e : s.EngineOk) :
    s.Inv := by
  have hb : s.busy = true := by
    simp only [busy_eq_true]
    intro hh
    rw [hh] at h
    cases h
  exact (inv_busy hb).2 ⟨r, h, e⟩

/-- Phase and engine registers may change, the latch and OUT_POS apart. -/
theorem update (r : Running s) (p : Phase) (e : Engine) (h1 : e.cmdAlg = s.eng.cmdAlg) (h2 : e.inLenL = s.eng.inLenL)
    (h3 : e.outPos = s.eng.outPos) : Running { s with phase := p, eng := e } := by
  obtain ⟨⟨m1, m2, m3, m4, m5, m6, m7⟩, b1, b2, b3, b4, b5, b6, b7⟩ := r
  exact ⟨⟨m1, m2, m3, m4, m5, m6, m7⟩, by simpa [h1], by simpa [h2], by simpa [h3], by simpa [h3], b5, b6, b7⟩

theorem emit (r : Running s) {bs : List Byte} (h : s.eng.outPos + bs.length ≤ s.caps.outCap) :
    Running (s.emit bs) := by
  obtain ⟨⟨m1, m2, m3, m4, m5, m6, m7⟩, b1, b2, b3, b4, b5, b6, b7⟩ := r
  refine ⟨⟨m1, m2, m3, Memory.wf_writeRun _ _ m4, Memory.below_writeRun _ m5 h, m6, ?_⟩, b1, b2, h, ?_, b5, b6, b7⟩
  · intro k hk
    simp [b5] at hk
  · intro k hk
    simp only [emit_eng, emit_outBuf, Memory.read_writeRun] at hk ⊢
    split
    · rfl
    · exact b4 k (by omega)

theorem putOuts (r : Running s) {bs : List Byte} {t : State} (h : putOuts bs s = .ok t) :
    Running t ∧ t = s.emit bs := by
  obtain ⟨a, rfl⟩ := putOuts_ok r.outPos h
  exact ⟨r.emit a, rfl⟩

theorem packOut (r : Running s) {w : BitWriter × List Byte} {t : State} (h : packOut w s = .ok t) :
    Running t ∧ t = (s.setBw w.1).emit w.2 :=
  (r.update s.phase { s.eng with bw := w.1 } rfl rfl rfl).putOuts h

/-- Completion keeps the invariant (40_commands.md R138). -/
theorem complete (r : Running s) : (complete s).Inv := by
  have hl := (legal_iff _).1 r.buffers.legal
  have hp := r.outPos
  have e : (BitVec.ofNat 32 s.eng.outPos).toNat = s.eng.outPos := by
    simp only [BitVec.toNat_ofNat]
    apply Nat.mod_eq_of_lt
    omega
  refine Buffers.inv_idle ⟨r.buffers.legal, r.buffers.inWf, r.buffers.inBelow, r.buffers.outWf, r.buffers.outBelow,
    ?_, ?_⟩ rfl
  · show (BitVec.ofNat 32 s.eng.outPos).toNat ≤ _
    rw [e]
    exact hp
  · show ∀ k < (BitVec.ofNat 32 s.eng.outPos).toNat, _
    rw [e]
    exact r.put

theorem finishOut (r : Running s) {t : State} (h : finishOut s = .ok t) : t.Inv := by
  unfold Machine.finishOut at h
  split at h <;> cases h
  rename_i h1
  exact (r.packOut h1).1.complete

theorem settle (r : Running s) {x : Except ErrCode State} (h : ∀ t, x = .ok t → t.Inv) : (settle s x).Inv := by
  cases x with
  | ok t => exact h t rfl
  | error e => exact r.buffers.inv_raise e

end Running

end Sys2Proof.Machine
end

