-- ==== Sys2Proof/Laws/Outcomes.lean ====
section
/-! SUPPORT. Runs to the end of a command (40_commands.md R138, R139, R141): what is left of a run (`Ends`), how a step
takes from it, and the rest of a run in each engine's phases. -/

namespace Sys2Proof.Machine

open Sys2Proof

/-! ### Runs -/

/-- A run in two parts. -/
theorem run_next {k s t} (h : Sys2Proof.core.run k s = .next t) (n : Nat) :
    Sys2Proof.core.run (k + n) s = Sys2Proof.core.run n t := by
  induction k generalizing s with
  | zero => cases h; rw [Nat.zero_add]
  | succ k ih =>
    rw [show k + 1 + n = (k + n) + 1 by omega]
    simp only [Host.Core.run] at h ⊢
    split at h
    · exact ih h
    · cases h
    · cases h

/-- The host does nothing: the turn is the sequencer's. -/
theorem step_seq {t : State} (h : t.hostQueue = []) : Machine.step t = seqStep t := by simp [Machine.step, turn, h]

/-! ### What is left of a run -/

/-- `v` is `t` with the bytes `bs` put out, and with any change of the sequencer's registers. -/
structure Emitted (t : State) (bs : List Byte) (v : State) : Prop where
  kept : HostKept t v
  pos : v.eng.outPos = t.eng.outPos + bs.length
  buf : v.outBuf = t.outBuf.writeRun t.eng.outPos bs
  epoch : v.outEpoch = t.outEpoch

/-- The run from `t` ends in IDLE as a command that has still to put out `o` and then to end with `e` ends
(40_commands.md R138, R139, R141). -/
def Ends (t : State) (o : List Byte) (e : ErrCode) : Prop :=
  ∃ k u, endsAt t k u ∧ u.done = true ∧ HostKept t u ∧
    if t.caps.outCap < t.eng.outPos + o.length then u.err = .outputOverflow ∧ u.outLen = 0
    else if e = .none then u.err = .none ∧ u.outLen = BitVec.ofNat 32 (t.eng.outPos + o.length) ∧
      u.outBuf = t.outBuf.writeRun t.eng.outPos o ∧ u.outEpoch = t.outEpoch
    else u.err = e ∧ u.outLen = 0

/-- A step that puts out `bs`, or raises OUTPUT_OVERFLOW if they do not fit. -/
theorem Ends.step {t v t' : State} {bs o e} (hv : Emitted t bs v) (hk : HostKept t t')
    (hs : step t = .next (if t.eng.outPos + bs.length ≤ t.caps.outCap then v else raise .outputOverflow t'))
    (h : t.eng.outPos + bs.length ≤ t.caps.outCap → Ends v o e) : Ends t (bs ++ o) e := by
  by_cases hf : t.eng.outPos + bs.length ≤ t.caps.outCap
  · rw [if_pos hf] at hs
    obtain ⟨k, u, h1, h2, h3, h4⟩ := h hf
    refine ⟨k + 1, u, endsAt_succ hs h1, h2, hv.kept.trans h3, ?_⟩
    rw [hv.kept.caps, hv.pos] at h4
    rw [List.length_append, ← Nat.add_assoc, Memory.writeRun_append]
    split
    · rename_i hh; rw [if_pos hh] at h4; exact h4
    · rename_i hh
      rw [if_neg hh] at h4
      split
      · rename_i he
        rw [if_pos he] at h4
        rw [← hv.buf, ← hv.pos, ← hv.epoch]
        rw [← hv.pos] at h4
        exact h4
      · rename_i he; rw [if_neg he] at h4; exact h4
  · rw [if_neg hf] at hs
    refine ⟨1, raise .outputOverflow t', endsAt_succ hs ⟨rfl, rfl⟩, rfl, hk.trans (.raise _ _), ?_⟩
    rw [if_pos (by rw [List.length_append]; omega)]
    exact ⟨rfl, rfl⟩

/-- A step that puts out nothing. -/
theorem Ends.move {t v : State} {o e} (hv : Emitted t [] v) (hs : Machine.step t = .next v) (h : Ends v o e) :
    Ends t o e := by
  obtain ⟨k, u, h1, h2, h3, h4⟩ := h
  refine ⟨k + 1, u, endsAt_succ hs h1, h2, hv.kept.trans h3, ?_⟩
  have hp := hv.pos
  have hb := hv.buf
  simp at hp hb
  rw [hv.kept.caps, hp, hb, hv.epoch] at h4
  exact h4

/-- After the completion nothing is left. -/
theorem Ends.complete {v : State} (h : v.eng.outPos ≤ v.caps.outCap) : Ends (complete v) [] .none := by
  refine ⟨0, _, ⟨rfl, rfl⟩, rfl, .refl _, ?_⟩
  rw [if_neg (by simp; exact h), if_pos rfl]
  exact ⟨rfl, rfl, rfl, rfl⟩

/-- A step that raises. -/
theorem Ends.raise {t t' : State} {e} (he : e ≠ .none) (h : t.eng.outPos ≤ t.caps.outCap) (hk : HostKept t t')
    (hs : Machine.step t = .next (raise e t')) : Ends t [] e := by
  refine ⟨1, _, endsAt_succ hs ⟨rfl, rfl⟩, rfl, hk.trans (.raise _ _), ?_⟩
  rw [if_neg (by simp; exact h), if_neg he]
  exact ⟨rfl, rfl⟩

theorem Emitted.emit {t v : State} (h : Emitted t [] v) (bs) : Emitted t bs (v.emit bs) := by
  obtain ⟨k, p, b, e⟩ := h
  simp at p b
  refine ⟨k.trans (by constructor <;> rfl), by simp [p], by simp [p, b], by simp [e]⟩

theorem Emitted.complete {t v : State} {bs} (h : Emitted t bs v) : Emitted t bs (complete v) :=
  ⟨h.kept.trans (.complete _), h.pos, h.buf, h.epoch⟩

theorem Emitted.trans {t v w : State} {bs cs} (h : Emitted t bs v) (h' : Emitted v cs w) : Emitted t (bs ++ cs) w := by
  refine ⟨h.kept.trans h'.kept, ?_, ?_, h'.epoch.trans h.epoch⟩
  · rw [h'.pos, h.pos, List.length_append, Nat.add_assoc]
  · rw [h'.buf, h.buf, h.pos, Memory.writeRun_append]

theorem Emitted.update (t : State) (p : Phase) (e : Engine) (h : e.outPos = t.eng.outPos) :
    Emitted t [] { t with phase := p, eng := e } :=
  ⟨.update _ _ _, by simpa using h, rfl, rfl⟩

/-- A step whose one operation is a write of pairs, in full. -/
theorem settle_write (s v : State) (ps) (hc : v.caps = s.caps) (hv : v.eng.outPos = s.eng.outPos)
    (h : s.eng.outPos ≤ s.caps.outCap) (hb : v.eng.bw = s.eng.bw) :
    settle s (writeBits ps v) =
      if s.eng.outPos + (BitWriter.writeAll ps s.eng.bw).2.length ≤ s.caps.outCap then
        (v.setBw (BitWriter.writeAll ps s.eng.bw).1).emit (BitWriter.writeAll ps s.eng.bw).2
      else raise .outputOverflow s := by
  rw [writeBits_full _ _ (by rw [hv, hc]; exact h), hv, hc, hb]
  split <;> rfl

/-- A run ends in one state only. -/
theorem ends_unique {s : State} {k k' u u'} (h : endsAt s k u) (h' : endsAt s k' u') (hq : u.hostQueue = [])
    (hq' : u'.hostQueue = []) : u = u' := by
  have a := run_next h.1 k'
  have b := run_next h'.1 k
  rw [run_idle h.2 hq] at a
  rw [run_idle h'.2 hq'] at b
  rw [Nat.add_comm, a] at b
  cases b; rfl

/-! ### The packer -/

/-- The bytes that writing `ps` and then `Finish` put out from the BitWriter `w` (41_bitpacker.md R152, R153). -/
def flush (w : BitWriter) (ps : List (Nat × Nat)) : List Byte :=
    (BitWriter.writeAll ps w).2 ++ (BitWriter.writeAll ps w).1.finish.2

theorem flush_append (w ps qs) :
    flush w (ps ++ qs) = (BitWriter.writeAll ps w).2 ++ flush (BitWriter.writeAll ps w).1 qs := by
  unfold flush; rw [writeAll_append]; simp

theorem packed_flush (ps) : packed ps = flush BitWriter.empty ps := rfl

theorem range_cons (f : Nat → Byte) (n p : Nat) : (List.range (n+1)).map (fun i => f (p + i)) =
    f p :: (List.range n).map fun i => f (p + 1 + i) := by
  rw [List.range_succ_eq_map]
  simp [Function.comp_def, Nat.add_assoc, Nat.add_comm 1]

/-- `Finish`, then the completion (44_huffman_encoder.md R241). -/
theorem finish_ends {t : State} (ho : t.eng.outPos ≤ t.caps.outCap)
    (hv : Machine.step t = .next (settle t (finishOut t))) : Ends t t.eng.bw.finish.2 .none := by
  have e1 := (Emitted.update t t.phase { t.eng with bw := t.eng.bw.finish.1 } rfl).emit t.eng.bw.finish.2
  have : Ends t (t.eng.bw.finish.2 ++ []) .none := by
    refine Ends.step e1.complete (.refl t) ?_ (fun hf => Ends.complete (by rw [e1.pos, e1.kept.caps]; exact hf))
    rw [hv, finishOut_full _ ho]
    split <;> rfl
  rwa [List.append_nil] at this

theorem input_get (s : State) (i : Nat) (h : i < s.input.length) : s.inByte i = s.input.getD i 0 := by
  simp only [State.input, List.length_map, List.length_range] at h
  simp [State.input, List.getD_eq_getElem?_getD, h]

theorem length_input (s : State) : s.input.length = s.inLen.toNat := by simp [State.input]

/-! ### LZW -/

/-- The rest of a run of LZW.C from LZE_SCAN, with `n` bytes to read (42_lzw_encoder.md R175, R176). -/
theorem lze_ends (n : Nat) :
    ∀ t : State, t.phase = .lzeScan → t.hostQueue = [] → t.eng.outPos ≤ t.caps.outCap →
    t.eng.inPos + n = t.eng.inLenL →
    Ends t (flush t.eng.bw (((LzeRegs.scan t.caps.maxCodeWidth
      ((List.range n).map fun i => t.inByte (t.eng.inPos + i)) t.eng.lze).2 ++
      ((LzeRegs.scan t.caps.maxCodeWidth ((List.range n).map fun i => t.inByte (t.eng.inPos + i)) t.eng.lze).1.finish
        t.caps.maxCodeWidth).2))) .none := by
  induction n with
  | zero =>
    intro t hp hq ho hn
    have hs : Machine.step t = .next { t with phase := .lzeFinish } := by
      rw [step_seq hq]; simp only [seqStep, hp, lzeScan]; rw [if_neg (by omega)]
    refine Ends.move (Emitted.update t .lzeFinish t.eng rfl) hs ?_
    simp only [List.range_zero, List.map_nil, LzeRegs.scan, List.nil_append]
    generalize hr : t.eng.lze.finish t.caps.maxCodeWidth = r
    generalize ht : ({ t with phase := .lzeFinish } : State) = t1
    have hbw : t.eng.bw = t1.eng.bw := by subst ht; rfl
    have hr1 : t1.eng.lze.finish t1.caps.maxCodeWidth = r := by subst ht; exact hr
    have ho1 : t1.eng.outPos ≤ t1.caps.outCap := by subst ht; exact ho
    have hq1 : t1.hostQueue = [] := by subst ht; exact hq
    have hp1 : t1.phase = .lzeFinish := by subst ht; rfl
    rw [hbw]
    have e1 : Emitted t1 [] { t1 with eng := { t1.eng with lze := r.1 } } := Emitted.update t1 t1.phase _ rfl
    have e2 : Emitted t1 [] ({ t1 with eng := { t1.eng with lze := r.1 } }.setBw (BitWriter.writeAll r.2 t1.eng.bw).1)
      := Emitted.update t1 t1.phase _ rfl
    have e3 := e2.emit (BitWriter.writeAll r.2 t1.eng.bw).2
    generalize hz : (({ t1 with eng := { t1.eng with lze := r.1 } }.setBw (BitWriter.writeAll r.2 t1.eng.bw).1).emit
      (BitWriter.writeAll r.2 t1.eng.bw).2 : State) = z at e3
    have e4 : Emitted z [] (z.setBw (BitWriter.writeAll r.2 t1.eng.bw).1.finish.1) := Emitted.update z z.phase _ rfl
    have e5 := (e3.trans (e4.emit (BitWriter.writeAll r.2 t1.eng.bw).1.finish.2)).complete
    have hzb : z.eng.bw = (BitWriter.writeAll r.2 t1.eng.bw).1 := by subst hz; rfl
    have key : Ends t1 (flush t1.eng.bw r.2 ++ []) .none := by
      refine Ends.step e5 (.refl _) ?_ ?_
      · have hq : seqStep t1 = .next (lzeFinish t1) := by simp only [seqStep, hp1]
        rw [step_seq hq1, hq]
        unfold lzeFinish
        rw [hr1]
        simp only
        rw [writeBits_full r.2 { t1 with eng := { t1.eng with lze := r.1 } } ho1]
        simp only
        rw [show (flush t1.eng.bw r.2).length =
          (BitWriter.writeAll r.2 t1.eng.bw).2.length + (BitWriter.writeAll r.2 t1.eng.bw).1.finish.2.length
          from List.length_append]
        by_cases h1 : t1.eng.outPos + (BitWriter.writeAll r.2 t1.eng.bw).2.length ≤ t1.caps.outCap
        · rw [if_pos h1]
          simp only
          rw [hz, finishOut_full _ (by rw [e3.pos, e3.kept.caps]; exact h1), hzb, e3.pos, e3.kept.caps, Nat.add_assoc]
          split <;> rfl
        · rw [if_neg h1, if_neg (by omega)]; rfl
      · intro hf
        refine Ends.complete ?_
        have := (e3.trans (e4.emit (BitWriter.writeAll r.2 t1.eng.bw).1.finish.2))
        rw [this.pos, this.kept.caps]; exact hf
    rw [List.append_nil] at key
    exact key
  | succ n ih =>
    intro t hp hq ho hn
    rw [range_cons]
    generalize hb : t.inByte t.eng.inPos = b
    simp only [LzeRegs.scan]
    rw [List.append_assoc, flush_append]
    generalize hr : t.eng.lze.step t.caps.maxCodeWidth b = r
    have e1 : Emitted t [] (({ t with eng := { t.eng with inPos := t.eng.inPos + 1, lze := r.1 } } : State).setBw
      (BitWriter.writeAll r.2 t.eng.bw).1) := Emitted.update t t.phase _ rfl
    refine Ends.step (e1.emit _) (.refl _) ?_ ?_
    · have hs : seqStep t = .next (lzeScan t) := by simp only [seqStep, hp]
      rw [step_seq hq, hs]
      unfold lzeScan
      rw [if_pos (by omega), hb, hr]
      simp only
      rw [settle_write t { t with eng := { t.eng with inPos := t.eng.inPos + 1, lze := r.1 } } _ rfl rfl ho rfl]
    · intro hf
      exact ih ((({ t with eng := { t.eng with inPos := t.eng.inPos + 1, lze := r.1 } } : State).setBw
        (BitWriter.writeAll r.2 t.eng.bw).1).emit (BitWriter.writeAll r.2 t.eng.bw).2)
        hp hq hf (by simp; omega)

/-- The codes do not depend on LZE_MATCHED before the first byte. -/
theorem scan_fresh (mcw : Nat) (x : List Byte) (r : LzeRegs) (h1 : r.dict = []) (h2 : r.next = 257) (h3 : r.width = 9)
    (h4 : r.has = false) :
    (LzeRegs.scan mcw x r).2 ++ ((LzeRegs.scan mcw x r).1.finish mcw).2 = lzwCodes mcw x := by
  obtain ⟨ha, m, n, w, d⟩ := r
  simp only at h1 h2 h3 h4
  subst h1 h2 h3 h4
  unfold lzwCodes
  cases x with
  | nil => rfl
  | cons b x => rfl

/-- The rest of a run of LZW.D from a loop head (43_lzw_decoder.md R202 to R206). -/
theorem lzd_ends (x : List Byte) (mcw : Nat) : ∀ (fuel : Nat) (t : State), t.phase = .lzdLoop → t.hostQueue = [] →
    t.eng.outPos ≤ t.caps.outCap →
    t.caps.maxCodeWidth = mcw →
    t.eng.lzd.Ok mcw → (∀ p < 8 * x.length, t.bit p = listBit x p) → t.inBits = 8 * x.length →
      t.inBits - t.eng.brPos ≤ fuel →
    Ends t (lzdRun mcw (listBit x) (8 * x.length) fuel t.eng.lzd t.eng.brPos).1
      (lzdRun mcw (listBit x) (8 * x.length) fuel t.eng.lzd t.eng.brPos).2 := by
  intro fuel
  induction fuel with
  | zero =>
    intro t hp hq ho hm hok hb ht hf
    have hw := hok.2.2.1
    have hs : seqStep t = .next (complete t) := by
      have : fetchCode t = none := by
        unfold fetchCode readBits
        rw [if_pos (by omega)]
      have h2 : lzdLoop t = .next (complete t) := by unfold lzdLoop; rw [this]
      simp only [seqStep, hp]; exact h2
    exact Ends.move (Emitted.complete ⟨.refl _, rfl, rfl, rfl⟩) ((step_seq hq).trans hs) (Ends.complete ho)
  | succ fuel ih =>
    intro t hp hq ho hm hok hb ht hf
    have hw := hok.2.2.1
    have hs : seqStep t = lzdLoop t := by simp only [seqStep, hp]
    have hst := (step_seq hq).trans hs
    unfold lzdLoop fetchCode at hst
    rw [readBits_congr (by rw [ht]; exact hb), ht] at hst
    unfold lzdRun
    rcases readBits_cases (listBit x) (8 * x.length) t.eng.brPos t.eng.lzd.width with ⟨h, e⟩ | ⟨h, e⟩
    · rw [e] at hst ⊢
      simp only at hst ⊢
      exact Ends.move (Emitted.complete ⟨.refl _, rfl, rfl, rfl⟩) hst (Ends.complete ho)
    · rw [e] at hst ⊢
      simp only at hst ⊢
      generalize hc : gatherBits (listBit x) t.eng.lzd.width t.eng.brPos 0 = c at *
      have hclt : c < 2 ^ t.eng.lzd.width := by rw [← hc]; exact gatherBits_lt _ _ _
      generalize hv : ({ t with eng := { t.eng with brPos := t.eng.brPos + t.eng.lzd.width } } : State) = v at *
      have hl : v.eng.lzd = t.eng.lzd := by rw [← hv]
      have hcx : v.codeCtx = t.codeCtx := by rw [← hv]; rfl
      have hvE : Emitted t [] v := by rw [← hv]; exact Emitted.update t t.phase _ rfl
      have hvo : v.eng.outPos = t.eng.outPos := hvE.pos
      have hvc := hvE.kept.caps
      rw [← hcx, exec_code (by rw [hl]; exact hok), hl] at hst
      by_cases h256 : c = 256
      · rw [if_pos h256] at hst
        rw [if_pos (show c = Config.eos from h256)]
        exact Ends.move hvE.complete hst (Ends.complete (by rw [hvo, hvc]; exact ho))
      · rw [if_neg h256] at hst
        rw [if_neg (show ¬ c = Config.eos from h256)]
        cases hr : t.eng.lzd.resolve c with
        | none =>
          rw [hr] at hst
          simp only at hst ⊢
          exact Ends.raise (by decide) ho hvE.kept hst
        | some e =>
          rw [hr] at hst
          simp only at hst ⊢
          obtain ⟨r, q1, q2, q3⟩ := lzdAccept_full (s := v) (c := c) (e := e) (by rw [hl, hvc, hm]; exact hok)
            (by rw [hvo, hvc]; exact ho) (by rw [hl]; exact hr) (by rw [hl]; exact hclt)
          rw [q3] at hst
          rw [hl, hvc, hm] at q1
          rw [q1]
          simp only
          rw [hvo, hvc] at hst
          have e1 : Emitted t e ({ v.emit e with eng := { (v.emit e).eng with lzd := r } }) := by
            have := (hvE.emit e).trans (Emitted.update (v.emit e) (v.emit e).phase { (v.emit e).eng with lzd := r } rfl)
            rw [List.append_nil] at this
            exact this
          refine Ends.step e1 hvE.kept hst (fun hfit => ?_)
          have hbp : v.eng.brPos = t.eng.brPos + t.eng.lzd.width := by rw [← hv]
          have := ih ({ v.emit e with eng := { (v.emit e).eng with lzd := r } }) (by rw [← hv]; exact hp)
            (by rw [← hv]; exact hq)
            (by rw [e1.pos, e1.kept.caps]; exact hfit) (by rw [e1.kept.caps]; exact hm)
              (by rw [hvc, hm] at q2; exact q2)
            (by rw [← hv]; exact hb) (by rw [← hv]; exact ht) (by
              show v.inBits - v.eng.brPos ≤ fuel
              have : v.inBits = t.inBits := by rw [← hv]; rfl
              rw [this, hbp]; omega)
          rw [← hbp]
          exact this

/-- The output does not depend on LZD_PREV before the first code. -/
theorem lzdRun_fresh (mcw bit total fuel pos) (r : LzdRegs) :
    lzdRun mcw bit total fuel r.init pos = lzdRun mcw bit total fuel LzdRegs.fresh pos := by
  cases fuel with
  | zero => rfl
  | succ f =>
    unfold lzdRun
    have hw : r.init.width = LzdRegs.fresh.width := rfl
    rw [hw]
    split
    · rfl
    · rename_i c pos' _
      split
      · rfl
      · have h1 : r.init.resolve c = LzdRegs.fresh.resolve c := by
          simp [LzdRegs.resolve, LzdRegs.init, LzdRegs.fresh]
        rw [h1]
        split
        · rfl
        · rename_i e _
          have h2 : r.init.accept mcw c e = LzdRegs.fresh.accept mcw c e := by
            simp [LzdRegs.accept, LzdRegs.insert, LzdRegs.init, LzdRegs.fresh]
          rw [h2]

/-! ### Huffman -/

/-- A build does not depend on FREQ, CT and the old ROOT. -/
theorem build_over {total : Nat} (f : List Nat) (c : List (List Bool)) (r : Nat) : ∀ (fuel : Nat) (h : HufRegs),
    h.BuildOk total → h.active.length ≤ fuel →
    HufRegs.build fuel { h with freq := f, ct := c, root := r } = { HufRegs.build fuel h with freq := f, ct := c } := by
  intro fuel
  induction fuel with
  | zero => intro h hk hf; exact absurd (List.length_eq_zero_iff.1 (by omega)) hk.1
  | succ n ih =>
    intro h hk hf
    have key : ({ h with freq := f, ct := c, root := r } : HufRegs).buildStep =
      match h.buildStep with
      | none => none
      | some (.inl g) => some (.inl { g with freq := f, ct := c, root := r })
      | some (.inr g) => some (.inr { g with freq := f, ct := c }) := by
      simp only [HufRegs.buildStep]
      match ha : h.active with
      | [] => rfl
      | [r] => rfl
      | a :: b :: l =>
        simp only [HufRegs.merge, ha]
        cases h1 : popMin h.node (a :: b :: l) with
        | none => rfl
        | some q =>
          obtain ⟨q1, q2⟩ := q
          simp only
          cases h2 : popMin h.node q2 with
          | none => rfl
          | some q' => rfl
    simp only [HufRegs.build]
    rw [key]
    rcases buildStep_cases hk with ⟨r, ha, hs, ht⟩ | ⟨g, hs, hm, hk, hl, hfq, hnl⟩
    · rw [hs]
    · rw [hs]; simp only; rw [ih g hk (by omega)]

/-- The build of the machine is `BuildTree`, whatever FREQ, CT and ROOT hold. -/
theorem tree_over {l : List (Byte × Nat)} (h0 : l ≠ []) (hl : l.length ≤ 256) (hp : ∀ p ∈ l, 0 < p.2)
    (h g : HufRegs) :
    (HufRegs.leaves l h).build l.length = { HufRegs.tree l g with freq := h.freq, ct := h.ct } := by
  have := build_over h.freq h.ct h.root l.length (g.leaves l) (leaves_buildOk g h0 hl hp) (by simp [leaves_eq])
  unfold HufRegs.tree
  rw [← this]
  rw [leaves_eq, leaves_eq]

/-- The rest of a tree build, in either command (44_huffman_encoder.md R237). -/
theorem build_ends {total : Nat} (hue : Bool) (o e) : ∀ (fuel : Nat) (t : State), t.phase =
    (if hue then .hueBuild else .hudBuild) → t.hostQueue = [] →
    t.eng.huf.BuildOk total → t.eng.huf.active.length ≤ fuel →
    Ends (if hue then { t with phase := .hueCodegen, eng := { t.eng with huf := t.eng.huf.build fuel } }
      else { t with phase := .hudWalk, eng :=
        { t.eng with huf := t.eng.huf.build fuel, hud :=
        { t.eng.hud with symCnt := 0, walk := (t.eng.huf.build fuel).root } } }) o e →
    Ends t o e := by
  intro fuel
  induction fuel with
  | zero => intro t _ _ hk hf; exact absurd (List.length_eq_zero_iff.1 (by omega)) hk.1
  | succ n ih =>
    intro t hp hq hk hf h
    have hs : seqStep t = if hue then hueBuild t else hudBuild t := by
      cases hue
      · have : t.phase = .hudBuild := hp
        simp only [seqStep, this]; rfl
      · have : t.phase = .hueBuild := hp
        simp only [seqStep, this]; rfl
    have hst := (step_seq hq).trans hs
    unfold hueBuild hudBuild at hst
    rw [HufRegs.build] at h
    rcases buildStep_cases hk with ⟨r, ha, hb, ht⟩ | ⟨g, hb, hm, hk', hl, hfq, hnl⟩
    · rw [hb] at hst h
      simp only at hst h
      cases hue
      · rw [if_neg (by decide)] at hst h
        refine Ends.move ?_ hst h; exact Emitted.update t .hudWalk _ rfl
      · rw [if_pos rfl] at hst h
        refine Ends.move ?_ hst h; exact Emitted.update t .hueCodegen _ rfl
    · rw [hb] at hst h
      simp only at hst h
      refine Ends.move (v := { t with eng := { t.eng with huf := g } }) (Emitted.update t t.phase _ rfl)
        (by rw [hst]; split <;> rfl) ?_
      refine ih { t with eng := { t.eng with huf := g } } hp hq hk' (by simp only; omega) ?_
      exact h

/-- The rest of pass 1 (44_huffman_encoder.md R230). -/
theorem count_ends (n : Nat) (o e) : ∀ t : State, t.phase = .hueCount → t.hostQueue = [] →
    t.eng.inPos + n = t.eng.inLenL → t.eng.inLenL ≠ 0 →
    Ends { t with
      phase := .hueHeader
      eng := { t.eng with
        inPos := t.eng.inLenL
        huf := { t.eng.huf with
          freq := List.foldl countByte t.eng.huf.freq
            ((List.range n).map fun i => t.inByte (t.eng.inPos + i)) } } } o e →
    Ends t o e := by
  induction n with
  | zero =>
    intro t hp hq hn h0 h
    have hs : seqStep t = .next { t with phase := .hueHeader } := by
      have : hueCount t = { t with phase := .hueHeader } := by unfold hueCount; rw [if_neg (by omega), if_neg h0]
      rw [← this]; simp only [seqStep, hp]
    refine Ends.move (Emitted.update t .hueHeader t.eng rfl) ((step_seq hq).trans hs) ?_
    rw [← hn] at h
    exact h
  | succ n ih =>
    intro t hp hq hn h0 h
    have hs : seqStep t = .next { t with eng := { t.eng with
        inPos := t.eng.inPos + 1
        huf := { t.eng.huf with freq := countByte t.eng.huf.freq (t.inByte t.eng.inPos) } } } := by
      have h1 : seqStep t = .next (hueCount t) := by simp only [seqStep, hp]
      rw [h1]; unfold hueCount; rw [if_pos (by omega)]
    refine Ends.move ?_ ((step_seq hq).trans hs) ?_
    · exact Emitted.update t t.phase _ rfl
    refine ih _ hp hq (by simp only; omega) h0 ?_
    rw [range_cons, List.foldl_cons] at h
    exact h

/-- The rest of pass 2 (44_huffman_encoder.md R240, R241). -/
theorem payload_ends (n : Nat) :
    ∀ t : State, t.phase = .huePayload → t.hostQueue = [] → t.eng.outPos ≤ t.caps.outCap →
    t.eng.inPos + n = t.eng.inLenL →
    Ends t (flush t.eng.bw (((List.range n).map fun i => t.inByte (t.eng.inPos + i)).flatMap
      (payloadFields t.eng.huf.ct))) .none := by
  induction n with
  | zero =>
    intro t hp hq ho hn
    refine finish_ends ho ?_
    have hs : seqStep t = .next (huePayload t) := by simp only [seqStep, hp]
    rw [step_seq hq, hs]
    unfold huePayload
    rw [if_neg (by omega)]
  | succ n ih =>
    intro t hp hq ho hn
    rw [range_cons, List.flatMap_cons, flush_append]
    generalize hb : t.inByte t.eng.inPos = b
    have e1 : Emitted t [] (({ t with eng := { t.eng with inPos := t.eng.inPos + 1 } } : State).setBw
      (BitWriter.writeAll (payloadFields t.eng.huf.ct b) t.eng.bw).1) := Emitted.update t t.phase _ rfl
    refine Ends.step (e1.emit _) (.refl _) ?_ ?_
    · have hs : seqStep t = .next (huePayload t) := by simp only [seqStep, hp]
      rw [step_seq hq, hs]
      unfold huePayload
      rw [if_pos (by omega), hb]
      rw [settle_write t { t with eng := { t.eng with inPos := t.eng.inPos + 1 } } _ rfl rfl ho rfl]
    · intro hf
      exact ih ((({ t with eng := { t.eng with inPos := t.eng.inPos + 1 } } : State).setBw
        (BitWriter.writeAll (payloadFields t.eng.huf.ct b) t.eng.bw).1).emit
        (BitWriter.writeAll (payloadFields t.eng.huf.ct b) t.eng.bw).2)
        hp hq hf (by simp; omega)

/-- A run of HUF.C from its first step (44_huffman_encoder.md R242). -/
theorem hue_ends (t : State) (x : List Byte) (hp : t.phase = .hueCount) (hq : t.hostQueue = [])
    (ho : t.eng.outPos ≤ t.caps.outCap)
    (hbw : t.eng.bw = BitWriter.empty) (hi : t.eng.inPos = 0) (hf : t.eng.huf.freq = clearFreq)
      (hn : x.length = t.eng.inLenL)
    (hx : x = (List.range t.eng.inLenL).map t.inByte) : Ends t (huffmanCompress x) .none := by
  unfold huffmanCompress
  by_cases h0 : x = []
  · rw [if_pos h0]
    subst h0
    have h0 : t.eng.inLenL = 0 := by simpa using hn.symm
    have hs : seqStep t = .next (complete t) := by
      have : hueCount t = complete t := by unfold hueCount; rw [if_neg (by omega), if_pos h0]
      rw [← this]; simp only [seqStep, hp]
    exact Ends.move (Emitted.complete ⟨.refl _, rfl, rfl, rfl⟩) ((step_seq hq).trans hs) (Ends.complete ho)
  · rw [if_neg h0]
    have hlen : t.eng.inLenL ≠ 0 := by rw [← hn]; simpa using h0
    refine count_ends t.eng.inLenL _ _ t hp hq (by omega) hlen ?_
    have hm : ((List.range t.eng.inLenL).map fun i => t.inByte (t.eng.inPos + i)) = x := by
      rw [hx, hi]; simp
    rw [hm, hf, show x.foldl countByte clearFreq = countAll x from rfl]
    generalize hv : ({ t with phase := .hueHeader, eng :=
      { t.eng with inPos := t.eng.inLenL, huf := { t.eng.huf with freq := countAll x } } } : State) = v
    have hq1 : v.hostQueue = [] := by rw [← hv]; exact hq
    have hp1 : v.phase = .hueHeader := by rw [← hv]
    have hl1 : v.eng.inLenL = x.length := by rw [← hv]; exact hn.symm
    have hfr1 : v.eng.huf.freq = countAll x := by rw [← hv]
    have hb1 : v.eng.bw = BitWriter.empty := by rw [← hv]; exact hbw
    have ho1 : v.eng.outPos ≤ v.caps.outCap := by rw [← hv]; exact ho
    have hin1 : v.inByte = t.inByte := by rw [← hv]; rfl
    rw [packed_flush, flush_append]
    generalize hlst : symbols (countAll x) = l
    have hl0 : l ≠ [] := by rw [← hlst]; exact symbols_ne_nil h0
    have hl256 : l.length ≤ 256 := by rw [← hlst]; exact length_symbols_le _
    have hlp : ∀ p ∈ l, 0 < p.2 := by rw [← hlst]; exact fun p hp => (mem_symbols.1 hp).2
    generalize hw : BitWriter.writeAll (headerFields l x.length) BitWriter.empty = w
    have e1 := (Emitted.update v .hueBuild { v.eng with huf := v.eng.huf.leaves l, bw := w.1 } rfl).emit w.2
    refine Ends.step e1 (.refl v) ?_ (fun hfit => ?_)
    · have hs : seqStep v = .next (hueHeader v) := by simp only [seqStep, hp1]
      rw [step_seq hq1, hs]
      unfold hueHeader
      rw [hfr1, hlst, hl1]
      simp only
      rw [settle_write v { v with phase := .hueBuild, eng := { v.eng with huf := v.eng.huf.leaves l } } _ rfl rfl ho1
        rfl, hb1, hw]
      rfl
    · generalize hz : State.emit w.2 { v with phase := .hueBuild, eng :=
        { v.eng with huf := v.eng.huf.leaves l, bw := w.1 } } = z at *
      have hfit' : z.eng.outPos ≤ z.caps.outCap := by rw [e1.pos, e1.kept.caps]; exact hfit
      have hzh : z.eng.huf = v.eng.huf.leaves l := by rw [← hz]; rfl
      refine build_ends (total := (l.map Prod.snd).sum) true _ _ l.length z (by rw [← hz]; rfl)
        (by rw [← hz]; exact hq1) (by rw [hzh]; exact leaves_buildOk _ hl0 hl256 hlp)
        (by rw [hzh, leaves_eq]; simp) ?_
      rw [if_pos rfl]
      rw [hzh, tree_over hl0 hl256 hlp v.eng.huf ({ Engine.zero.huf with freq := countAll x } : HufRegs), hfr1]
      have htr : ({ HufRegs.tree l { Engine.zero.huf with freq := countAll x } with freq := countAll x, ct :=
        v.eng.huf.ct } : HufRegs) = { hufTree x with ct := v.eng.huf.ct } := by
        unfold hufTree; rw [hlst, tree_freq]
      rw [htr]
      generalize hy : ({ z with phase := .hueCodegen, eng :=
        { z.eng with huf := { hufTree x with ct := v.eng.huf.ct } } } : State) = y
      have hyq : y.hostQueue = [] := by rw [← hy, ← hz]; exact hq1
      have hs : seqStep y = .next (hueCodegen y) := by
        have : y.phase = .hueCodegen := by rw [← hy]
        simp only [seqStep, this]
      have hcodes : y.eng.huf.codes = (hufTree x).codes := by rw [← hy]; rfl
      have e2 : Emitted y [] (hueCodegen y) := Emitted.update y .huePayload _ rfl
      refine Ends.move e2 ((step_seq hyq).trans hs) ?_
      have hy1 : y.eng.inLenL = x.length := by rw [← hy, ← hz]; exact hl1
      have := payload_ends x.length (hueCodegen y) rfl hyq
        (by rw [← hy]; show z.eng.outPos ≤ z.caps.outCap; exact hfit')
        (by show 0 + x.length = _; rw [Nat.zero_add]; exact hy1.symm)
      have hbwy : (hueCodegen y).eng.bw = w.1 := by rw [← hy, ← hz]; rfl
      have hct : (hueCodegen y).eng.huf.ct = (hufTree x).codes := hcodes
      have hip : (hueCodegen y).eng.inPos = 0 := rfl
      have hin : (hueCodegen y).inByte = t.inByte := by rw [← hin1, ← hy, ← hz]; rfl
      rw [hbwy, hct, hip, hin] at this
      simp only [Nat.zero_add] at this
      rw [show (List.map (fun i => t.inByte i) (List.range x.length)) = x by rw [hn]; exact hx.symm] at this
      exact this

theorem hudPair_congr {f g : Nat → Bool} {total : Nat} (h : ∀ p < total, f p = g p) (r : HeaderRead) :
    hudPair f total r = hudPair g total r := by
  unfold hudPair
  simp only [readBits_congr h]

theorem hudPairs_congr {f g : Nat → Bool} {total : Nat} (h : ∀ p < total, f p = g p) (d : Nat) (r : HeaderRead) :
    hudPairs f total d r = hudPairs g total d r := by
  induction d generalizing r with
  | zero => rfl
  | succ d ih =>
    unfold hudPairs
    rw [hudPair_congr h]
    split <;> simp [ih]

/-- The header depends only on the bits of the stream. -/
theorem readHeader_congr {f g : Nat → Bool} {total : Nat} (h : ∀ p < total, f p = g p) :
    readHeader f total = readHeader g total := by
  unfold readHeader
  simp only [readBits_congr h, hudPairs_congr h]

/-- The rest of a walk (45_huffman_decoder.md R265 to R267). -/
theorem walk_ends (x : List Byte) (nodes : List Node) (root n : Nat) :
    ∀ (fuel : Nat) (t : State), t.phase = .hudWalk → t.hostQueue = [] →
    t.eng.outPos ≤ t.caps.outCap → t.eng.huf.node = nodes → t.eng.huf.root = root → t.eng.hud.n = n →
    (∀ p < 8 * x.length, t.bit p = listBit x p) → t.inBits = 8 * x.length → t.inBits - t.eng.brPos < fuel →
    Ends t (hudRun nodes root n (listBit x) (8 * x.length) fuel t.eng.brPos t.eng.hud.walk t.eng.hud.symCnt).1
      (hudRun nodes root n (listBit x) (8 * x.length) fuel t.eng.brPos t.eng.hud.walk t.eng.hud.symCnt).2 := by
  intro fuel
  induction fuel with
  | zero => intro t _ _ _ _ _ _ _ _ h; omega
  | succ fuel ih =>
    intro t hp hq ho hnd hrt hn hb ht hf
    have hs : seqStep t = .next (hudWalk t) := by simp only [seqStep, hp]
    have hst := (step_seq hq).trans hs
    unfold hudWalk at hst
    rw [hn] at hst
    unfold hudRun
    by_cases hc : t.eng.hud.symCnt < n
    · rw [if_pos hc] at hst ⊢
      unfold hudWalkBit at hst
      rw [readBits_congr (by rw [ht]; exact hb), ht] at hst
      rcases readBits_cases (listBit x) (8 * x.length) t.eng.brPos 1 with ⟨h, e⟩ | ⟨h, e⟩
      · rw [e] at hst ⊢
        simp only at hst ⊢
        exact Ends.raise (by decide) ho (.refl t) hst
      · rw [e] at hst ⊢
        simp only at hst ⊢
        rw [hnd, hrt] at hst
        generalize walkBit nodes root t.eng.hud.walk (gatherBits (listBit x) 1 t.eng.brPos 0 != 0) = r at *
        have e1 := (Emitted.update t t.phase { t.eng with
          brPos := t.eng.brPos + 1
          hud := { t.eng.hud with walk := r.2, symCnt := t.eng.hud.symCnt + r.1.toList.length } } rfl).emit r.1.toList
        refine Ends.step e1 (.refl t) ?_ (fun hfit => ?_)
        · rw [hst, putOuts_eq _ { t with eng := { t.eng with
            brPos := t.eng.brPos + 1
            hud := { t.eng.hud with walk := r.2, symCnt := t.eng.hud.symCnt + r.1.toList.length } } } ho]
          simp only
          split <;> rfl
        · exact ih (State.emit r.1.toList { t with eng := { t.eng with
            brPos := t.eng.brPos + 1
            hud := { t.eng.hud with walk := r.2, symCnt := t.eng.hud.symCnt + r.1.toList.length } } }) hp hq hfit hnd
              hrt hn hb ht (by
              show t.inBits - (t.eng.brPos + 1) < fuel
              omega)
    · rw [if_neg hc] at hst ⊢
      exact Ends.move (Emitted.complete ⟨.refl _, rfl, rfl, rfl⟩) hst (Ends.complete ho)

/-- A run of HUF.D from its first step (45_huffman_decoder.md R268). -/
theorem hud_ends (t : State) (x : List Byte) (hp : t.phase = .hudHeader) (hq : t.hostQueue = [])
    (ho : t.eng.outPos ≤ t.caps.outCap)
    (hb : ∀ p < 8 * x.length, t.bit p = listBit x p) (hn : x.length = t.eng.inLenL) :
    Ends t (huffmanDecompress x).1 (huffmanDecompress x).2 := by
  have ht : t.inBits = 8 * x.length := by rw [hn]; rfl
  have hs : seqStep t = .next (hudHeader t) := by simp only [seqStep, hp]
  have hst := (step_seq hq).trans hs
  unfold hudHeader at hst
  unfold huffmanDecompress
  by_cases h0 : x = []
  · rw [if_pos h0]
    rw [if_pos (by rw [← hn, h0]; rfl)] at hst
    exact Ends.move (Emitted.complete ⟨.refl _, rfl, rfl, rfl⟩) hst (Ends.complete ho)
  · rw [if_neg h0]
    rw [if_neg (by rw [← hn]; simpa using h0)] at hst
    unfold hudHeaderRead at hst
    rw [ht, readHeader_congr hb] at hst
    cases hr : readHeader (listBit x) (8 * x.length) with
    | error e =>
      rw [hr] at hst
      refine Ends.raise (t := t) (e := e) ?_ ho (.refl t) hst
      rcases readHeader_error hr with rfl | rfl <;> decide
    | ok q =>
      obtain ⟨d, h, n, pos⟩ := q
      rw [hr] at hst
      simp only at hst ⊢
      obtain ⟨k1, k2, k3, k4, k5, k6, k7, -⟩ := readHeader_ok hr
      by_cases hd : d = 0
      · rw [if_pos hd]
        rw [if_pos hd] at hst
        refine Ends.move ?_ hst (Ends.complete ho)
        exact Emitted.complete (v := { t with eng := _ }) (Emitted.update t t.phase _ rfl)
      · rw [if_neg hd]
        rw [if_neg hd] at hst
        refine Ends.move ?_ hst ?_
        · exact Emitted.update t .hudBuild _ rfl
        have hl0 : h.leaves ≠ [] := by intro hh; rw [hh] at k2; simp at k2; omega
        have hl256 : h.leaves.length ≤ 256 := by omega
        have hlp : ∀ p ∈ h.leaves, 0 < p.2 := fun p hp => (k3.freqs p hp).1
        refine build_ends (total := (h.leaves.map Prod.snd).sum) false _ _ h.leaves.length _ rfl hq
          (leaves_buildOk _ hl0 hl256 hlp) (by simp [leaves_eq]) ?_
        rw [if_neg (by decide)]
        have e := tree_over hl0 hl256 hlp t.eng.huf Engine.zero.huf
        simp only [settle_ok]
        rw [e]
        exact walk_ends x _ _ _ _ ({ t with phase := .hudWalk, eng := { t.eng with
          brPos := pos
          huf := { HufRegs.tree h.leaves Engine.zero.huf with freq := t.eng.huf.freq, ct := t.eng.huf.ct }
          hud := { d := d, n := n, sum := h.sum, last := h.last, symCnt := 0, walk :=
            (HufRegs.tree h.leaves Engine.zero.huf).root } } } : State)
          rfl hq ho rfl rfl rfl hb ht (by show t.inBits - pos < _; omega)

end Sys2Proof.Machine
end

