-- ==== Sys2Proof/Laws/PerInstr.lean ====
section
/-! SUPPORT. Family DecodeEncode: one lemma per instruction, that its encoding decodes to it with every operand. -/

namespace Sys2Proof.Laws.DecodeEncode

/-- Decoding what the encoder writes for a well-formed instruction gives it back. -/
def Statement (i : Instr) : Prop := ∀ ctx : CodeCtx, wellFormed ctx i = true → decode ctx (encode i) = i

theorem cfg (mode : Bool) (alg : BitVec 2) (ie : Bool) : Statement (.cfg mode alg ie) := by
  intro ctx _
  simp [decode, encode, decodeCtrl]

theorem lzwC (ie : Bool) : Statement (.lzwC ie) := by
  intro ctx _
  simp [decode, encode, decodeCtrl]

theorem lzwD (ie : Bool) : Statement (.lzwD ie) := by
  intro ctx _
  simp [decode, encode, decodeCtrl]

theorem hufC (ie : Bool) : Statement (.hufC ie) := by
  intro ctx _
  simp [decode, encode, decodeCtrl]

theorem hufD (ie : Bool) : Statement (.hufD ie) := by
  intro ctx _
  simp [decode, encode, decodeCtrl]

theorem illegal (mode : Bool) (alg : BitVec 2) (ie : Bool) : Statement (.illegal mode alg ie) := by
  intro ctx h
  have h0 : alg ≠ 0#2 := by rintro rfl; simp [wellFormed] at h
  have h1 : alg ≠ 1#2 := by rintro rfl; simp [wellFormed] at h
  simp [decode, encode, decodeCtrl, h0, h1]

theorem wrReg (idx : BitVec 28) (v : Word) : Statement (.wrReg idx v) := by
  intro ctx h
  have h0 : idx ≠ 0#28 := by simpa [wellFormed] using h
  simp [decode, encode, decodeTxn, h0]

theorem rdReg (idx : BitVec 28) : Statement (.rdReg idx) := by
  intro ctx _
  simp [decode, encode, decodeTxn]

theorem wrIn (i : BitVec 30) (b : Byte) : Statement (.wrIn i b) := by
  intro ctx _
  simp [decode, encode, decodeTxn]

theorem rdIn (i : BitVec 30) : Statement (.rdIn i) := by
  intro ctx _
  simp [decode, encode, decodeTxn]

theorem rdOut (k : BitVec 30) : Statement (.rdOut k) := by
  intro ctx _
  simp [decode, encode, decodeTxn]

theorem wrOut (k : BitVec 30) (b : Byte) : Statement (.wrOut k b) := by
  intro ctx _
  simp [decode, encode, decodeTxn]

theorem rsv (dir : Dir) (a : BitVec 30) (d : Word) : Statement (.rsv dir a d) := by
  intro ctx _
  simp [decode, encode, decodeTxn]

theorem lzwLit (b : Byte) : Statement (.lzwLit b) := by
  intro ctx _
  have hb := b.isLt
  have h1 : b.toNat ≠ Config.eos := by simp [Config.eos]; omega
  have h2 : b.toNat ≤ 255 := by omega
  simp [decode, encode, decodeCode, h1, h2]

theorem lzwEos : Statement .lzwEos := by
  intro ctx _
  simp [decode, encode, decodeCode]

theorem lzwRef (c : Nat) : Statement (.lzwRef c) := by
  intro ctx h
  simp [wellFormed, Config.firstCode] at h
  have h1 : c ≠ 256 := by omega
  have h2 : ¬ c ≤ 255 := by omega
  simp [decode, encode, decodeCode, Config.eos, Config.firstCode, h1, h2, h.1.1, h.1.2]

theorem lzwKwkwk (c : Nat) : Statement (.lzwKwkwk c) := by
  intro ctx h
  simp [wellFormed, Config.firstCode] at h
  have h1 : c ≠ 256 := by omega
  have h2 : ¬ c ≤ 255 := by omega
  simp [decode, encode, decodeCode, Config.eos, Config.firstCode, h1, h2, ← h.1.1.2, h.1.2]

theorem lzwBad (c : Nat) : Statement (.lzwBad c) := by
  intro ctx h
  simp only [wellFormed, Bool.and_eq_true, Bool.or_eq_true, decide_eq_true_eq, beq_iff_eq, Bool.not_eq_true',
    Config.firstCode] at h
  have h1 : c ≠ 256 := by omega
  have h2 : ¬ c ≤ 255 := by omega
  have h3 : ¬ (257 ≤ c ∧ c < ctx.next) := by omega
  have h4 : ¬ (c = ctx.next ∧ ctx.has = true) := by
    rintro ⟨rfl, hh⟩
    simp [hh] at h
  simp [decode, encode, decodeCode, Config.eos, Config.firstCode, h1, h2, h3, h4]

end Sys2Proof.Laws.DecodeEncode
end

