-- ==== Sys2Proof/Tests/Slice0.lean ====
section
/-! SUPPORT. The model's own tests: the WellFormed checks, one written-out word per instruction, one step per
instruction with the result that spec/95_test_vectors.md or the cited rule gives, and a witness for every statement
with hypotheses. -/

namespace Sys2Proof.Tests

open Sys2Proof.Machine Sys2Proof.Claims

/-! ### The small states -/

/-- The block after reset with `bs` in IN and IN_LEN = `n`. -/
def loaded (bs : List Byte) (n : Nat) : State :=
  { State.reset with inBuf := bs.zipIdx.map fun p => (p.2, p.1), inLen := BitVec.ofNat 32 n }

/-- The state of a next outcome; the given one on a stop. -/
def after (r : Result) (s : State) : State :=
  match r with
  | .next t => t
  | .fault _ => s
  | .refused _ => s

/-- A next outcome. -/
def runs (r : Result) : Bool :=
  match r with
  | .next _ => true
  | .fault _ => false
  | .refused _ => false

/-- The block right after an accepted `i` on the input `bs`. -/
def started (i : Instr) (bs : List Byte) : State := after (exec i (loaded bs bs.length)) State.reset

/-- LZW.D running with the decoder's registers `r` and the OUT buffer full up to `pos`. -/
def decoding (r : LzdRegs) (pos : Nat) : State :=
  { State.reset with
    phase := .lzdLoop
    eng := { Engine.zero with cmdMode := true, outPos := pos, lzd := r } }

/-- The decoder before its first code. -/
def decoderStart : LzdRegs := LzdRegs.fresh

/-- The decoder after the codes 65, 66 (V-LC5's stream): "AB" is 257. -/
def decoderAB : LzdRegs :=
  { has := true, prev := 66, next := 258, width := 9, tab := [{ code := 257, pre := 65, last := 0x42, first := 0x41 }] }

/-- The decoder after the code 65 (V-LD7's stream). -/
def decoderA : LzdRegs := { has := true, prev := 65, next := 257, width := 9, tab := [] }

/-- A full table of the smallest width, 257 to 511, each entry a literal plus a byte. -/
def decoderFull : LzdRegs :=
  { has := true, prev := 65, next := 512, width := 9
    tab := (List.range' 257 255).reverse.map fun c => { code := c, pre := 65, last := 0x42, first := 0x41 } }

/-- The smallest parameters, but for one OUT byte more. -/
def smallCaps : Params := { maxCodeWidth := 9, inCap := 1, outCap := 2 }

/-! ### WellFormed refuses what no word encodes -/

theorem test_illegal_needs_reserved_alg :
    wellFormed default (.illegal false 0 false) = false ∧ wellFormed default (.illegal true 1 true) = false := by
  decide

theorem test_wrReg_is_not_at_ctrl : wellFormed default (.wrReg 0 5) = false := by decide

theorem test_lit_needs_nine_bits : wellFormed { next := 257, has := true, width := 8 } (.lzwLit 1) = false := by
  decide

theorem test_eos_needs_nine_bits : wellFormed { next := 257, has := true, width := 8 } .lzwEos = false := by decide

theorem test_ref_is_between_257_and_next :
    wellFormed { next := 260, has := true, width := 9 } (.lzwRef 256) = false ∧
    wellFormed { next := 260, has := true, width := 9 } (.lzwRef 260) = false ∧
    wellFormed { next := 600, has := true, width := 9 } (.lzwRef 512) = false := by decide

theorem test_kwkwk_is_next_after_a_code :
    wellFormed { next := 260, has := true, width := 9 } (.lzwKwkwk 259) = false ∧
    wellFormed { next := 260, has := false, width := 9 } (.lzwKwkwk 260) = false ∧
    wellFormed { next := 512, has := true, width := 9 } (.lzwKwkwk 512) = false ∧
    wellFormed { next := 256, has := true, width := 9 } (.lzwKwkwk 256) = false := by decide

theorem test_bad_is_above_next :
    wellFormed { next := 260, has := true, width := 9 } (.lzwBad 260) = false ∧
    wellFormed { next := 260, has := true, width := 9 } (.lzwBad 255) = false ∧
    wellFormed { next := 260, has := true, width := 9 } (.lzwBad 512) = false := by decide

/-! ### One word per instruction, from the encodings of 30_encoding.md R91, R94, R96 -/

/-- R91, fields IE, ALG, MODE, START at bits 4, 3:2, 1, 0; bits 31:5 are ignored. -/
theorem test_decode_cfg : decodeTableWord 32 0b1111_1111_1111_1111_1111_1111_1110_0110 = some (.cfg true 1 false) := by
  decide
theorem test_decode_lzwC : decodeTableWord 8 0b0001_0001 = some (.lzwC true) := by decide
theorem test_decode_lzwD : decodeTableWord 8 0b0000_0011 = some (.lzwD false) := by decide
theorem test_decode_hufC : decodeTableWord 8 0b0000_0101 = some (.hufC false) := by decide
theorem test_decode_hufD : decodeTableWord 8 0b0001_0111 = some (.hufD true) := by decide
theorem test_decode_illegal : decodeTableWord 8 0b0000_1101 = some (.illegal false 3 false) := by decide
/-- R94 and R21: STATUS is offset 0x04; A[1:0] is ignored. -/
theorem test_decode_wrReg : decodeTxn { dir := .wr, addr := 0b00000000000000000000000000000111, data := 6 } =
    .wrReg 1 6 := by decide
theorem test_decode_rdReg : decodeTxn { dir := .rd, addr := 0b00000000000000000000000000011000, data := 0 } =
    .rdReg 6 := by decide
theorem test_decode_wrIn : decodeTxn { dir := .wr, addr := 0b01111111111111111111111111111111, data := 0x1FE } =
    .wrIn 0x3FFFFFFF 0xFE := by decide
theorem test_decode_rdIn : decodeTxn { dir := .rd, addr := 0b01000000000000000000000000000010, data := 0 } =
    .rdIn 2 := by decide
theorem test_decode_rdOut : decodeTxn { dir := .rd, addr := 0b10000000000000000000000000000100, data := 0 } =
    .rdOut 4 := by decide
theorem test_decode_wrOut : decodeTxn { dir := .wr, addr := 0b10000000000000000000000000000001, data := 0xFF } =
    .wrOut 1 0xFF := by decide
theorem test_decode_rsv : decodeTxn { dir := .wr, addr := 0b11000000000000000000000000000001, data := 1 } =
    .rsv .wr 1 1 := by decide
/-- R96: at width 9, LIT is `0xxxxxxxx` and EOS is `100000000`. -/
theorem test_decode_lzwLit : decodeCodeBits { next := 257, has := false, width := 9 }
    [false, true, true, true, true, true, true, true, false] = some (.lzwLit 0xFE) := by decide
theorem test_decode_lzwEos : decodeCodeBits { next := 257, has := false, width := 10 }
    [false, true, false, false, false, false, false, false, false, false] = some .lzwEos := by decide
theorem test_decode_lzwRef : decodeCodeBits { next := 259, has := true, width := 9 }
    [true, false, false, false, false, false, false, true, false] = some (.lzwRef 258) := by decide
theorem test_decode_lzwKwkwk : decodeCodeBits { next := 258, has := true, width := 9 }
    [true, false, false, false, false, false, false, true, false] = some (.lzwKwkwk 258) := by decide
/-- V-LD10: the first code is 257. -/
theorem test_decode_lzwBad : decodeCodeBits { next := 257, has := false, width := 9 }
    [true, false, false, false, false, false, false, false, true] = some (.lzwBad 257) := by decide
/-- A transaction is 65 bits (log 3). -/
theorem test_wide_word_is_rejected : decodeTableWord 66 (2 ^ 65) = none := by decide

/-! ### One step per instruction -/

/-- V-CM3. -/
theorem test_cfg : (after (step (State.reset.withFetchWord 8 0x1E)) State.reset).ctrlWord = 0x1E ∧
    (after (step (State.reset.withFetchWord 8 0x1E)) State.reset).statusWord = 0 := by decide

/-- R137: BUSY after the START; R131: START reads 0. -/
theorem test_lzwC : (after (step (State.reset.withFetchWord 8 1)) State.reset).statusWord = 1 ∧
    (after (step (State.reset.withFetchWord 8 1)) State.reset).ctrlWord = 0 := by decide

/-- V-CM7. -/
theorem test_lzwC_too_long : (after (exec (.lzwC false) (loaded [] 1025)) State.reset).statusWord = 0x52 := by decide

/-- R201. -/
theorem test_lzwD : (started (.lzwD false) []).phase = .lzdLoop ∧ (started (.lzwD false) []).eng.lzd.next = 257 ∧
    (started (.lzwD false) []).eng.lzd.width = 9 := by decide

/-- R140: a START while BUSY is rejected, and its fields are stored. -/
theorem test_hufC_rejected : (after (exec (.hufC true) (started (.lzwD false) [])) State.reset).statusWord = 5 ∧
    (after (exec (.hufC true) (started (.lzwD false) [])) State.reset).ctrlWord = 0x14 ∧
    (after (exec (.hufC true) (started (.lzwD false) [])) State.reset).phase = .lzdLoop := by decide

theorem test_hufC : (started (.hufC false) [0x41]).phase = .hueCount := by decide

theorem test_hufD : (started (.hufD true) [0x00]).phase = .hudHeader ∧
    (started (.hufD true) [0x00]).irq = false := by decide

/-- V-CM5: ILLEGAL. -/
theorem test_illegal : (after (step (State.reset.withFetchWord 8 9)) State.reset).statusWord = 0x52 ∧
    (after (step (State.reset.withFetchWord 8 9)) State.reset).ctrlWord = 8 := by decide

/-- V-CM9: BUSY and ERR are not writable. -/
theorem test_wrReg_status :
    (after (exec (.wrReg 1 0xFF) { State.reset with err := .illegalCommand, done := true }) State.reset).statusWord =
      0x50 := by decide

/-- V-CM14: IN_LEN is frozen while BUSY. -/
theorem test_wrReg_inLen_busy :
    (after (exec (.wrReg 2 5) (started (.lzwC false) [0x41])) State.reset).inLen = 1 := by decide

/-- V-CM2. -/
theorem test_rdReg : (after (exec (.rdReg 4) State.reset) State.reset).busData = 12 ∧
    (after (exec (.rdReg 6) State.reset) State.reset).busData = 2048 := by decide

/-- V-CM12: offset 0x1C. -/
theorem test_rdReg_above : (after (exec (.rdReg 7) { State.reset with busData := 9 }) State.reset).busData = 0 := by
  decide

/-- R132 and R133: the byte is there, and only there. -/
theorem test_wrIn : (after (exec (.wrIn 1 0x42) (loaded [0x41, 0x43] 2)) State.reset).inBuf = [(0, 0x41), (1, 0x42)] := by
  decide

/-- V-CM11. -/
theorem test_wrIn_above : (after (exec (.wrIn 1024 0x41) State.reset) State.reset).inBuf = [] ∧
    (after (exec (.rdIn 1024) { State.reset with busData := 9 }) State.reset).busData = 0 := by decide

theorem test_rdIn : (after (exec (.rdIn 1) (loaded [0x41, 0xC3] 2)) State.reset).busData = 0xC3 := by decide

/-- V-CM13. -/
theorem test_rdOut :
    (after (exec (.rdOut 0) { State.reset with outBuf := [(0, 0x80), (1, 0)] }) State.reset).busData = 0x80 := by decide

theorem test_wrOut :
    (after (exec (.wrOut 0 0xFF) { State.reset with outBuf := [(0, 0x80), (1, 0)] }) State.reset).outBuf =
      [(0, 0x80), (1, 0)] := by decide

/-- V-CM12. -/
theorem test_rsv : (after (exec (.rsv .rd 0 0) { State.reset with busData := 9 }) State.reset).busData = 0 ∧
    after (exec (.rsv .wr 0 1) (loaded [0x41] 1)) State.reset = loaded [0x41] 1 := ⟨by decide, rfl⟩

/-- V-LD12's first code: the first entry is put out, and nothing is inserted. -/
theorem test_lzwLit : (after (exec (.lzwLit 0x41) (decoding decoderStart 0)) State.reset).outBuf = [(0, 0x41)] ∧
    (after (exec (.lzwLit 0x41) (decoding decoderStart 0)) State.reset).eng.lzd = decoderA := by decide

/-- The second code of V-LC5's stream, 66: "AB" becomes 257. -/
theorem test_lzwLit_inserts : (after (exec (.lzwLit 0x42) (decoding decoderA 1)) State.reset).eng.lzd = decoderAB := by
  decide

/-- The third code of V-LC5's stream: 257 is "AB", and "BA" becomes 258. -/
theorem test_lzwRef : (after (exec (.lzwRef 257) (decoding decoderAB 2)) State.reset).outBuf = [(2, 0x41), (3, 0x42)] ∧
    (after (exec (.lzwRef 257) (decoding decoderAB 2)) State.reset).eng.lzd.tab.head? =
      some { code := 258, pre := 66, last := 0x41, first := 0x42 } := by decide

/-- V-LD7: 257 is the KwKwK case. -/
theorem test_lzwKwkwk : (after (exec (.lzwKwkwk 257) (decoding decoderA 1)) State.reset).outBuf = [(1, 0x41), (2, 0x41)] ∧
    (after (exec (.lzwKwkwk 257) (decoding decoderA 1)) State.reset).eng.lzd =
      { has := true, prev := 257, next := 258, width := 9
        tab := [{ code := 257, pre := 65, last := 0x41, first := 0x41 }] } := by decide

/-- V-LD4's end: success, and OUT_LEN is what was put out. -/
theorem test_lzwEos : (after (exec .lzwEos (decoding decoderA 1)) State.reset).statusWord = 2 ∧
    (after (exec .lzwEos (decoding decoderA 1)) State.reset).outLen = 1 := by decide

/-- V-LD10. -/
theorem test_lzwBad : (after (exec (.lzwBad 257) (decoding decoderStart 0)) State.reset).statusWord = 0x22 ∧
    (after (exec (.lzwBad 257) (decoding decoderStart 0)) State.reset).outLen = 0 := by decide

/-- V-LD15: no room for the byte. -/
theorem test_lzwLit_overflow : (after (exec (.lzwLit 0x41) (decoding decoderA 2048)) State.reset).statusWord = 0x62 := by
  decide

/-- 70_reset_and_hazards.md R331: `rst` abandons a running command. -/
theorem test_rst : (after (step { started (.lzwC true) [0x41] with hostQueue := [.rst] }) State.reset).statusWord = 0 ∧
    (after (step { started (.lzwC true) [0x41] with hostQueue := [.rst] }) State.reset).ctrlWord = 0 := by decide

/-- V-HD2: an input of one byte has no header. -/
theorem test_header_eof : (after (step (started (.hufD false) [0x00])) State.reset).statusWord = 0x12 := by decide

/-! ### The packer and the engine functions on the spec's vectors -/

/-- V-BP1, V-BP7. -/
theorem test_packer : packed [(65, 9)] = [0x20, 0x80] ∧ packed [(5, 3), (1, 5)] = [0xA1] ∧ packed [] = [] := by decide

/-- V-BP12. -/
theorem test_reader : readBits (listBit [0x20, 0xC0]) 16 0 9 = .ok (65, 9) ∧
    readBits (listBit [0x20, 0xC0]) 16 9 7 = .ok (0x40, 16) ∧ atEnd 16 16 1 = true := by decide

/-- V-LC5. -/
theorem test_lzw_compress :
    lzwCompress 31 [0x41, 0x42, 0x41, 0x42, 0x41, 0x42, 0x41] = [0x20, 0x90, 0xA0, 0x30, 0x38, 0x00] := by
  set_option maxRecDepth 100000 in decide

/-- V-LD9. -/
theorem test_lzw_decompress : lzwDecompress 31 [0x20, 0xC0, 0x60, 0x50, 0x38, 0x00] = (List.replicate 10 0x41, .none) := by
  set_option maxRecDepth 100000 in decide

/-- V-HC6. -/
theorem test_huffman_compress : huffmanCompress [0x41, 0x41, 0x42] =
    [0x00, 0x02, 0x41, 0, 0, 0, 2, 0x42, 0, 0, 0, 1, 0, 0, 0, 3, 0xC0] := by
  set_option maxRecDepth 100000 in decide

/-- V-HD16: a wrong payload is not detected. -/
theorem test_huffman_decompress :
    huffmanDecompress [0x00, 0x02, 0x41, 0, 0, 0, 1, 0x42, 0, 0, 0, 1, 0, 0, 0, 2, 0xFF] = ([0x42, 0x42], .none) := by
  set_option maxRecDepth 100000 in decide

/-! ### Witnesses: concrete states and operands that meet the hypotheses of each statement -/

theorem witness_CfgStoresModeAlgIe : (0x1E : Word).getLsbD 0 = false := by decide

theorem witness_StartWhileBusyIsRejected :
    startFields (.illegal true 3 true) = some (true, 3, true) ∧ startFields (.hufC false) = some (false, 1, false) ∧
    (started (.lzwC true) [0x41]).busy = true := by decide

/-- Both reserved values of ALG, and IN_LEN one above IN_CAP. -/
theorem witness_RefusedStartIsIllegalCommand :
    startFields (.illegal false 2 true) = some (false, 2, true) ∧ (2#2).getLsbD 1 = true ∧ (3#2).getLsbD 1 = true ∧
    State.reset.busy = false ∧
    startFields (.lzwD false) = some (true, 0, false) ∧ (loaded [] 1025).busy = false ∧
    (loaded [] 1025).caps.inCap < (loaded [] 1025).inLen.toNat := by decide

/-- IN_LEN equal to IN_CAP, and 0: for LzwCompressStarts, LzwDecompressStarts, HuffmanCompressStarts and
HuffmanDecompressStarts. -/
theorem witness_CommandStarts :
    (loaded [] 1024).busy = false ∧ (loaded [] 1024).inLen.toNat = (loaded [] 1024).caps.inCap ∧
    State.reset.busy = false ∧ State.reset.inLen.toNat ≤ State.reset.caps.inCap := by decide

/-- The invariant in a state whose command runs; also for StepKeepsTheInvariant, StepNeverStops and the statements of
the sequencer. -/
theorem busy_inv : (started (.lzwC true) [0x41]).Inv := by
  refine ⟨?_, ?_, ?_, ?_, ?_, ?_, ?_, fun _ => ⟨?_, ?_, ?_, ?_, ?_, ?_, ?_, ?_⟩, ?_, ?_⟩ <;> decide

theorem witness_ReadRegisterReturnsItsValue :
    (started (.lzwC true) [0x41]).Inv ∧ (started (.lzwC true) [0x41]).busy = true := ⟨busy_inv, by decide⟩

/-- Index 3 is the lowest of the last clause. -/
theorem witness_WriteRegisterEffects :
    State.reset.busy = false ∧ (started (.lzwC true) [0x41]).busy = true ∧ 3 ≤ (3 : BitVec 28).toNat ∧
    3 ≤ (0xFFFFFFF : BitVec 28).toNat := by decide

/-- The last index of IN, the first above it, and BUSY. -/
theorem witness_WriteInStoresOneByte :
    State.reset.busy = false ∧ (1023 : BitVec 30).toNat < State.reset.caps.inCap ∧
    State.reset.caps.inCap ≤ (1024 : BitVec 30).toNat ∧ (started (.lzwC true) [0x41]).busy = true := by decide

theorem witness_WriteOutHasNoEffect :
    runs (exec (decodeTxn { dir := .wr, addr := 0x80000000, data := 7 }) State.reset) = true := by decide

/-- The last index of OUT, and the first above it. -/
theorem witness_ReadOutReturnsByte :
    (2047 : BitVec 30).toNat < State.reset.caps.outCap ∧ State.reset.caps.outCap ≤ (2048 : BitVec 30).toNat ∧
    State.reset.busy = false ∧ 2047 < (started (.lzwC true) [0x41]).caps.outCap ∧
    (started (.lzwC true) [0x41]).busy = true := by decide

theorem witness_InputIsFrozenWhileBusy :
    (started (.lzwC true) [0x41]).busy = true ∧
    runs (exec (decodeTxn { dir := .wr, addr := 0x40000000, data := 7 }) (started (.lzwC true) [0x41])) = true ∧
    runs (seqStep (started (.lzwC true) [0x41])) = true := by decide

theorem decoderA_ok : decoderA.Ok 12 := by decide

theorem decoderAB_ok : decoderAB.Ok 12 := by decide

theorem decoderStart_ok : decoderStart.Ok 12 := by decide

theorem decoderFull_ok : decoderFull.Ok 9 := by
  set_option maxRecDepth 100000 in decide

/-- A first code, a code after a previous one, a reference, KwKwK, and an entry that exactly fits. -/
theorem witness_ResolvedCodeIsOutputAndReplayed :
    (codeEntry (decoding decoderStart 0) (.lzwLit 0x41) = some (0x41, [0x41]) ∧
      decoderStart.Ok (decoding decoderStart 0).caps.maxCodeWidth) ∧
    (codeEntry (decoding decoderAB 0) (.lzwRef 257) = some (257, [0x41, 0x42]) ∧
      decoderAB.Ok (decoding decoderAB 0).caps.maxCodeWidth) ∧
    (codeEntry (decoding decoderA 0) (.lzwKwkwk 257) = some (257, [0x41, 0x41]) ∧
      decoderA.Ok (decoding decoderA 0).caps.maxCodeWidth) ∧
    (decoding decoderAB 2046).eng.outPos + 2 = (decoding decoderAB 2046).caps.outCap :=
  ⟨⟨by decide, decoderStart_ok⟩, ⟨by decide, decoderAB_ok⟩, ⟨by decide, decoderA_ok⟩, by decide⟩

/-- The clause of a full table. -/
theorem witness_ResolvedCode_full :
    ¬ (decoderFull.has = true ∧ decoderFull.next < 2 ^ 9) ∧ decoderFull.Ok smallCaps.maxCodeWidth ∧
    codeEntry { decoding decoderFull 0 with caps := smallCaps } (.lzwLit 0x41) = some (0x41, [0x41]) :=
  ⟨by decide, decoderFull_ok, rfl⟩

/-- A reference to the only entry, and a previous code. -/
theorem witness_EveryResolvableCodeHasAnEntry :
    (decoding decoderAB 0).eng.lzd.Ok (decoding decoderAB 0).caps.maxCodeWidth ∧ 257 ≤ 257 ∧
    257 < (decoding decoderAB 0).eng.lzd.next ∧ (decoding decoderAB 0).eng.lzd.has = true := by decide

/-- OUT full, and one byte of a two-byte entry that fits. -/
theorem witness_EntryTooLongRaisesOutputOverflow :
    codeEntry (decoding decoderA 2048) (.lzwLit 0x41) = some (0x41, [0x41]) ∧
    (decoding decoderA 2048).eng.outPos = (decoding decoderA 2048).caps.outCap ∧
    codeEntry (decoding decoderAB 2047) (.lzwRef 257) = some (257, [0x41, 0x42]) ∧
    (decoding decoderAB 2047).eng.outPos ≤ (decoding decoderAB 2047).caps.outCap ∧
    (decoding decoderAB 2047).caps.outCap < (decoding decoderAB 2047).eng.outPos + 2 := by decide

/-- Codes 255 and 257, the boundaries of the two ranges. -/
theorem witness_FirstOfIsTheFirstByteOfTheString :
    decoderAB.Ok 12 ∧ (255 ≤ 255 ∨ (257 ≤ 255 ∧ 255 < decoderAB.next)) ∧
    (257 ≤ 255 ∨ (257 ≤ 257 ∧ 257 < decoderAB.next)) := by decide

/-- A step that ends a command: the decoder at the end of its input. -/
theorem ending_inv : (started (.lzwD true) []).Inv := by
  refine ⟨?_, ?_, ?_, ?_, ?_, ?_, ?_, fun _ => ⟨?_, ?_, ?_, ?_, ?_, ?_, ?_, ?_⟩, ?_, ?_⟩ <;> decide

theorem witness_CommandsEndOnlyWithTheirErrors :
    (started (.lzwD true) []).Inv ∧ (started (.lzwD true) []).busy = true ∧
    runs (seqStep (started (.lzwD true) [])) = true ∧
    (after (seqStep (started (.lzwD true) [])) (started (.lzwD true) [])).phase = .idle ∧
    startFields (.illegal false 2 false) = some (false, 2, false) ∧ State.reset.busy = false ∧
    runs (exec (.illegal false 2 false) State.reset) = true ∧
    (after (exec (.illegal false 2 false) State.reset) State.reset).busy = false :=
  ⟨ending_inv, by decide⟩

/-- The smallest and the largest parameters; also for ResetMeetsTheInvariant. -/
theorem witness_ResetRegistersReadAsStated :
    Config.legal { maxCodeWidth := 9, inCap := 1, outCap := 1 } = true ∧
    Config.legal { maxCodeWidth := 31, inCap := 2 ^ 30, outCap := 2 ^ 30 } = true := by decide

theorem witness_HardwareResetAbandonsCommand :
    ({ started (.lzwC true) [0x41] with hostQueue := [.rst] } : State).hostQueue = [.rst] ∧
    ({ started (.lzwC true) [0x41] with hostQueue := [.rst] } : State).busy = true := by decide

theorem witness_StepRunsTheHostTransaction :
    (issue { dir := .rd, addr := 4, data := 0 } State.reset).hostQueue =
      .txn { dir := .rd, addr := 4, data := 0 } :: [] ∧
    wellFormed default (.rdReg 1) = true ∧ encode (.rdReg 1) = .bus { dir := .rd, addr := 4, data := 0 } ∧
    decodeTableWord 8 1 = some (.lzwC false) := by decide

/-- The sequencer's turn on an empty queue and at an `idle`; no bits left; exactly one code left, the end of the
stream. -/
theorem witness_StepRunsTheDecodedCode :
    (sequencerTurn (started (.lzwD true) []) (started (.lzwD true) []) ∧ (started (.lzwD true) []).phase = .lzdLoop ∧
      (started (.lzwD true) []).inBits - (started (.lzwD true) []).eng.brPos <
        (started (.lzwD true) []).eng.lzd.width) ∧
    (sequencerTurn { started (.lzwD true) [0x80, 0x00] with hostQueue := [.idle] } (started (.lzwD true) [0x80, 0x00]) ∧
      (started (.lzwD true) [0x80, 0x00]).eng.lzd.width ≤
        (started (.lzwD true) [0x80, 0x00]).inBits - (started (.lzwD true) [0x80, 0x00]).eng.brPos ∧
      ofBits ((List.range 9).map fun t => (started (.lzwD true) [0x80, 0x00]).bit t) = 256) :=
  ⟨⟨.inl ⟨rfl, rfl⟩, by decide, by decide⟩, .inr ⟨[], rfl, rfl⟩, by decide, by decide⟩

/-- Both boundaries of each class at `next = 257`, and at a larger one. -/
theorem witness_CodeClassesAsTabled :
    257 ≤ ({ next := 257, has := true, width := 9 } : CodeCtx).next ∧
    decodeCode { next := 257, has := true, width := 9 } 255 = .lzwLit 255 ∧
    decodeCode { next := 257, has := true, width := 9 } 256 = .lzwEos ∧
    decodeCode { next := 257, has := true, width := 9 } 257 = .lzwKwkwk 257 ∧
    decodeCode { next := 257, has := false, width := 9 } 257 = .lzwBad 257 ∧
    decodeCode { next := 257, has := true, width := 9 } 258 = .lzwBad 258 ∧
    decodeCode { next := 259, has := false, width := 9 } 257 = .lzwRef 257 ∧
    decodeCode { next := 259, has := false, width := 9 } 258 = .lzwRef 258 := by decide

/-- One word per row of the table, with bits 31:4 set. -/
theorem witness_CommandDecodeFollowsTheTable :
    (0xFFFFFFFE : Word) &&& 1 = 0 ∧ (0xFFFFFFF1 : Word) &&& 15 = 1 ∧ (0xFFFFFFF3 : Word) &&& 15 = 3 ∧
    (0xFFFFFFF5 : Word) &&& 15 = 5 ∧ (0xFFFFFFF7 : Word) &&& 15 = 7 ∧ (0xFFFFFFFF : Word) &&& 9 = 9 ∧
    (0xFFFFFFF9 : Word) &&& 9 = 9 := by decide

/-- The boundary operands of each row with a condition. -/
theorem witness_DecodeOfEncodeIsTheInstruction :
    wellFormed default (.illegal true 2 true) = true ∧ wellFormed default (.wrReg 1 0xFFFFFFFF) = true ∧
    wellFormed { next := 512, has := true, width := 9 } (.lzwLit 0xFF) = true ∧
    wellFormed { next := 512, has := true, width := 9 } .lzwEos = true ∧
    wellFormed { next := 512, has := true, width := 9 } (.lzwRef 257) = true ∧
    wellFormed { next := 512, has := true, width := 9 } (.lzwRef 511) = true ∧
    wellFormed { next := 511, has := true, width := 9 } (.lzwKwkwk 511) = true ∧
    wellFormed { next := 511, has := false, width := 9 } (.lzwBad 511) = true ∧
    wellFormed { next := 257, has := true, width := 9 } (.lzwBad 258) = true := by decide

theorem reset_inv : State.reset.Inv := by
  refine ⟨?_, ?_, ?_, ?_, ?_, ?_, ?_, fun h => absurd h (by decide), trivial⟩ <;> decide

/-- Of StepKeepsTheInvariant, StepNeverStops, SequencerStepLowersTheWorkLeft and
SequencerLeavesTheHostsStateAlone. -/
theorem witness_StepKeepsTheInvariant :
    (started (.lzwC true) [0x41]).Inv ∧ (started (.lzwC true) [0x41]).busy = true ∧
    runs (step (started (.lzwC true) [0x41])) = true ∧ runs (seqStep (started (.lzwC true) [0x41])) = true :=
  ⟨busy_inv, by decide⟩

theorem witness_EveryCommandEnds :
    (started (.lzwC true) [0x41]).Inv ∧ (started (.lzwC true) [0x41]).hostQueue = [] := ⟨busy_inv, by decide⟩

theorem loaded_inv : (loaded [0x41, 0x42] 2).Inv := by
  refine ⟨?_, ?_, ?_, ?_, ?_, ?_, ?_, fun h => absurd h (by decide), trivial⟩ <;> decide

/-- Of the four outcomes: a loaded input, and the empty one. -/
theorem witness_CommandOutcome : readyToStart (loaded [0x41, 0x42] 2) ∧ readyToStart State.reset :=
  ⟨⟨loaded_inv, by decide⟩, reset_inv, by decide⟩

/-- Two states that differ in OUT and in the hidden registers; the run from each ends. -/
theorem witness_ResultDependsOnlyOnInputAndCommand :
    startFields (.lzwD false) = some (true, 0, false) ∧ readyToStart State.reset ∧
    readyToStart { State.reset with outBuf := [(0, 7)], eng := { Engine.zero with outPos := 5 } } ∧
    State.reset.input = [] ∧ endsAt (started (.lzwD false) []) 1 (after (seqStep (started (.lzwD false) [])) State.reset) :=
  ⟨rfl, ⟨reset_inv, by decide⟩,
    ⟨⟨by decide, by decide, by decide, by decide, by decide, by decide, by decide, fun h => absurd h (by decide),
      trivial⟩, by decide⟩, rfl, rfl, rfl⟩

/-- OUT full, and one byte short of full. -/
theorem witness_OutByteAppendsOrOverflows :
    (decoding decoderA 2048).eng.outPos = (decoding decoderA 2048).caps.outCap ∧
    (decoding decoderA 2047).eng.outPos ≠ (decoding decoderA 2047).caps.outCap := by decide

theorem witness_ReadBitsReturnsTheBitsAtTheCursor : 16 - 8 < 9 ∧ 9 ≤ 16 - 7 := by decide

/-- The bytes fill OUT exactly: nine bits and their padding in an OUT of two bytes. -/
theorem witness_PackedStreamIsTheValuesBits :
    ∃ t u, writeBits [(65, 9)] (State.resetWith smallCaps) = .ok t ∧ packOut t.eng.bw.finish t = .ok u ∧
      (State.resetWith smallCaps).eng.outPos = 0 ∧ (State.resetWith smallCaps).eng.bw = BitWriter.empty ∧
      u.eng.outPos = smallCaps.outCap :=
  ⟨_, _, rfl, rfl, rfl, rfl, rfl⟩

theorem witness_PackedStreamReadsBack : ∀ p ∈ [((0 : Nat), (0 : Nat)), (511, 9)], p.1 < 2 ^ p.2 := by decide

/-- The last free code of the smallest dictionary, and the full one. -/
theorem witness_InsertAddsOneEntryUntilFull :
    { LzeRegs.fresh with next := 511 }.next < 2 ^ 9 ∧ { LzeRegs.fresh with next := 512 }.next = 2 ^ 9 := by decide

theorem witness_LzwCodeWidthsByPosition : (lzwCodes 9 [0x41])[1]? = some (256, 9) := by decide

theorem witness_LzwRoundTrip : 9 ≤ 31 ∧ 31 ≤ 31 ∧ lzwDecompress 31 (lzwCompress 31 [0x41]) = ([0x41], .none) := by
  set_option maxRecDepth 100000 in decide

/-- The tie is broken by the index. -/
theorem witness_PopMinTakesTheLeastNode :
    [0, 1, 2].Nodup ∧ popMin [.leaf 1 5, .leaf 2 3, .leaf 3 3] [0, 1, 2] = some (1, [0, 2]) := by decide

theorem witness_MergeJoinsTheTwoNodesPopped :
    (Engine.zero.huf.leaves [(0x41, 2), (0x42, 1)]).nodeCnt = (Engine.zero.huf.leaves [(0x41, 2), (0x42, 1)]).node.length ∧
    popMin (Engine.zero.huf.leaves [(0x41, 2), (0x42, 1)]).node [0, 1] = some (1, [0]) ∧
    popMin (Engine.zero.huf.leaves [(0x41, 2), (0x42, 1)]).node [0] = some (0, []) ∧
    (Engine.zero.huf.leaves [(0x41, 2), (0x42, 1)]).active = [0, 1] := by decide

theorem witness_TreeOfKLeaves : 1 ≤ [((0x41 : Byte), 4)].length := by decide

theorem witness_HuffmanCodesArePrefixFree :
    (0x41 : Byte) ∈ [0x41, (0x42 : Byte)] ∧ (0x42 : Byte) ∈ [0x41, (0x42 : Byte)] ∧ (0x41 : Byte) ≠ 0x42 := by decide

/-- V-HD13's header. -/
theorem witness_AcceptedHeaderIsWellFormed :
    readHeader (listBit [0x00, 0x01, 0x41, 0, 0, 0, 3, 0, 0, 0, 3]) 88 =
      .ok (1, { pos := 56, last := 66, sum := 3, leaves := [(0x41, 3)] }, 3, 88) := by
  set_option maxRecDepth 100000 in decide

theorem witness_HuffmanRoundTrip : ([] : List Byte).length ≤ 2 ^ 30 ∧ [(0x41 : Byte)].length ≤ 2 ^ 30 := by decide

end Sys2Proof.Tests
end

/-! SUPPORT. The statements of 10_state.md: every step keeps the invariant (R44), the frame of the sequencer's steps
(R43), STATUS and `irq` (R23, R28), and the state after reset (R45). -/

namespace Sys2Proof.Machine

open Sys2Proof

/-! ### The host's side keeps the invariant -/

/-- `rst` (70_reset_and_hazards.md R330, R331): only the parameters are left of the state before it. -/
theorem inv_hardReset {s : State} (h : s.Inv) : (hardReset s).Inv :=
  Buffers.inv_idle ⟨((inv_iff s).1 h).1.legal, rfl, rfl, rfl, rfl, by simp, by simp⟩ rfl

/-- While a command runs DONE is 0 already, so clearing it changes nothing (40_commands.md R148). -/
theorem inv_writeStatus {s : State} (h : s.Inv) (v : Word) : (s.writeStatus v).Inv := by
  obtain ⟨m, b, e⟩ := (inv_iff s).1 h
  refine (inv_iff _).2 ⟨⟨m.1, m.2, m.3, m.4, m.5, m.6, m.7⟩, fun hb => ?_, e⟩
  obtain ⟨a1, a2, a3, a4, a5, a6, a7, a8⟩ := b hb
  exact ⟨a1, a2, a3, a4, a5, a6, a7, by simp [a8]⟩

/-- The running command works on the latched IN_LEN_L, so a new IN_LEN is free (10_state.md R24). -/
theorem inv_writeInLen {s : State} (h : s.Inv) (v : Word) : (s.writeInLen v).Inv := by
  unfold State.writeInLen
  split <;> exact h

/-- An IN byte is written below IN_CAP only (20_memory.md R62). -/
theorem inv_hostWriteIn {s : State} (h : s.Inv) (i : Nat) (b : Byte) : (s.hostWriteIn i b).Inv := by
  by_cases hp : s.phase = .idle
  · by_cases hi : i < s.caps.inCap
    · rw [hostWriteIn_idle hp hi]
      obtain ⟨m, -, -⟩ := (inv_iff s).1 h
      exact Buffers.inv_idle ⟨m.1, Memory.wf_write _ _ m.2, Memory.below_write _ m.3 hi, m.4, m.5, m.6, m.7⟩ hp
    · rwa [hostWriteIn_out_of_range (Nat.le_of_not_lt hi)]
  · rwa [hostWriteIn_busy hp]

theorem inv_hostReadOut {s : State} (h : s.Inv) (k : Nat) : (s.hostReadOut k).Inv := by
  unfold State.hostReadOut
  split
  · exact h
  · split <;> exact h

theorem inv_illegal {s : State} (m : Buffers s) (hp : s.phase = .idle) : (illegal s).Inv :=
  Buffers.inv_idle ⟨m.legal, m.inWf, m.inBelow, m.outWf, m.outBelow, by simp, by simp⟩ hp

/-- An accepted START latches a command that the rest of the invariant allows (40_commands.md R137). -/
theorem running_latch {s : State} (m : Buffers s) (hr : s.startRefused = false) : Running (latch s) := by
  simp only [State.startRefused, Bool.or_eq_false_iff, decide_eq_false_iff_not, Nat.not_lt] at hr
  obtain ⟨ha, hl⟩ := hr
  exact ⟨⟨m.legal, m.inWf, m.inBelow, m.outWf, m.outBelow, by simp, by simp⟩, ha, hl, Nat.zero_le _, by simp,
    rfl, rfl, rfl⟩

/-- Each engine's initialisation meets its part of the invariant (40_commands.md R137, 42_lzw_encoder.md R174,
43_lzw_decoder.md R201, 44_huffman_encoder.md R230). -/
theorem Running.engineStart {s : State} (r : Running s) : (engineStart s).Inv := by
  have hw : 9 ≤ s.caps.maxCodeWidth := ((legal_iff _).1 r.buffers.legal).1
  rcases engineStart_cases s with ⟨ha, hm, e⟩ | ⟨ha, hm, e⟩ | ⟨ha, hm, e⟩ | ⟨ha, hm, e⟩ <;> rw [e]
  · exact (r.update .lzeScan { s.eng with lze := s.eng.lze.init, inPos := 0 } rfl rfl rfl).inv
      (by simp only [Phase.command, ha, hm]) (And.intro (LzeRegs.init_ok hw _) (Nat.zero_le _))
  · exact (r.update .lzdLoop { s.eng with lzd := s.eng.lzd.init, brPos := 0 } rfl rfl rfl).inv
      (by simp only [Phase.command, ha, hm]) (And.intro (LzdRegs.init_ok hw _) (Nat.zero_le _))
  · exact (r.update .hueCount { s.eng with inPos := 0, huf := { s.eng.huf with freq := clearFreq } } rfl rfl rfl).inv
      (by simp only [Phase.command, ha, hm]) (And.intro length_clearFreq (And.intro sum_clearFreq (Nat.zero_le _)))
  · exact (r.update .hudHeader s.eng rfl rfl rfl).inv (by simp only [Phase.command, ha, hm]) trivial

theorem inv_ctrlStartWrite {s : State} (h : s.Inv) (mode : Bool) (alg : BitVec 2) (ie : Bool) :
    (ctrlStartWrite mode alg ie s).Inv := by
  have ht : (s.storeCtrl mode alg ie).Inv := h
  obtain ⟨m, -, -⟩ := (inv_iff _).1 ht
  rcases ctrlStartWrite_cases mode alg ie s with ⟨-, e⟩ | ⟨hp, -, e⟩ | ⟨-, hr, e⟩ <;> rw [e]
  · exact ht
  · exact inv_illegal m hp
  · exact (running_latch m hr).engineStart

theorem inv_writeCtrl {s : State} (h : s.Inv) (v : Word) : (writeCtrl v s).Inv := by
  unfold writeCtrl
  split
  · exact inv_ctrlStartWrite h _ _ _
  · exact h

theorem inv_writeReg {s : State} (h : s.Inv) (idx : BitVec 28) (v : Word) : (s.writeReg idx v).Inv := by
  unfold State.writeReg
  split
  · exact inv_writeCtrl h v
  · exact inv_writeStatus h v
  · exact inv_writeInLen h v
  · exact h

/-- What a bus transaction can do (30_encoding.md R94): write a register, answer a read, write an IN byte, read an OUT
byte, or nothing. -/
theorem exec_decodeTxn_cases (x : Txn) (s : State) :
    (∃ idx v, exec (decodeTxn x) s = .next (s.writeReg idx v)) ∨
    (∃ d, exec (decodeTxn x) s = .next (s.answer d)) ∨
    (∃ i b, exec (decodeTxn x) s = .next (s.hostWriteIn i b)) ∨
    (∃ k, exec (decodeTxn x) s = .next (s.hostReadOut k)) ∨
    exec (decodeTxn x) s = .next s := by
  unfold decodeTxn
  split
  · cases x.dir with
    | wr =>
      refine .inl ?_
      by_cases hi : addrRegIndex x.addr = 0
      · exact ⟨0, x.data, by simp only [hi, if_true]; exact exec_decodeCtrl x.data s⟩
      · exact ⟨addrRegIndex x.addr, x.data, by simp only [hi, if_false]; rfl⟩
    | rd => exact .inr (.inl ⟨_, rfl⟩)
  · split
    · cases x.dir with
      | wr => exact .inr (.inr (.inl ⟨_, _, rfl⟩))
      | rd => exact .inr (.inl ⟨_, rfl⟩)
    · split
      · cases x.dir with
        | wr => exact .inr (.inr (.inr (.inr rfl)))
        | rd => exact .inr (.inr (.inr (.inl ⟨_, rfl⟩)))
      · cases x.dir with
        | wr => exact .inr (.inr (.inr (.inr rfl)))
        | rd => exact .inr (.inl ⟨_, rfl⟩)

/-- Every bus transaction (30_encoding.md R94). -/
theorem inv_of_txn {s t : State} {x : Txn} (h : s.Inv) (e : exec (decodeTxn x) s = .next t) : t.Inv := by
  rcases exec_decodeTxn_cases x s with ⟨idx, v, hx⟩ | ⟨d, hx⟩ | ⟨i, b, hx⟩ | ⟨k, hx⟩ | hx <;>
    rw [hx] at e <;> cases e
  · exact inv_writeReg h idx v
  · exact h
  · exact inv_hostWriteIn h i b
  · exact inv_hostReadOut h k
  · exact h

/-! ### A command running in a given phase -/

/-- A command runs, in phase `p`: `Running` with the phase's command latched. -/
structure RunsIn (p : Phase) (s : State) : Prop where
  phase : s.phase = p
  running : Running s
  command : p.command = some (s.eng.cmdAlg.getLsbD 0, s.eng.cmdMode)

namespace RunsIn

variable {p : Phase} {s : State}

/-- A running command, with what the invariant says of the engine in its phase. -/
theorem of_inv (h : s.Inv) (hp : s.phase = p) (hb : p ≠ .idle) :
    RunsIn p s ∧ ({ s with phase := p } : State).EngineOk := by
  subst hp
  obtain ⟨r, c, e⟩ := (inv_busy ((busy_eq_true s).2 hb)).1 h
  exact ⟨⟨rfl, r, c⟩, e⟩

/-- Back to the invariant; `p` written in place of the phase makes `EngineOk` reduce. -/
theorem inv (a : RunsIn p s) (e : ({ s with phase := p } : State).EngineOk) : s.Inv := by
  obtain ⟨rfl, r, c⟩ := a
  exact r.inv c e

/-- The sequencer goes to a phase of the same command and writes engine registers, the latch and OUT_POS apart. -/
theorem move (a : RunsIn p s) {q : Phase} {e : Engine} (hq : q.command = p.command := by rfl)
    (h1 : e.cmdAlg = s.eng.cmdAlg := by rfl) (h2 : e.cmdMode = s.eng.cmdMode := by rfl)
    (h3 : e.inLenL = s.eng.inLenL := by rfl) (h4 : e.outPos = s.eng.outPos := by rfl) :
    RunsIn q { s with phase := q, eng := e } :=
  ⟨rfl, a.running.update q e h1 h3 h4, by rw [hq, a.command, h1, h2]⟩

/-- The sequencer writes engine registers, the latch and OUT_POS apart. -/
theorem setEng (a : RunsIn p s) {e : Engine}
    (h1 : e.cmdAlg = s.eng.cmdAlg := by rfl) (h2 : e.cmdMode = s.eng.cmdMode := by rfl)
    (h3 : e.inLenL = s.eng.inLenL := by rfl) (h4 : e.outPos = s.eng.outPos := by rfl) : RunsIn p { s with eng := e } :=
  ⟨a.phase, a.running.update s.phase e h1 h3 h4, by rw [a.command, h1, h2]⟩

theorem emit (a : RunsIn p s) {bs : List Byte} (h : s.eng.outPos + bs.length ≤ s.caps.outCap) :
    RunsIn p (s.emit bs) := ⟨a.phase, a.running.emit h, a.command⟩

theorem putOuts (a : RunsIn p s) {bs : List Byte} {t : State} (h : putOuts bs s = .ok t) :
    RunsIn p t ∧ t = s.emit bs := by
  obtain ⟨hl, rfl⟩ := putOuts_ok a.running.outPos h
  exact ⟨a.emit hl, rfl⟩

/-- Packed output moves the packer's registers, OUT and OUT_POS only (41_bitpacker.md R152). -/
theorem writeBits (a : RunsIn p s) {ps : List (Nat × Nat)} {t : State} (h : writeBits ps s = .ok t) :
    RunsIn p t ∧ ∃ w bs, t = (s.setBw w).emit bs := by
  obtain ⟨b, e⟩ := a.setEng.putOuts h
  exact ⟨b, _, _, e⟩

theorem raise (a : RunsIn p s) (e : ErrCode) : (raise e s).Inv := a.running.buffers.inv_raise e

theorem complete (a : RunsIn p s) : (complete s).Inv := a.running.complete

theorem settle (a : RunsIn p s) {x : Except ErrCode State} (h : ∀ t, x = .ok t → t.Inv) : (settle s x).Inv :=
  a.running.settle h

end RunsIn

/-! ### The LZW encoder's steps keep the invariant -/

/-- PHASE = LZE_SCAN (42_lzw_encoder.md R175, R182). -/
theorem inv_lzeScan {s : State} (a : RunsIn .lzeScan s)
    (k : s.eng.lze.Ok s.caps.maxCodeWidth ∧ s.eng.inPos ≤ s.eng.inLenL) : (lzeScan s).Inv := by
  obtain ⟨ok, -⟩ := k
  unfold lzeScan
  split
  · rename_i hlt
    refine a.settle fun t ht => ?_
    obtain ⟨b, w, bs, rfl⟩ := a.setEng.writeBits ht
    exact b.inv (And.intro (ok.step _) hlt)
  · exact a.move.inv ok

/-- PHASE = LZE_FINISH (42_lzw_encoder.md R176). -/
theorem inv_lzeFinish {s : State} (a : RunsIn .lzeFinish s) : (lzeFinish s).Inv := by
  refine a.settle fun t ht => ?_
  split at ht
  · rename_i u hu
    obtain ⟨b, -⟩ := a.setEng.writeBits hu
    exact b.running.finishOut ht
  · cases ht

/-! ### The LZW decoder's steps keep the invariant -/

/-- The loop head's read (43_lzw_decoder.md R202). -/
theorem fetchCode_cases (s : State) :
    (s.inBits - s.eng.brPos < s.eng.lzd.width ∧ fetchCode s = none) ∨
    ∃ c, c < 2 ^ s.eng.lzd.width ∧ s.eng.lzd.width ≤ s.inBits - s.eng.brPos ∧
      fetchCode s = some (c, { s with eng := { s.eng with brPos := s.eng.brPos + s.eng.lzd.width } }) := by
  unfold fetchCode
  rcases readBits_cases s.bit s.inBits s.eng.brPos s.eng.lzd.width with ⟨hw, e⟩ | ⟨hw, e⟩ <;> rw [e]
  · exact .inl ⟨hw, rfl⟩
  · exact .inr ⟨_, gatherBits_lt _ _ _, hw, rfl⟩

/-- The code just read, run (43_lzw_decoder.md R203 to R206). -/
theorem inv_code {s t : State} {c : Nat} (a : RunsIn .lzdLoop s)
    (k : s.eng.lzd.Ok s.caps.maxCodeWidth ∧ s.eng.brPos ≤ s.inBits) (hc : c < 2 ^ s.eng.lzd.width)
    (e : exec (decodeCode s.codeCtx c) s = .next t) : t.Inv := by
  obtain ⟨ok, hb⟩ := k
  rw [exec_code ok] at e
  split at e
  · cases e
    exact a.complete
  · split at e
    · cases e
      exact a.raise _
    · rename_i bs hr
      obtain ⟨r, -, rok, hx⟩ := lzdAccept_full ok a.running.outPos hr hc
      rw [hx] at e
      split at e <;> cases e
      · rename_i hfit
        exact (a.emit hfit).setEng.inv (And.intro rok hb)
      · exact a.raise _

/-- PHASE = LZD_LOOP (43_lzw_decoder.md R202). -/
theorem inv_lzdLoop {s t : State} (a : RunsIn .lzdLoop s)
    (k : s.eng.lzd.Ok s.caps.maxCodeWidth ∧ s.eng.brPos ≤ s.inBits) (e : lzdLoop s = .next t) : t.Inv := by
  obtain ⟨ok, hb⟩ := k
  unfold lzdLoop at e
  rcases fetchCode_cases s with ⟨-, hf⟩ | ⟨c, hc, hw, hf⟩ <;> rw [hf] at e
  · cases e
    exact a.complete
  · have hb' : s.eng.brPos + s.eng.lzd.width ≤ s.inBits := by omega
    have b : RunsIn .lzdLoop { s with eng := { s.eng with brPos := s.eng.brPos + s.eng.lzd.width } } := a.setEng
    exact inv_code b ⟨ok, hb'⟩ hc e

/-! ### The Huffman encoder's steps keep the invariant -/

/-- PHASE = HUE_COUNT (44_huffman_encoder.md R230, R231). -/
theorem inv_hueCount {s : State} (a : RunsIn .hueCount s)
    (k : s.eng.huf.freq.length = 256 ∧ s.eng.huf.freq.sum = s.eng.inPos ∧ s.eng.inPos ≤ s.eng.inLenL) :
    (hueCount s).Inv := by
  obtain ⟨hl, hs, hp⟩ := k
  unfold hueCount
  split
  · rename_i hlt
    refine a.setEng.inv (And.intro ?_ (And.intro ?_ hlt))
    · exact (length_countByte _ _).trans hl
    · exact (sum_countByte hl _).trans (by rw [hs])
  · split
    · exact a.complete
    · rename_i hlt h0
      have hall : s.eng.inPos = s.eng.inLenL := by omega
      exact a.move.inv (And.intro hl (And.intro (hs.trans hall) (Nat.pos_of_ne_zero h0)))

/-- The symbol list of a non-empty input starts a tree of the input's length (44_huffman_encoder.md R232, R234). -/
theorem symbols_buildOk {freq : List Nat} (hl : freq.length = 256) (hs : 0 < freq.sum) (h : HufRegs) :
    (h.leaves (symbols freq)).BuildOk freq.sum := by
  have hsum := sum_symbols hl
  rw [← hsum]
  refine leaves_buildOk h ?_ (length_symbols_le freq) fun p hp => (mem_symbols.1 hp).2
  intro h0
  rw [h0] at hsum
  simp at hsum
  omega

/-- PHASE = HUE_HEADER (44_huffman_encoder.md R233, R234). -/
theorem inv_hueHeader {s : State} (a : RunsIn .hueHeader s)
    (k : s.eng.huf.freq.length = 256 ∧ s.eng.huf.freq.sum = s.eng.inLenL ∧ 0 < s.eng.inLenL) : (hueHeader s).Inv := by
  obtain ⟨hl, hs, h0⟩ := k
  refine a.settle fun t ht => ?_
  obtain ⟨b, w, bs, rfl⟩ := a.move.writeBits ht
  refine b.inv ?_
  have hk := symbols_buildOk hl (hs ▸ h0) s.eng.huf
  rw [hs] at hk
  exact hk

/-- PHASE = HUE_BUILD (44_huffman_encoder.md R236, R237, R245). -/
theorem inv_hueBuild {s t : State} (a : RunsIn .hueBuild s) (k : s.eng.huf.BuildOk s.eng.inLenL)
    (e : hueBuild s = .next t) : t.Inv := by
  unfold hueBuild at e
  rcases buildStep_cases k with ⟨r, -, hb, ok⟩ | ⟨g, hb, -, ok, -⟩ <;> rw [hb] at e <;> cases e
  · exact a.move.inv ok
  · exact a.setEng.inv ok

/-- PHASE = HUE_CODEGEN (44_huffman_encoder.md R238). -/
theorem inv_hueCodegen {s : State} (a : RunsIn .hueCodegen s) : (hueCodegen s).Inv :=
  a.move.inv (Nat.zero_le s.eng.inLenL)

/-- PHASE = HUE_PAYLOAD (44_huffman_encoder.md R240, R241). -/
theorem inv_huePayload {s : State} (a : RunsIn .huePayload s) : (huePayload s).Inv := by
  refine a.settle fun t ht => ?_
  split at ht
  · rename_i hlt
    obtain ⟨b, w, bs, rfl⟩ := a.setEng.writeBits ht
    exact b.inv hlt
  · exact a.running.finishOut ht

/-! ### The Huffman decoder's steps keep the invariant -/

/-- The pairs of an accepted header start a tree of total frequency HUD_N (45_huffman_decoder.md R261 to R264). -/
theorem readHeader_buildOk {bit : Nat → Bool} {total d n pos : Nat} {h : HeaderRead}
    (e : readHeader bit total = .ok (d, h, n, pos)) (h0 : d ≠ 0) (r : HufRegs) : (r.leaves h.leaves).BuildOk n := by
  obtain ⟨hd, hlen, ok, hsum, -⟩ := readHeader_ok e
  rw [← hsum, ← ok.sum]
  refine leaves_buildOk r ?_ (by omega) fun p hp => (ok.freqs p hp).1
  intro hnil
  exact h0 (by rw [← hlen, hnil]; rfl)

/-- PHASE = HUD_HEADER (45_huffman_decoder.md R260 to R263). -/
theorem inv_hudHeader {s : State} (a : RunsIn .hudHeader s) : (hudHeader s).Inv := by
  unfold hudHeader
  split
  · exact a.complete
  · refine a.settle fun t ht => ?_
    unfold hudHeaderRead at ht
    split at ht <;> cases ht
    rename_i d h n pos hr
    obtain ⟨-, -, -, -, hn, -, hpos, -⟩ := readHeader_ok hr
    split
    · exact a.setEng.complete
    · rename_i h0
      exact a.move.inv (And.intro (readHeader_buildOk hr h0 _) (And.intro hn hpos))

/-- PHASE = HUD_BUILD (45_huffman_decoder.md R264). -/
theorem inv_hudBuild {s t : State} (a : RunsIn .hudBuild s)
    (k : s.eng.huf.BuildOk s.eng.hud.n ∧ s.eng.hud.n < 2 ^ 32 ∧ s.eng.brPos ≤ s.inBits)
    (e : hudBuild s = .next t) : t.Inv := by
  obtain ⟨hk, hn, hp⟩ := k
  unfold hudBuild at e
  rcases buildStep_cases hk with ⟨r, -, hb, ok⟩ | ⟨g, hb, -, ok, -⟩ <;> rw [hb] at e <;> cases e
  · have ⟨_, _, hr, _⟩ := ok
    exact a.move.inv ⟨ok, hn, hp, hr, Nat.zero_le _, .inl rfl⟩
  · exact a.setEng.inv (And.intro ok (And.intro hn hp))

/-- The walk stays inside a built tree (45_huffman_decoder.md R265, R266). -/
theorem HufRegs.TreeOk.walk {total : Nat} {h : HufRegs} (k : h.TreeOk total) {walk : Nat} (bit : Bool)
    (hw : walk < h.nodeCnt) (hleaf : walk = h.root ∨ (nodeAt h.node walk).isLeaf = false) :
    (walkBit h.node h.root walk bit).2 < h.nodeCnt ∧
      ((walkBit h.node h.root walk bit).2 = h.root ∨
        (nodeAt h.node (walkBit h.node h.root walk bit).2).isLeaf = false) := by
  obtain ⟨hcnt, -, hroot, nodes, -⟩ := k
  rw [hcnt] at hw hroot ⊢
  exact walkBit_ok bit nodes hroot hw hleaf

/-- PHASE = HUD_WALK (45_huffman_decoder.md R265 to R267). -/
theorem inv_hudWalk {s : State} (a : RunsIn .hudWalk s)
    (k : s.eng.huf.TreeOk s.eng.hud.n ∧ s.eng.hud.n < 2 ^ 32 ∧ s.eng.brPos ≤ s.inBits ∧
      s.eng.hud.walk < s.eng.huf.nodeCnt ∧ s.eng.hud.symCnt ≤ s.eng.hud.n ∧
      (s.eng.hud.walk = s.eng.huf.root ∨ (nodeAt s.eng.huf.node s.eng.hud.walk).isLeaf = false)) :
    (hudWalk s).Inv := by
  obtain ⟨tree, hn, -, hw, -, hleaf⟩ := k
  unfold hudWalk
  split
  · rename_i hlt
    refine a.settle fun t ht => ?_
    unfold hudWalkBit at ht
    split at ht
    · cases ht
    · rename_i b pos hr
      obtain ⟨hrd, rfl, -, -⟩ := readBits_ok hr
      obtain ⟨c, rfl⟩ := a.setEng.putOuts ht
      have hpos : s.eng.brPos + 1 ≤ s.inBits := by omega
      obtain ⟨hwalk, hstand⟩ := tree.walk (b != 0) hw hleaf
      have hsym := walkBit_symbol_le s.eng.huf.node s.eng.huf.root s.eng.hud.walk (b != 0)
      exact c.inv ⟨tree, hn, hpos, hwalk, by simp only [emit_eng]; omega, hstand⟩
  · exact a.complete

/-! ### Every step keeps the invariant -/

/-- A step of a running command, whatever its phase. -/
theorem RunsIn.seqStep {p : Phase} {s t : State} (a : RunsIn p s) (k : ({ s with phase := p } : State).EngineOk)
    (e : seqStep s = .next t) : t.Inv := by
  unfold Machine.seqStep at e
  rw [a.phase] at e
  cases p with
  | idle => cases a.command
  | lzeScan => cases e; exact inv_lzeScan a k
  | lzeFinish => cases e; exact inv_lzeFinish a
  | lzdLoop => exact inv_lzdLoop a k e
  | hueCount => cases e; exact inv_hueCount a k
  | hueHeader => cases e; exact inv_hueHeader a k
  | hueBuild => exact inv_hueBuild a k e
  | hueCodegen => cases e; exact inv_hueCodegen a
  | huePayload => cases e; exact inv_huePayload a
  | hudHeader => cases e; exact inv_hudHeader a
  | hudBuild => exact inv_hudBuild a k e
  | hudWalk => cases e; exact inv_hudWalk a k

/-- The sequencer's turn: nothing in IDLE, else a step of the running command. -/
theorem inv_seqStep {s t : State} (h : s.Inv) (e : seqStep s = .next t) : t.Inv := by
  by_cases hp : s.phase = .idle
  · simp only [seqStep, hp] at e
    cases e
    exact h
  · obtain ⟨a, k⟩ := RunsIn.of_inv h rfl hp
    exact a.seqStep k e

/-- Settles O35, by whose turn it is: the sequencer's, `rst`, or a bus transaction. -/
theorem stepKeepsTheInvariant : Obligations.StepKeepsTheInvariant := by
  intro s t h e
  rcases step_cases s with ⟨-, hs⟩ | ⟨q, -, hs⟩ | ⟨q, -, hs⟩ | ⟨x, q, -, hs⟩ <;> rw [hs] at e
  · exact inv_seqStep h e
  · exact inv_seqStep (s := { s with hostQueue := q }) h e
  · cases e
    exact inv_hardReset (s := { s with hostQueue := q }) h
  · exact inv_of_txn (s := { s with hostQueue := q }) h e

/-! ### The frame of the sequencer's steps -/

/-- Every sequencer step keeps the host's side. -/
theorem HostKept.seqStep {s t : State} (e : seqStep s = .next t) : HostKept s t := by
  unfold Machine.seqStep at e
  split at e
  · cases e; exact .refl s
  · cases e; exact .lzeScan s
  · cases e; exact .lzeFinish s
  · exact .lzdLoop e
  · cases e; exact .hueCount s
  · cases e; exact .hueHeader s
  · exact .hueBuild e
  · cases e; exact .hueCodegen s
  · cases e; exact .huePayload s
  · cases e; exact .hudHeader s
  · exact .hudBuild e
  · cases e; exact .hudWalk s

/-- Settles O39, from the frame of each phase's step. -/
theorem sequencerLeavesTheHostsStateAlone : Obligations.SequencerLeavesTheHostsStateAlone := by
  intro s t e
  obtain ⟨caps, mode, alg, ie, rejected, inLen, inBuf, inEpoch, busData, hostQueue⟩ := HostKept.seqStep e
  exact ⟨caps, mode, alg, ie, rejected, inLen, inBuf, inEpoch, busData, hostQueue⟩

/-! ### Reset -/

theorem inv_resetWith {p : Params} (h : Config.legal p = true) : (State.resetWith p).Inv :=
  Buffers.inv_idle ⟨h, rfl, rfl, rfl, rfl, Nat.zero_le _, fun k hk => absurd hk (Nat.not_lt_zero k)⟩ rfl

/-- Settles O34: the block is idle and the buffers are empty. -/
theorem resetMeetsTheInvariant : Obligations.ResetMeetsTheInvariant :=
  ⟨inv_resetWith (by decide), fun _ h => inv_resetWith h⟩

/-! ### STATUS and `irq` -/

/-- From bit 4 up STATUS holds ERR (40_commands.md R131). -/
@[simp] theorem getLsbD_statusWord_add_four (s : State) (i : Nat) :
    s.statusWord.getLsbD (i + 4) = s.err.code.getLsbD i := by
  by_cases hi : i < 4
  · have h32 : i + 4 < 32 := by omega
    simp [State.statusWord, h32]
  · simp [State.statusWord, BitVec.getLsbD_of_ge _ _ (Nat.le_of_not_lt hi)]

/-- Bits 7:4 of STATUS (10_state.md R23). -/
theorem err_of_statusWord (s : State) : s.statusWord.extractLsb' 4 4 = s.err.code := by
  refine BitVec.eq_of_getLsbD_eq fun i hi => ?_
  rw [BitVec.getLsbD_extractLsb', Nat.add_comm, getLsbD_statusWord_add_four]
  simp [hi]

/-- Bits 31:8 of STATUS (10_state.md R23). -/
theorem reserved_of_statusWord (s : State) : s.statusWord.extractLsb' 8 24 = 0 := by
  refine BitVec.eq_of_getLsbD_eq fun i hi => ?_
  have h8 : 8 + i = (4 + i) + 4 := by omega
  rw [BitVec.getLsbD_extractLsb', h8, getLsbD_statusWord_add_four, BitVec.getLsbD_of_ge _ _ (Nat.le_add_right 4 i)]
  simp

/-- Settles O25: each bit of STATUS by its field's place, and IE as bit 4 of CTRL. -/
theorem statusBitsAndIrq : Obligations.StatusBitsAndIrq := by
  intro s
  have busy : s.statusWord.getLsbD 0 = s.busy := by simp [State.statusWord]
  have done : s.statusWord.getLsbD 1 = s.done := by simp [State.statusWord]
  have rejected : s.statusWord.getLsbD 2 = s.rejected := by simp [State.statusWord]
  have reserved : s.statusWord.getLsbD 3 = false := by simp [State.statusWord]
  have ie : s.ctrlWord.getLsbD 4 = s.ie := by simp [State.ctrlWord]
  refine ⟨?_, done, rejected, reserved, err_of_statusWord s, reserved_of_statusWord s, ?_⟩
  · rw [busy, Bool.eq_iff_iff]
    simp
  · rw [done, ie]
    rfl

end Sys2Proof.Machine

/-! SUPPORT. The statements of 20_memory.md: the reserved region (R64), and the host's transactions as the steps they
are (R72). -/

namespace Sys2Proof.Machine

open Sys2Proof

/-! ### The reserved region -/

/-- A read is answered with 0, whatever its address and data (20_memory.md R64). -/
@[simp] theorem exec_rsv_rd (a : BitVec 30) (d : Word) (s : State) : exec (.rsv .rd a d) s = .next (s.answer 0) := rfl

/-- A write does nothing, whatever its address and data (20_memory.md R64). -/
@[simp] theorem exec_rsv_wr (a : BitVec 30) (d : Word) (s : State) : exec (.rsv .wr a d) s = .next s := rfl

/-- Settles O14: a read answers 0, and an answer changes the bus data alone. -/
theorem reservedRegionReadsZero : Obligations.ReservedRegionReadsZero :=
  ⟨fun a d s => exec_rsv_rd a d s, fun a d s => exec_rsv_wr a d s⟩

/-! ### The host's transactions as steps -/

/-- A waiting host event takes the turn (log 1). -/
theorem step_of_event {s : State} {e : HostEvent} {q : List HostEvent} (h : s.hostQueue = e :: q) :
    step s = hostTurn e { s with hostQueue := q } := by
  simp only [step, turn, h]

/-- A waiting transaction runs as the instruction it decodes to (20_memory.md R72). -/
theorem step_of_txn {s : State} {x : Txn} {q : List HostEvent} (h : s.hostQueue = .txn x :: q) :
    step s = exec (decodeTxn x) { s with hostQueue := q } :=
  step_of_event h

/-- Taking the transaction that was just issued gives the state before it back (log 17). -/
theorem step_issue (x : Txn) (s : State) : step (issue x s) = exec (decodeTxn x) s :=
  step_of_txn (q := s.hostQueue) rfl

/-- Decoding undoes encoding, by the lemma of each instruction (30_encoding.md R92, R94, R96). -/
theorem decode_encode {ctx : CodeCtx} {i : Instr} (h : wellFormed ctx i = true) : decode ctx (encode i) = i := by
  cases i with
  | cfg mode alg ie => exact Laws.DecodeEncode.cfg mode alg ie ctx h
  | lzwC ie => exact Laws.DecodeEncode.lzwC ie ctx h
  | lzwD ie => exact Laws.DecodeEncode.lzwD ie ctx h
  | hufC ie => exact Laws.DecodeEncode.hufC ie ctx h
  | hufD ie => exact Laws.DecodeEncode.hufD ie ctx h
  | illegal mode alg ie => exact Laws.DecodeEncode.illegal mode alg ie ctx h
  | wrReg idx v => exact Laws.DecodeEncode.wrReg idx v ctx h
  | rdReg idx => exact Laws.DecodeEncode.rdReg idx ctx h
  | wrIn i b => exact Laws.DecodeEncode.wrIn i b ctx h
  | rdIn i => exact Laws.DecodeEncode.rdIn i ctx h
  | rdOut k => exact Laws.DecodeEncode.rdOut k ctx h
  | wrOut k b => exact Laws.DecodeEncode.wrOut k b ctx h
  | rsv dir a d => exact Laws.DecodeEncode.rsv dir a d ctx h
  | lzwLit b => exact Laws.DecodeEncode.lzwLit b ctx h
  | lzwEos => exact Laws.DecodeEncode.lzwEos ctx h
  | lzwRef c => exact Laws.DecodeEncode.lzwRef c ctx h
  | lzwKwkwk c => exact Laws.DecodeEncode.lzwKwkwk c ctx h
  | lzwBad c => exact Laws.DecodeEncode.lzwBad c ctx h

/-- The transaction that encodes an instruction decodes to it (30_encoding.md R92, R94). -/
theorem decodeTxn_of_encode {ctx : CodeCtx} {i : Instr} {x : Txn} (h : wellFormed ctx i = true)
    (e : encode i = .bus x) : decodeTxn x = i := by
  have d := decode_encode h
  rwa [e] at d

/-- A numbered word that is not rejected decodes as the transaction it stands for (log 3). -/
theorem decodeTableWord_eq_some {nbits w : Nat} {i : Instr} (h : decodeTableWord nbits w = some i) :
    decodeTxn (tableTxn nbits w) = i := by
  unfold decodeTableWord at h
  split at h
  · exact Option.some.inj h
  · cases h

/-- Settles O28: the host's turn runs the decoded instruction, and encoded instructions and numbered words decode to
their own. -/
theorem stepRunsTheHostTransaction : Obligations.StepRunsTheHostTransaction := by
  refine ⟨fun s x q hq => step_of_txn hq, fun ctx i s x q hw he hq => ?_, fun s nbits w i hd => ?_⟩
  · rw [step_of_txn hq, decodeTxn_of_encode hw he]
  · rw [State.withFetchWord, step_issue, decodeTableWord_eq_some hd]

end Sys2Proof.Machine

/-! SUPPORT. The statements of 30_encoding.md: decoding undoes encoding on each of the three carriers (R90, R99), the
rows of the command decode (R92), the classes of a code (R96), and words written out from the encodings. -/

namespace Sys2Proof.Machine

open Sys2Proof Sys2Proof.Claims

/-! ### Decode of encode -/

/-- The code that a well-formed instruction is written as fits the context's width (30_encoding.md R95, R96). -/
theorem encode_code_lt {ctx : CodeCtx} {i : Instr} {c : Nat} (h : wellFormed ctx i = true) (e : encode i = .code c) :
    c < 2 ^ ctx.width := by
  have fits {n : Nat} (hn : n < 2 ^ 9) (hw : 9 ≤ ctx.width) : n < 2 ^ ctx.width :=
    hn.trans_le (Nat.pow_le_pow_right two_pos hw)
  cases i <;> cases e
  case lzwLit b => exact fits (b.isLt.trans (by decide)) (of_decide_eq_true h)
  case lzwEos => exact fits (by decide) (of_decide_eq_true h)
  case lzwRef | lzwKwkwk | lzwBad => exact of_decide_eq_true (Bool.and_eq_true_iff.1 h).2

/-- A code written at the context's width is read back and classified (30_encoding.md R99). -/
theorem decodeCodeBits_bitsOf {ctx : CodeCtx} {c : Nat} (h : c < 2 ^ ctx.width) :
    decodeCodeBits ctx (bitsOf c ctx.width) = some (decodeCode ctx c) := by
  rw [decodeCodeBits, if_pos (length_bitsOf c ctx.width), ofBits_bitsOf h]

/-- The numbered word of a transaction stands for that transaction (log 3). -/
theorem decodeTableWord_natOfTxn (x : Txn) : decodeTableWord 65 (natOfTxn x) = some (decodeTxn x) := by
  have hx : natOfTxn x % 2 ^ 65 = natOfTxn x := Nat.mod_eq_of_lt (natOfTxn_lt x)
  rw [decodeTableWord, tableTxn, hx, if_pos (natOfTxn_lt x), txnOfNat_natOfTxn]

/-- Settles O33: `decode_encode`, carried to the bits of a code and to the word of a transaction by the round trip of
each; an instruction is encoded as one or the other. -/
theorem decodeOfEncodeIsTheInstruction : Obligations.DecodeOfEncodeIsTheInstruction := by
  intro ctx i h
  have d : decode ctx (encode i) = i := decode_encode h
  refine ⟨d, ?_⟩
  cases e : encode i with
  | bus x =>
    rw [e] at d
    have word : decodeTableWord 65 (natOfTxn x) = some i := (decodeTableWord_natOfTxn x).trans (congrArg some d)
    simp [encodeCodeBits, encodeWord, e, word]
  | code c =>
    rw [e] at d
    have bits : decodeCodeBits ctx (bitsOf c ctx.width) = some i :=
      (decodeCodeBits_bitsOf (encode_code_lt h e)).trans (congrArg some d)
    simp [encodeCodeBits, encodeWord, e, bits]

/-! ### The classes of a code -/

/-- A code is of one of the five classes, each with its condition of 30_encoding.md R96. -/
theorem decodeCode_cases (ctx : CodeCtx) (c : Nat) :
    (c = 256 ∧ decodeCode ctx c = .lzwEos) ∨
    (c ≤ 255 ∧ decodeCode ctx c = .lzwLit (BitVec.ofNat 8 c)) ∨
    ((257 ≤ c ∧ c < ctx.next) ∧ decodeCode ctx c = .lzwRef c) ∨
    ((c = ctx.next ∧ ctx.has = true) ∧ decodeCode ctx c = .lzwKwkwk c) ∨
    ((ctx.next < c ∨ (c = ctx.next ∧ ctx.has = false)) ∧ decodeCode ctx c = .lzwBad c) := by
  unfold decodeCode
  split_ifs with eos lit ref kwkwk
  · exact .inl ⟨eos, rfl⟩
  · exact .inr (.inl ⟨lit, rfl⟩)
  · exact .inr (.inr (.inl ⟨ref, rfl⟩))
  · exact .inr (.inr (.inr (.inl ⟨kwkwk, rfl⟩)))
  · refine .inr (.inr (.inr (.inr ⟨?_, rfl⟩)))
    simp only [Config.eos, Config.firstCode, not_and, Bool.not_eq_true] at eos ref kwkwk
    by_cases hc : c = ctx.next
    · exact .inr ⟨hc, kwkwk hc⟩
    · exact .inl (by omega)

/-- Settles O30: in each class the instruction is the class's own, and the conditions of the other four fail. -/
theorem codeClassesAsTabled : Obligations.CodeClassesAsTabled := by
  intro ctx c hn
  rcases decodeCode_cases ctx c with ⟨h, e⟩ | ⟨h, e⟩ | ⟨h, e⟩ | ⟨⟨h, has⟩, e⟩ | ⟨h | ⟨h, has⟩, e⟩ <;> rw [e]
  · simp; omega
  · simp; omega
  · simp; omega
  · simp [has]; omega
  · simp; omega
  · simp [has]; omega

/-! ### The rows of the command decode -/

/-- The bits 3:0 of a CTRL word are its START, MODE and ALG fields (30_encoding.md R91). -/
theorem and_fifteen (v : Word) : v &&& 15 = ctrlWord (ctrlStart v) (ctrlMode v) (ctrlAlg v) false := by
  have low : (v &&& 15).toNat = v.toNat % 16 := Nat.and_two_pow_sub_one_eq_mod v.toNat 4
  apply BitVec.eq_of_toNat_eq
  rw [low]
  simp only [ctrlWord, ctrlStart, ctrlMode, ctrlAlg, BitVec.getLsbD, Nat.toNat_testBit, BitVec.extractLsb'_toNat,
    Nat.shiftRight_eq_div_pow, BitVec.toNat_ofNat, Bool.toNat_false]
  omega

/-- A mask within bits 3:0 sees the START, MODE and ALG fields alone. -/
theorem and_low_mask (v : Word) {m : Word} (hm : 15 &&& m = m) :
    v &&& m = ctrlWord (ctrlStart v) (ctrlMode v) (ctrlAlg v) false &&& m := by
  rw [← and_fifteen, BitVec.and_assoc, hm]

/-- Every mask of the table is within bits 3:0 (30_encoding.md R92). -/
theorem ctrlRows_mask_low : ∀ r ∈ ctrlRows, 15 &&& r.2 = r.2 := by simp [ctrlRows]

/-- The table is complete and no two of its rows overlap (30_encoding.md R92). -/
theorem ctrlRows_exactly_one (v : Word) : (ctrlRows.filter fun r => v &&& r.2 == r.1).length = 1 := by
  have fields : ∀ (start mode : Bool) (alg : BitVec 2),
      (ctrlRows.filter fun r => ctrlWord start mode alg false &&& r.2 == r.1).length = 1 := by decide
  rw [List.filter_congr fun r hr => by rw [and_low_mask v (ctrlRows_mask_low r hr)]]
  exact fields _ _ _

/-- What row (0, 1) asks of the fields. -/
theorem start_of_row_cfg {v : Word} (h : v &&& 1 = 0) : ctrlStart v = false := by
  simpa [ctrlStart] using congrArg ctrlStart h

/-- What a row of mask 15 asks of the fields. -/
theorem fields_of_row {v : Word} {start mode : Bool} {alg : BitVec 2} (h : v &&& 15 = ctrlWord start mode alg false) :
    ctrlStart v = start ∧ ctrlMode v = mode ∧ ctrlAlg v = alg := by
  rw [and_fifteen] at h
  exact ⟨by simpa using congrArg ctrlStart h, by simpa using congrArg ctrlMode h, by simpa using congrArg ctrlAlg h⟩

/-- What row (9, 9) asks of the fields. -/
theorem fields_of_row_illegal {v : Word} (h : v &&& 9 = 9) : ctrlStart v = true ∧ ctrlAlg v ≠ 0#2 ∧ ctrlAlg v ≠ 1#2 := by
  rw [and_low_mask v (by decide)] at h
  revert h
  generalize ctrlStart v = start, ctrlMode v = mode, ctrlAlg v = alg
  revert start mode alg
  decide

/-- Settles O31: each row fixes the fields that `decodeCtrl` branches on. -/
theorem commandDecodeFollowsTheTable : Obligations.CommandDecodeFollowsTheTable := by
  intro v
  refine ⟨ctrlRows_exactly_one v, fun h => ?_, fun h => ?_, fun h => ?_, fun h => ?_, fun h => ?_, fun h => ?_⟩
  · simp [decodeCtrl, start_of_row_cfg h, ctrlMode, ctrlAlg, ctrlIe]
  · obtain ⟨start, mode, alg⟩ := fields_of_row (start := true) (mode := false) (alg := 0) h
    simp [decodeCtrl, start, mode, alg, ctrlIe]
  · obtain ⟨start, mode, alg⟩ := fields_of_row (start := true) (mode := true) (alg := 0) h
    simp [decodeCtrl, start, mode, alg, ctrlIe]
  · obtain ⟨start, mode, alg⟩ := fields_of_row (start := true) (mode := false) (alg := 1) h
    simp [decodeCtrl, start, mode, alg, ctrlIe]
  · obtain ⟨start, mode, alg⟩ := fields_of_row (start := true) (mode := true) (alg := 1) h
    simp [decodeCtrl, start, mode, alg, ctrlIe]
  · obtain ⟨start, alg0, alg1⟩ := fields_of_row_illegal h
    rw [decodeCtrl, if_pos start, if_neg alg0, if_neg alg1]
    rfl

/-! ### Words written out -/

/-- Settles O32: each word is closed, and the decoder evaluates it. -/
theorem sampleWordsDecode : Obligations.SampleWordsDecode := by
  unfold Obligations.SampleWordsDecode
  decide

end Sys2Proof.Machine

/-! SUPPORT. The statements of 40_commands.md: CTRL writes (R130, R136, R137, R140, R146), the four commands run to
their ends (R141 to R145), completion (R138), and the register and buffer transactions (R130 to R135). -/

namespace Sys2Proof.Machine

open Sys2Proof Sys2Proof.Claims

/-! ### CTRL writes -/

/-- Every instruction with START = 1 is the CTRL write of its fields (30_encoding.md R92, 40_commands.md R130). -/
theorem exec_of_startFields {i : Instr} {mode ie : Bool} {alg : BitVec 2} (h : startFields i = some (mode, alg, ie))
    (s : State) : exec i s = .next (ctrlStartWrite mode alg ie s) := by
  cases i <;> cases h <;> rfl

/-- A START while BUSY = 1 (40_commands.md R140). -/
theorem ctrlStartWrite_busy {s : State} (hb : s.busy = true) (mode : Bool) (alg : BitVec 2) (ie : Bool) :
    ctrlStartWrite mode alg ie s = reject (s.storeCtrl mode alg ie) :=
  if_pos hb

/-- A START while BUSY = 0 (40_commands.md R137). -/
theorem ctrlStartWrite_idle {s : State} (hb : s.busy = false) (mode : Bool) (alg : BitVec 2) (ie : Bool) :
    ctrlStartWrite mode alg ie s = start (s.storeCtrl mode alg ie) :=
  if_neg (ne_true_of_eq_false hb)

/-- What `start()` refuses: a reserved ALG, or more input than IN holds (40_commands.md R137). -/
theorem startRefused_iff (s : State) :
    s.startRefused = true ↔ s.alg.getLsbD 1 = true ∨ s.caps.inCap < s.inLen.toNat := by
  simp only [State.startRefused, Bool.or_eq_true, decide_eq_true_eq]

/-- An accepted START latches the command and starts its engine (40_commands.md R137). -/
theorem exec_start_accepted {i : Instr} {mode ie : Bool} {alg : BitVec 2} {s : State}
    (h : startFields i = some (mode, alg, ie)) (hb : s.busy = false) (ha : alg.getLsbD 1 = false)
    (hn : s.inLen.toNat ≤ s.caps.inCap) : exec i s = .next (engineStart (latched mode alg ie s)) := by
  have hr : (s.storeCtrl mode alg ie).startRefused = false := by
    rw [← Bool.not_eq_true, startRefused_iff, storeCtrl_alg, ha]
    simpa using hn
  rw [exec_of_startFields h, ctrlStartWrite_idle hb, start_accepted hr]
  rfl

/-! The engine that a latched command selects, one equation per case (40_commands.md R137). -/

theorem engineStart_lzw_compress {s : State} (ha : s.eng.cmdAlg = 0) (hm : s.eng.cmdMode = false) :
    engineStart s = lzeInit s := by simp [engineStart, ha, hm]

theorem engineStart_lzw_decompress {s : State} (ha : s.eng.cmdAlg = 0) (hm : s.eng.cmdMode = true) :
    engineStart s = lzdInit s := by simp [engineStart, ha, hm]

theorem engineStart_huffman_compress {s : State} (ha : s.eng.cmdAlg = 1) (hm : s.eng.cmdMode = false) :
    engineStart s = hueInit s := by simp [engineStart, ha, hm]

theorem engineStart_huffman_decompress {s : State} (ha : s.eng.cmdAlg = 1) (hm : s.eng.cmdMode = true) :
    engineStart s = hudInit s := by simp [engineStart, ha, hm]

/-- Settles O1: a word with START = 0 falls to the last row of the command decode, and CFG is the field store. -/
theorem cfgStoresModeAlgIe : Obligations.CfgStoresModeAlgIe := by
  refine ⟨fun v hv => ?_, fun mode alg ie s => rfl⟩
  have hstart : ctrlStart v = false := hv
  rw [decodeCtrl, if_neg (ne_true_of_eq_false hstart)]
  rfl

/-- Settles O2: the fields are stored, and `reject()` sets REJECTED. -/
theorem startWhileBusyIsRejected : Obligations.StartWhileBusyIsRejected := by
  intro i mode alg ie s hi hb
  rw [exec_of_startFields hi, ctrlStartWrite_busy hb]
  rfl

/-- Settles O3: the fields are stored, and `start()` ends in `illegal()`. -/
theorem refusedStartIsIllegalCommand : Obligations.RefusedStartIsIllegalCommand := by
  intro i mode alg ie s hi hb href
  have hr : (s.storeCtrl mode alg ie).startRefused = true := (startRefused_iff _).2 href
  refine ⟨illegal (s.storeCtrl mode alg ie), ?_, rfl, rfl, hb, rfl⟩
  rw [exec_of_startFields hi, ctrlStartWrite_idle hb, start_refused hr]

/-- Settles O4: the latch, then `lzeInit`. -/
theorem lzwCompressStarts : Obligations.LzwCompressStarts := by
  intro ie s hb hn
  rw [exec_start_accepted (i := .lzwC ie) rfl hb rfl hn, engineStart_lzw_compress rfl rfl]
  rfl

/-- Settles O5: the latch, then `lzdInit`. -/
theorem lzwDecompressStarts : Obligations.LzwDecompressStarts := by
  intro ie s hb hn
  rw [exec_start_accepted (i := .lzwD ie) rfl hb rfl hn, engineStart_lzw_decompress rfl rfl]
  rfl

/-- Settles O6: the latch, then `hueInit`. -/
theorem huffmanCompressStarts : Obligations.HuffmanCompressStarts := by
  intro ie s hb hn
  rw [exec_start_accepted (i := .hufC ie) rfl hb rfl hn, engineStart_huffman_compress rfl rfl]
  rfl

/-- Settles O7: the latch, then `hudInit`. -/
theorem huffmanDecompressStarts : Obligations.HuffmanDecompressStarts := by
  intro ie s hb hn
  rw [exec_start_accepted (i := .hufD ie) rfl hb rfl hn, engineStart_huffman_decompress rfl rfl]
  rfl

/-! ### Whole commands -/

/-- A command started as `t`, the latch with the engine initialised, whose run ends as `Ends` says has the outcome of
its engine function (40_commands.md R141). -/
theorem Ends.runsToOutcome {i : Instr} {f : List Byte × ErrCode} {mode ie : Bool} {alg : BitVec 2} {s t : State}
    (hq : s.hostQueue = []) (hx : exec i s = .next t) (hv : Emitted (latched mode alg ie s) [] t)
    (h : Ends t f.1 f.2) : runsToOutcome i f mode alg ie s := by
  obtain ⟨k, u, hend, hdone, hkept, hout⟩ := h
  obtain ⟨caps, mode, alg, ie, rejected, inLen, inBuf, inEpoch, busData, hostQueue⟩ := hv.kept.trans hkept
  refine ⟨t, hx, k, u, hend, hdone, ?_, caps, mode, alg, ie, rejected, inLen, inBuf, inEpoch, busData,
    hostQueue.trans hq⟩
  have tcaps : t.caps = s.caps := hv.kept.caps
  have tpos : t.eng.outPos = 0 := hv.pos
  have tbuf : t.outBuf = s.outBuf := hv.buf
  have tepoch : t.outEpoch = s.outEpoch := hv.epoch
  rw [tcaps, tpos, tbuf, tepoch, Nat.zero_add] at hout
  unfold commandOutcome
  split_ifs at hout ⊢
  · exact hout
  · obtain ⟨err, len, buf, epoch⟩ := hout
    refine ⟨err, len, fun b => ?_⟩
    simp only [State.outByte, buf, epoch, Memory.read_writeRun, Nat.zero_le, true_and, Nat.zero_add, Nat.sub_zero]
    split <;> rfl
  · exact hout

/-- The input bit stream is that of the input's bytes (20_memory.md R73, 41_bitpacker.md R155). -/
theorem bit_eq_listBit_input (s : State) {p : Nat} (hp : p < 8 * s.input.length) : s.bit p = listBit s.input p := by
  simp only [State.bit, listBit, streamBit]
  rw [input_get s (p / 8) (by omega)]

/-- Settles O40: from LZE_SCAN, with the whole input to read, the run ends as `lze_ends` says. -/
theorem lzwCompressOutcome : Obligations.LzwCompressOutcome := by
  rintro ie s ⟨-, hidle, hq, hn⟩
  have started : exec (.lzwC ie) s = .next (lzeInit (latched false 0 ie s)) :=
    lzwCompressStarts ie s ((busy_eq_false s).2 hidle) hn
  have run := lze_ends s.inLen.toNat (lzeInit (latched false 0 ie s)) rfl hq (Nat.zero_le _) (Nat.zero_add _)
  have input : (List.range s.inLen.toNat).map (fun i => s.inByte (0 + i)) = s.input :=
    List.map_congr_left fun i _ => congrArg s.inByte (Nat.zero_add i)
  rw [scan_fresh _ _ _ rfl rfl rfl rfl] at run
  refine Ends.runsToOutcome hq started (Emitted.update _ _ _ rfl) ?_
  rw [← input]
  exact run

/-- Settles O41: from LZD_LOOP, with the whole input to read, the run ends as `lzd_ends` says. -/
theorem lzwDecompressOutcome : Obligations.LzwDecompressOutcome := by
  rintro ie s ⟨hinv, hidle, hq, hn⟩
  have started : exec (.lzwD ie) s = .next (lzdInit (latched true 0 ie s)) :=
    lzwDecompressStarts ie s ((busy_eq_false s).2 hidle) hn
  have hw : 9 ≤ s.caps.maxCodeWidth := ((legal_iff _).1 ((inv_iff s).1 hinv).1.legal).1
  have bits : (lzdInit (latched true 0 ie s)).inBits = 8 * s.input.length := congrArg (8 * ·) (length_input s).symm
  have run := lzd_ends s.input s.caps.maxCodeWidth (8 * s.input.length) (lzdInit (latched true 0 ie s)) rfl hq
    (Nat.zero_le _) rfl (LzdRegs.init_ok hw _) (fun p hp => bit_eq_listBit_input s hp) bits (by omega)
  rw [lzdInit_eng, lzdRun_fresh] at run
  exact Ends.runsToOutcome hq started (Emitted.update _ _ _ rfl) run

/-- Settles O42: from HUE_COUNT, with the whole input to read, the run ends as `hue_ends` says. -/
theorem huffmanCompressOutcome : Obligations.HuffmanCompressOutcome := by
  rintro ie s ⟨-, hidle, hq, hn⟩
  have started : exec (.hufC ie) s = .next (hueInit (latched false 1 ie s)) :=
    huffmanCompressStarts ie s ((busy_eq_false s).2 hidle) hn
  exact Ends.runsToOutcome hq started (Emitted.update _ _ _ rfl)
    (hue_ends _ s.input rfl hq (Nat.zero_le _) rfl rfl rfl (length_input s) rfl)

/-- Settles O43: from HUD_HEADER, with the whole input to read, the run ends as `hud_ends` says. -/
theorem huffmanDecompressOutcome : Obligations.HuffmanDecompressOutcome := by
  rintro ie s ⟨-, hidle, hq, hn⟩
  have started : exec (.hufD ie) s = .next (hudInit (latched true 1 ie s)) :=
    huffmanDecompressStarts ie s ((busy_eq_false s).2 hidle) hn
  exact Ends.runsToOutcome hq started (Emitted.update _ _ _ rfl)
    (hud_ends _ s.input rfl hq (Nat.zero_le _) (fun p hp => bit_eq_listBit_input s hp) (length_input s))

/-- Settles O19: LZW.EOS is `complete()`, which leaves the block idle with DONE = 1. -/
theorem endOfStreamCompletes : Obligations.EndOfStreamCompletes :=
  fun s => ⟨complete s, rfl, rfl, rfl, rfl⟩

/-! ### Register transactions -/

/-- CTRL's fields at their places, as a sum (40_commands.md R131). -/
theorem ctrlWord_eq_sum (s : State) :
    s.ctrlWord = BitVec.ofNat 32 (16 * s.ie.toNat + 4 * s.alg.toNat + 2 * s.mode.toNat) := by
  unfold State.ctrlWord
  generalize s.ie = ie, s.alg = alg, s.mode = mode
  revert ie alg mode
  decide

/-- STATUS's fields at their places, as a sum (40_commands.md R131). -/
theorem statusWord_eq_sum (s : State) :
    s.statusWord =
      BitVec.ofNat 32 (16 * s.err.code.toNat + 4 * s.rejected.toNat + 2 * s.done.toNat + s.busy.toNat) := by
  unfold State.statusWord
  generalize s.err.code = err, s.rejected = rejected, s.done = done, s.busy = busy
  revert err rejected done busy
  decide

/-- The register file, offset by offset (40_commands.md R131). -/
theorem readReg_eq_registerValue (s : State) (idx : BitVec 28) : s.readReg idx = registerValue s idx := by
  unfold State.readReg registerValue
  simp only [← BitVec.toNat_inj, ← ctrlWord_eq_sum, ← statusWord_eq_sum]
  generalize idx.toNat = n
  match n with
  | 0 | 1 | 2 | 3 | 4 | 5 | 6 => rfl
  | _ + 7 => simp

/-- Settles O8: the answer is the register's value, and the invariant holds OUT_LEN at 0 while a command runs. -/
theorem readRegisterReturnsItsValue : Obligations.ReadRegisterReturnsItsValue := by
  refine ⟨fun idx s => ?_, fun s hinv hb => ((inv_busy hb).1 hinv).1.outLen⟩
  rw [← readReg_eq_registerValue]
  rfl

/-- A host write of STATUS clears where the data bits are 1 (40_commands.md R148). -/
theorem writeStatus_eq (v : Word) (s : State) : s.writeStatus v =
    { s with
      done := if v.getLsbD 1 = true then false else s.done
      rejected := if v.getLsbD 2 = true then false else s.rejected } := by
  have clear : ∀ d w : Bool, (d && !w) = if w = true then false else d := by decide
  rw [State.writeStatus, clear, clear]

/-- From offset 0x0C up no register is written by the host (40_commands.md R130). -/
theorem writeReg_read_only {idx : BitVec 28} (h : 3 ≤ idx.toNat) (v : Word) (s : State) : s.writeReg idx v = s := by
  unfold State.writeReg
  split
  · omega
  · omega
  · omega
  · rfl

/-- Settles O9: CTRL by `exec_decodeCtrl`, the other offsets by what their write does. -/
theorem writeRegisterEffects : Obligations.WriteRegisterEffects := by
  refine ⟨fun v s => (exec_decodeCtrl v s).symm, fun v s => exec_decodeCtrl v s, fun v s => ?_, fun v s hb => ?_,
    fun v s hb => ?_, fun idx v s h => ?_⟩
  · exact congrArg Host.Outcome.next (writeStatus_eq v s)
  · exact congrArg Host.Outcome.next (writeInLen_idle ((busy_eq_false s).1 hb) v)
  · exact congrArg Host.Outcome.next (writeInLen_busy ((busy_eq_true s).1 hb) v)
  · exact congrArg Host.Outcome.next (writeReg_read_only h v s)

/-! ### Buffer transactions -/

/-- An IN byte after a host write while BUSY = 0 (40_commands.md R132). -/
theorem inByte_write (s : State) (i j : Nat) (b : Byte) :
    ({ s with inBuf := s.inBuf.write i b } : State).inByte j = if j = i then b else s.inByte j := by
  simp only [State.inByte, Memory.read_write]
  split <;> rfl

/-- Settles O10: below IN_CAP while BUSY = 0 the buffer is written at one index; else the write is dropped. -/
theorem writeInStoresOneByte : Obligations.WriteInStoresOneByte := by
  refine ⟨fun i b s hb hi => ?_, fun i b s h => congrArg Host.Outcome.next ?_⟩
  · refine ⟨{ s with inBuf := s.inBuf.write i.toNat b },
      congrArg Host.Outcome.next (hostWriteIn_idle ((busy_eq_false s).1 hb) hi b), rfl, ?_, fun j hj => ?_⟩
    · rw [inByte_write, if_pos rfl]
    · rw [inByte_write, if_neg hj]
  · rcases h with hb | hi
    · exact hostWriteIn_busy ((busy_eq_true s).1 hb) _ b
    · exact hostWriteIn_out_of_range hi b

/-- Settles O11: the bus is answered with the byte zero-extended. -/
theorem readInReturnsByte : Obligations.ReadInReturnsByte := by
  intro i s
  rw [BitVec.ofNat_toNat]
  rfl

/-! A host read of OUT, one equation per case (40_commands.md R134). -/

theorem hostReadOut_out_of_range {s : State} {k : Nat} (hk : s.caps.outCap ≤ k) : s.hostReadOut k = s.answer 0 :=
  if_pos hk

theorem hostReadOut_busy {s : State} {k : Nat} (hk : k < s.caps.outCap) (hb : s.busy = true) :
    s.hostReadOut k =
      { s.answer ((Config.freeBusyByte s.draws).setWidth 32) with draws := s.draws + 1 } := by
  rw [State.hostReadOut, if_neg (Nat.not_le.2 hk), if_pos hb]

theorem hostReadOut_idle {s : State} {k : Nat} (hk : k < s.caps.outCap) (hb : s.busy = false) :
    s.hostReadOut k = s.answer ((s.outByte k).setWidth 32) := by
  rw [State.hostReadOut, if_neg (Nat.not_le.2 hk), if_neg (ne_true_of_eq_false hb)]

/-- Settles O12, by the three cases of a host read of OUT. -/
theorem readOutReturnsByte : Obligations.ReadOutReturnsByte := by
  refine ⟨fun k s hk => ?_, fun k s hk hb => ⟨Config.freeBusyByte s.draws, s.draws + 1, ?_⟩, fun k s hk hb => ?_⟩
  · exact congrArg Host.Outcome.next (hostReadOut_out_of_range hk)
  · rw [BitVec.ofNat_toNat]
    exact congrArg Host.Outcome.next (hostReadOut_busy hk hb)
  · rw [BitVec.ofNat_toNat]
    exact congrArg Host.Outcome.next (hostReadOut_idle hk hb)

/-- Engine initialisation writes no OUT byte (40_commands.md R137). -/
theorem outByte_engineStart (s : State) : (engineStart s).outByte = s.outByte := by
  rcases engineStart_cases s with ⟨-, -, e⟩ | ⟨-, -, e⟩ | ⟨-, -, e⟩ | ⟨-, -, e⟩ <;> rw [e] <;> rfl

/-- A CTRL write writes no OUT byte, whether its START is rejected, refused or accepted (40_commands.md R130). -/
theorem outByte_writeCtrl (v : Word) (s : State) : (writeCtrl v s).outByte = s.outByte := by
  unfold writeCtrl
  split
  · rcases ctrlStartWrite_cases (ctrlMode v) (ctrlAlg v) (ctrlIe v) s with ⟨-, e⟩ | ⟨-, -, e⟩ | ⟨-, -, e⟩ <;> rw [e]
    · rfl
    · rfl
    · exact outByte_engineStart _
  · rfl

theorem outByte_writeReg (idx : BitVec 28) (v : Word) (s : State) : (s.writeReg idx v).outByte = s.outByte := by
  unfold State.writeReg
  split
  · exact outByte_writeCtrl v s
  · rfl
  · unfold State.writeInLen
    split <;> rfl
  · rfl

theorem outByte_hostWriteIn (i : Nat) (b : Byte) (s : State) : (s.hostWriteIn i b).outByte = s.outByte := by
  unfold State.hostWriteIn
  split <;> rfl

theorem outByte_hostReadOut (k : Nat) (s : State) : (s.hostReadOut k).outByte = s.outByte := by
  unfold State.hostReadOut
  split
  · rfl
  · split <;> rfl

/-- Settles O13: of the things a bus transaction can do (`exec_decodeTxn_cases`) none writes OUT. -/
theorem writeOutHasNoEffect : Obligations.WriteOutHasNoEffect := by
  refine ⟨fun k b s => rfl, fun x s u e => congrFun ?_⟩
  rcases exec_decodeTxn_cases x s with ⟨idx, v, hx⟩ | ⟨d, hx⟩ | ⟨i, b, hx⟩ | ⟨k, hx⟩ | hx <;>
    rw [hx] at e <;> cases e
  · exact outByte_writeReg idx v s
  · rfl
  · exact outByte_hostWriteIn i b s
  · exact outByte_hostReadOut k s
  · rfl

end Sys2Proof.Machine

/-! SUPPORT. The statements of 41_bitpacker.md: OutByte and its overflow (R151), the packed stream (R154), ReadBits and
AtEnd (R156, R157), and the round trip of the packer (R158). -/

namespace Sys2Proof.Machine

open Sys2Proof Sys2Proof.Claims

/-! ### Reading -/

/-- `ReadBits`' value as a sum of powers of two, the bit at the cursor being the most significant (R156). -/
theorem gatherBits_eq_sum (bit : Nat → Bool) (w pos : Nat) :
    gatherBits bit w pos 0 = ((List.range w).map fun t => (bit (pos + t)).toNat * 2 ^ (w - 1 - t)).sum := by
  rw [gatherBits_eq, Nat.zero_mul, Nat.zero_add, ofBits_sum, List.length_map, List.length_range]
  congr 1
  refine List.map_congr_left fun t ht => ?_
  simp [List.getD_eq_getElem?_getD, List.mem_range.1 ht]

/-- Settles O46, by the two cases of `ReadBits`; its value is below `2 ^ w` and is the sum of its bits' weights. -/
theorem readBitsReturnsTheBitsAtTheCursor : Obligations.ReadBitsReturnsTheBitsAtTheCursor := by
  intro bit total pos w
  refine ⟨fun h => if_pos h, fun h => ?_, rfl⟩
  exact ⟨gatherBits bit w pos 0, if_neg (Nat.not_lt.2 h), gatherBits_lt bit w pos, gatherBits_eq_sum bit w pos⟩

/-- Reading back the pairs that a stream carries, by reading the first of them and then the others. -/
theorem readAll_of_carries {bit : Nat → Bool} {total pos : Nat} {ps : List (Nat × Nat)}
    (h : Carries bit total pos ps) (hv : ∀ p ∈ ps, p.1 < 2 ^ p.2) :
    readAll bit total (ps.map Prod.snd) pos = .ok (ps.map Prod.fst, pos + (ps.map Prod.snd).sum) := by
  induction ps generalizing pos with
  | nil => rfl
  | cons p ps ih =>
    obtain ⟨hp, hps⟩ := List.forall_mem_cons.1 hv
    obtain ⟨first, rest⟩ := h.read hp
    simp only [List.map_cons, List.sum_cons, readAll, first, ih rest hps, Nat.add_assoc]

/-- Settles O48: a packed stream carries its pairs from position 0, and it is padded to whole bytes. -/
theorem packedStreamReadsBack : Obligations.PackedStreamReadsBack := by
  intro ps hv
  have len := length_packed ps
  rw [length_fieldBits] at len
  refine ⟨?_, by omega⟩
  rw [readAll_of_carries (carries_packed ps) hv, Nat.zero_add]

/-! ### Output -/

/-- Settles O45: without an overflow `OutByte` emits a run of one byte. -/
theorem outByteAppendsOrOverflows : Obligations.OutByteAppendsOrOverflows := by
  refine ⟨fun v s h => if_pos h, fun v s h => ⟨s.emit [v], if_neg h, rfl, ?_, fun k hk => ?_⟩⟩
  · simp [outByte_emit]
  · rw [outByte_emit, dif_neg (by simp only [List.length_singleton]; omega)]

/-- What a BitWriter operation that does not raise leaves: its registers stored and its bytes put out. -/
theorem packOut_ok {r : BitWriter × List Byte} {s t : State} (h : s.eng.outPos ≤ s.caps.outCap)
    (e : packOut r s = .ok t) : s.eng.outPos + r.2.length ≤ s.caps.outCap ∧ t = (s.setBw r.1).emit r.2 :=
  putOuts_ok (s := s.setBw r.1) h e

/-- Two BitWriter operations put out the bytes of both and leave the registers of the second. -/
theorem emit_setBw_emit (s : State) (v w : BitWriter) (as bs : List Byte) :
    (((s.setBw v).emit as).setBw w).emit bs = (s.setBw w).emit (as ++ bs) := by
  simp [State.emit, State.setBw, Memory.writeRun_append, Nat.add_assoc]

/-- `WriteBits` of each pair from an empty packer and then `Finish` put out the packed stream (R154). -/
theorem writeBits_finish_ok {ps : List (Nat × Nat)} {s t u : State} (h : s.eng.outPos ≤ s.caps.outCap)
    (hw : s.eng.bw = BitWriter.empty) (ht : writeBits ps s = .ok t) (hu : packOut t.eng.bw.finish t = .ok u) :
    u = (s.setBw t.eng.bw.finish.1).emit (packed ps) := by
  obtain ⟨fits, rfl⟩ := packOut_ok h ht
  obtain ⟨-, rfl⟩ := packOut_ok fits hu
  rw [emit_setBw_emit, hw]
  rfl

/-- Settles O47: the bytes put out are the packed stream's, which are those of the values' bits (`packed_eq`). -/
theorem packedStreamIsTheValuesBits : Obligations.PackedStreamIsTheValuesBits := by
  intro ps s t u h0 hw ht hu
  obtain rfl := writeBits_finish_ok (h0 ▸ Nat.zero_le _) hw ht hu
  have bytes : packed ps = bytesOfBits (ps.flatMap fun p => bitsOf p.1 p.2) := packed_eq ps
  refine ⟨?_, fun k hk => ?_⟩
  · simp [h0, length_packed, length_fieldBits]
  · simp only [outByte_emit, setBw_eng, h0, Nat.zero_add, Nat.zero_le, true_and, Nat.sub_zero, bytes]
    exact dif_pos hk

/-! ### An entry that does not fit -/

/-- The entry of a KWKWK code is the decoder's own (43_lzw_decoder.md R203). -/
theorem codeEntry_kwkwk (s : State) (c : Nat) :
    codeEntry s (.lzwKwkwk c) = s.eng.lzd.kwkwk.map fun e => (c, e) := by
  unfold codeEntry LzdRegs.kwkwk
  cases stringOf s.eng.lzd.tab s.eng.lzd.prev <;> cases firstOf s.eng.lzd.tab s.eng.lzd.prev <;> rfl

/-- LZW.LIT, LZW.REF and LZW.KWKWK accept their entry (43_lzw_decoder.md R203). -/
theorem exec_of_codeEntry {i : Instr} {c : Nat} {e : List Byte} {s : State} (h : codeEntry s i = some (c, e)) :
    exec i s = lzdAccept c (some e) s := by
  cases i with
  | lzwLit b => cases h; rfl
  | lzwRef d =>
    obtain ⟨e', he, ⟨⟩⟩ := Option.map_eq_some_iff.1 h
    exact congrArg (lzdAccept c · s) he
  | lzwKwkwk d =>
    rw [codeEntry_kwkwk] at h
    obtain ⟨e', he, ⟨⟩⟩ := Option.map_eq_some_iff.1 h
    exact congrArg (lzdAccept c · s) he
  | _ => cases h

/-- An entry longer than what is left of OUT ends in the error entry (41_bitpacker.md R151). -/
theorem lzdAccept_overflow {c : Nat} {e : List Byte} {s : State} (hp : s.eng.outPos ≤ s.caps.outCap)
    (hf : s.caps.outCap < s.eng.outPos + e.length) :
    lzdAccept c (some e) s = .next (raise .outputOverflow s) := by
  simp only [lzdAccept, putOuts_eq e s hp, if_neg (Nat.not_le.2 hf)]

/-- `raise` makes the error entry; every OUT byte reads as a free value of the next number (60_exceptions.md R304). -/
theorem errorEntered_raise (e : ErrCode) (s : State) : errorEntered e s (raise e s) :=
  ⟨rfl, s.outEpoch + 1, fun _ => rfl⟩

/-- Settles O21: the instruction accepts its entry, which does not fit. -/
theorem entryTooLongRaisesOutputOverflow : Obligations.EntryTooLongRaisesOutputOverflow := by
  intro i c e s hi hp hf
  exact ⟨_, (exec_of_codeEntry hi).trans (lzdAccept_overflow hp hf), errorEntered_raise _ s⟩

end Sys2Proof.Machine

/-! SUPPORT. The statements of 42_lzw_encoder.md: Insert and Grow (R172, R173), and the codes of a compressed stream:
their widths by position (R179), that none is cut (R180), and the stream's length (R178, R181). -/

namespace Sys2Proof.Machine

open Sys2Proof

/-- Settles O49, by the two cases of `Insert`. -/
theorem insertAddsOneEntryUntilFull : Obligations.InsertAddsOneEntryUntilFull :=
  ⟨fun _ _ _ _ h => LzeRegs.insert_room h, fun _ _ _ _ h => LzeRegs.insert_full h.not_lt⟩

/-! ### The codes of an input -/

/-- The width of code number `j`, from 1 (42_lzw_encoder.md R179). -/
def codeWidth (mcw j : Nat) : Nat := min mcw (bitlen (256 + j))

theorem codeWidth_le (mcw j : Nat) : codeWidth mcw j ≤ mcw := Nat.min_le_left _ _

theorem codeWidth_mono (mcw : Nat) {i j : Nat} (h : i ≤ j) : codeWidth mcw i ≤ codeWidth mcw j :=
  min_le_min_left mcw (bitlen_mono (Nat.add_le_add_left h 256) (by omega))

theorem codeWidth_one {mcw : Nat} (h : 9 ≤ mcw) : codeWidth mcw 1 = 9 := by
  have bits : bitlen 257 = 9 := rfl
  rw [codeWidth, bits, Nat.min_eq_right h]

/-- The end-of-stream code fits every code's width (42_lzw_encoder.md R180). -/
theorem eos_lt_codeWidth {mcw j : Nat} (h : 9 ≤ mcw) (hj : 1 ≤ j) : 256 < 2 ^ codeWidth mcw j := by
  have nine : 9 ≤ codeWidth mcw j := codeWidth_one h ▸ codeWidth_mono mcw hj
  calc 256 < 2 ^ 9 := by decide
    _ ≤ 2 ^ codeWidth mcw j := Nat.pow_le_pow_right two_pos nine

/-- Codes of matches, in the order in which a stream begins with them: each has the width of its position, fits it, and
is not the end-of-stream code (42_lzw_encoder.md R179, R180). -/
def MatchCodes (mcw : Nat) (cs : List (Nat × Nat)) : Prop :=
  ∀ i c w, cs[i]? = some (c, w) → w = codeWidth mcw (1 + i) ∧ c < 2 ^ w ∧ c ≠ 256

/-- An element of a list with one more at its end. -/
theorem getElem?_concat_cases {α : Type} {l : List α} {a b : α} {i : Nat} (h : (l ++ [a])[i]? = some b) :
    l[i]? = some b ∨ i = l.length ∧ b = a := by
  rw [List.getElem?_append] at h
  split at h
  · exact .inl h
  · obtain ⟨hi, rfl⟩ := List.getElem?_eq_some_iff.1 h
    simp only [List.length_singleton] at hi
    exact .inr ⟨by omega, by simp⟩

/-- The code that the encoder is about to write goes on the codes before it (42_lzw_encoder.md R175, R176). -/
theorem MatchCodes.concat {mcw : Nat} {r : LzeRegs} {cs : List (Nat × Nat)} (h : MatchCodes mcw cs)
    (at_end : EncoderAt mcw r (1 + cs.length)) : MatchCodes mcw (cs ++ [(r.matched, r.width)]) := by
  intro i c w hi
  rcases getElem?_concat_cases hi with hi | ⟨rfl, ⟨⟩⟩
  · exact h i c w hi
  · obtain ⟨-, -, -, -, next_le, -, -, matched⟩ := at_end.ok
    obtain ⟨lt_next, not_eos⟩ := matched at_end.has
    exact ⟨at_end.width, by omega, not_eos⟩

/-- A compressed stream is the codes of at most as many matches as there are input bytes, and then the end-of-stream
code at the width of its position (42_lzw_encoder.md R177 to R180). -/
theorem lzwCodes_eq_concat {mcw : Nat} (h : 9 ≤ mcw) (x : List Byte) :
    ∃ cs, lzwCodes mcw x = cs ++ [(256, codeWidth mcw (1 + cs.length))] ∧ MatchCodes mcw cs ∧
      cs.length ≤ x.length := by
  cases x with
  | nil =>
    refine ⟨[], ?_, fun i c w hi => by simp at hi, Nat.le_refl 0⟩
    rw [lzwCodes_nil, List.nil_append, List.length_nil, codeWidth_one h]
  | cons b x =>
    obtain ⟨at_end, len, scanned⟩ := (encoderAt_start h b).scan x
    refine ⟨_ ++ [_], ?_, MatchCodes.concat scanned at_end, by simpa using len⟩
    rw [lzwCodes_cons mcw b x h, at_end.lastGrow, List.length_append, List.length_singleton, List.append_assoc]
    rfl

/-- Settles O50: a code of the stream is a match's code or the end-of-stream code, each at the width of its position. -/
theorem lzwCodeWidthsByPosition : Obligations.LzwCodeWidthsByPosition := by
  intro mcw x j c w h hj
  obtain ⟨cs, e, codes, -⟩ := lzwCodes_eq_concat h x
  rw [e] at hj
  rw [Nat.add_comm j 1]
  rcases getElem?_concat_cases hj with hj | ⟨rfl, ⟨⟩⟩
  · exact (codes j c w hj).1
  · rfl

/-- The width of a code by its place in the stream (42_lzw_encoder.md R179). -/
theorem lzwCodes_getElem_snd {mcw : Nat} (h : 9 ≤ mcw) (x : List Byte) {j : Nat} (hj : j < (lzwCodes mcw x).length) :
    (lzwCodes mcw x)[j].2 = codeWidth mcw (j + 1) :=
  lzwCodeWidthsByPosition mcw x j _ _ h (List.getElem?_eq_getElem hj)

/-- The widths never decrease (42_lzw_encoder.md R180). -/
theorem lzwCodes_widths_pairwise {mcw : Nat} (h : 9 ≤ mcw) (x : List Byte) :
    ((lzwCodes mcw x).map Prod.snd).Pairwise (· ≤ ·) := by
  rw [List.pairwise_map, List.pairwise_iff_getElem]
  intro i j hi hj hij
  rw [lzwCodes_getElem_snd h, lzwCodes_getElem_snd h]
  exact codeWidth_mono mcw (by omega)

/-- Settles O51, from the shape of the stream and the widths by position. -/
theorem lzwCodesFitTheirWidths : Obligations.LzwCodesFitTheirWidths := by
  intro mcw x h
  obtain ⟨cs, e, codes, -⟩ := lzwCodes_eq_concat h x
  have match_code : ∀ p ∈ cs, p.1 < 2 ^ p.2 ∧ p.1 ≠ 256 := fun p hp => by
    obtain ⟨i, hi⟩ := List.mem_iff_getElem?.1 hp
    exact (codes i p.1 p.2 hi).2
  refine ⟨?_, lzwCodes_widths_pairwise h x, cs, _, e, fun p hp => (match_code p hp).2⟩
  rw [e, List.forall_mem_append, List.forall_mem_singleton]
  exact ⟨fun p hp => (match_code p hp).1, eos_lt_codeWidth h (Nat.le_add_right 1 _)⟩

/-! ### The length of the stream -/

/-- No code is wider than MAX_CODE_WIDTH (42_lzw_encoder.md R179, R181). -/
theorem lzwCodes_widths_sum_le {mcw : Nat} (h : 9 ≤ mcw) (x : List Byte) :
    ((lzwCodes mcw x).map Prod.snd).sum ≤ (lzwCodes mcw x).length * mcw := by
  have bound : ∀ w ∈ (lzwCodes mcw x).map Prod.snd, w ≤ mcw := by
    rw [List.forall_mem_map]
    intro p hp
    obtain ⟨j, hj, rfl⟩ := List.mem_iff_getElem.1 hp
    exact lzwCodes_getElem_snd h x hj ▸ codeWidth_le mcw _
  simpa using List.sum_le_card_nsmul _ mcw bound

/-- At most one code per input byte, and the end-of-stream code (42_lzw_encoder.md R178). -/
theorem length_lzwCodes_le {mcw : Nat} (h : 9 ≤ mcw) (x : List Byte) : (lzwCodes mcw x).length ≤ x.length + 1 := by
  obtain ⟨cs, e, -, len⟩ := lzwCodes_eq_concat h x
  rw [e, List.length_append]
  exact Nat.add_le_add_right len 1

/-- A compressed stream is its codes' bits, padded to whole bytes (42_lzw_encoder.md R178). -/
theorem length_lzwCompress (mcw : Nat) (x : List Byte) :
    (lzwCompress mcw x).length = (((lzwCodes mcw x).map Prod.snd).sum + 7) / 8 := by
  rw [lzwCompress, length_packed, length_fieldBits]

/-- Settles O52: the bound is that of the number of codes times that of their widths. -/
theorem lzwCompressedLength : Obligations.LzwCompressedLength := by
  intro mcw x h
  have bits : ((lzwCodes mcw x).map Prod.snd).sum ≤ (x.length + 1) * mcw :=
    (lzwCodes_widths_sum_le h x).trans (Nat.mul_le_mul_right mcw (length_lzwCodes_le h x))
  refine ⟨length_lzwCompress mcw x, length_lzwCodes_le h x, ?_, ?_⟩
  · rw [length_lzwCompress]
    exact Nat.div_le_div_right (Nat.add_le_add_right bits 7)
  · rw [lzwCompress, lzwCodes_nil]
    decide

end Sys2Proof.Machine

/-! SUPPORT. The statements of 43_lzw_decoder.md: the entry of every code and its first byte (R200, R203), what an
accepted code leaves (R204 to R206), one turn of the loop (R202), and the round trip of the codec (R209). -/

namespace Sys2Proof.Machine

open Sys2Proof Sys2Proof.Claims

/-! ### Entries -/

/-- Settles O22: a known code has a string, and `firstOf` is the first byte of it. -/
theorem firstOfIsTheFirstByteOfTheString : Obligations.FirstOfIsTheFirstByteOfTheString := by
  intro mcw r c ok known
  obtain ⟨e, he⟩ := ok.string known
  exact ⟨e, he, stringOf_ne_nil he, ok.first known he⟩

/-- Settles O18: a REF code is known and so has a string, and KWKWK puts one byte after the previous code's string. -/
theorem everyResolvableCodeHasAnEntry : Obligations.EveryResolvableCodeHasAnEntry := by
  intro s ok
  refine ⟨fun _ => rfl, fun c h257 hnext => ?_, fun c hhas => ?_⟩
  · obtain ⟨e, he⟩ := ok.string (.inr ⟨h257, hnext⟩)
    exact ⟨e, congrArg (Option.map fun e => (c, e)) he, stringOf_ne_nil he⟩
  · obtain ⟨p, f, hp, -, -, hk⟩ := ok.kwkwk hhas
    have hlen : 0 < p.length := List.length_pos_iff.2 (stringOf_ne_nil hp)
    refine ⟨p ++ [f], ?_, ?_⟩
    · rw [codeEntry_kwkwk, hk]
      rfl
    · rw [List.length_append, List.length_singleton]
      omega

/-! ### An accepted code -/

/-- Accepting a code when the replayed insert has a previous code and room (43_lzw_decoder.md R205, R206). -/
theorem LzdRegs.accept_room {mcw c : Nat} {e : List Byte} {b f : Byte} {r : LzdRegs}
    (room : r.has = true ∧ r.next < 2 ^ mcw) (hf : firstOf r.tab r.prev = some f) (hb : e.head? = some b) :
    r.accept mcw c e = some {
      has := true
      prev := c
      next := r.next + 1
      width := if r.width < mcw ∧ r.next + 2 = 2 ^ r.width then r.width + 1 else r.width
      tab := { code := r.next, pre := r.prev, last := b, first := f } :: r.tab } := by
  simp only [LzdRegs.accept, hb, Option.bind_some, LzdRegs.insert, if_pos room, hf, Option.map_some, LzdRegs.grow]
  split <;> rfl

/-- Accepting a code when nothing is inserted: there is no previous code, or the table is full (R205). -/
theorem LzdRegs.accept_noInsert {mcw c : Nat} {e : List Byte} {b : Byte} {r : LzdRegs}
    (closed : ¬ (r.has = true ∧ r.next < 2 ^ mcw)) (hb : e.head? = some b) :
    r.accept mcw c e = some { r with prev := c, has := true } := by
  simp only [LzdRegs.accept, hb, Option.bind_some, LzdRegs.insert, if_neg closed, Option.map_some]

/-- The state after a code with entry `e` that leaves the decoder's registers `r`. -/
def State.afterCode (e : List Byte) (r : LzdRegs) (s : State) : State :=
  { s.emit e with eng := { (s.emit e).eng with lzd := r } }

/-- An entry that fits is put out, and the registers move on (R204 to R206). -/
theorem lzdAccept_fits {c : Nat} {e : List Byte} {r : LzdRegs} {s : State}
    (fits : s.eng.outPos + e.length ≤ s.caps.outCap) (hr : s.eng.lzd.accept s.caps.maxCodeWidth c e = some r) :
    lzdAccept c (some e) s = .next (s.afterCode e r) := by
  simp only [lzdAccept, putOuts_eq e s (by omega), if_pos fits, emit_eng, emit_caps, hr, State.afterCode]

/-- The entry of a KWKWK code ends in a byte of its own (43_lzw_decoder.md R203). -/
theorem LzdRegs.kwkwk_ne_nil {r : LzdRegs} {e : List Byte} (h : r.kwkwk = some e) : e ≠ [] := by
  unfold LzdRegs.kwkwk at h
  split at h
  · cases h
    exact List.concat_ne_nil _ _
  · cases h

/-- LZW.LIT, LZW.REF and LZW.KWKWK have an entry of at least one byte (43_lzw_decoder.md R204). -/
theorem codeEntry_ne_nil {i : Instr} {c : Nat} {e : List Byte} {s : State} (h : codeEntry s i = some (c, e)) :
    e ≠ [] := by
  cases i with
  | lzwLit b => cases h; exact List.cons_ne_nil _ _
  | lzwRef d =>
    obtain ⟨e', he, ⟨⟩⟩ := Option.map_eq_some_iff.1 h
    exact stringOf_ne_nil he
  | lzwKwkwk d =>
    rw [codeEntry_kwkwk] at h
    obtain ⟨e', he, ⟨⟩⟩ := Option.map_eq_some_iff.1 h
    exact LzdRegs.kwkwk_ne_nil he
  | _ => cases h

/-- Settles O17: the instruction accepts its entry, which fits; the registers depend on whether the insert has a
previous code and room. -/
theorem resolvedCodeIsOutputAndReplayed : Obligations.ResolvedCodeIsOutputAndReplayed := by
  intro i c e s hi ok fits
  obtain ⟨b, tl, rfl⟩ := List.exists_cons_of_ne_nil (codeEntry_ne_nil hi)
  have accepted : ∀ r, s.eng.lzd.accept s.caps.maxCodeWidth c (b :: tl) = some r →
      exec i s = .next (s.afterCode (b :: tl) r) :=
    fun r hr => (exec_of_codeEntry hi).trans (lzdAccept_fits fits hr)
  by_cases room : s.eng.lzd.has = true ∧ s.eng.lzd.next < 2 ^ s.caps.maxCodeWidth
  · obtain ⟨p, f, hp, hf, -, -⟩ := ok.kwkwk room.1
    refine ⟨_, accepted _ (LzdRegs.accept_room room hf rfl), rfl, outByte_emit _ s, rfl, rfl, ?_⟩
    rw [if_pos room]
    refine ⟨rfl, ⟨p, f, b, hp, hf, rfl, rfl, ?_⟩, rfl⟩
    exact (stringOf_cons_self _ _).trans (congrArg (Option.map (· ++ [b])) hp)
  · refine ⟨_, accepted _ (LzdRegs.accept_noInsert room rfl), rfl, outByte_emit _ s, rfl, rfl, ?_⟩
    rw [if_neg room]
    rfl

/-- Settles O20: LZW.BAD is the error entry. -/
theorem badCodeRaisesCorruptStream : Obligations.BadCodeRaisesCorruptStream :=
  fun _ s => ⟨raise .corruptStream s, rfl, errorEntered_raise _ s⟩

/-! ### One turn of the loop -/

/-- The sequencer's turn is its step in the state without that turn, which differs in the host's events alone. -/
theorem step_of_sequencerTurn {s s' : State} (h : sequencerTurn s s') :
    step s = seqStep s' ∧ ∃ q, s' = { s with hostQueue := q } := by
  rcases h with ⟨hq, rfl⟩ | ⟨q, hq, rfl⟩
  · exact ⟨step_seq hq, _, rfl⟩
  · exact ⟨step_of_event hq, q, rfl⟩

/-- The loop's turn with fewer bits left than a code has (43_lzw_decoder.md R202). -/
theorem lzdLoop_at_end {s : State} (h : s.inBits - s.eng.brPos < s.eng.lzd.width) : lzdLoop s = .next (complete s) := by
  simp only [lzdLoop, fetchCode, readBits, if_pos h]

/-- The loop's turn with a code left: it is the number whose bits stand at BR_POS (43_lzw_decoder.md R202). -/
theorem lzdLoop_code {s : State} (h : s.eng.lzd.width ≤ s.inBits - s.eng.brPos) :
    lzdLoop s = exec (decodeCode s.codeCtx (gatherBits s.bit s.eng.lzd.width s.eng.brPos 0))
      { s with eng := { s.eng with brPos := s.eng.brPos + s.eng.lzd.width } } := by
  simp only [lzdLoop, fetchCode, readBits, if_neg (Nat.not_lt.2 h)]

/-- Settles O29, by whether a code is left; the code 256 is LZW.EOS, which completes. -/
theorem stepRunsTheDecodedCode : Obligations.StepRunsTheDecodedCode := by
  intro s s' hturn hphase
  obtain ⟨hstep, q, rfl⟩ := step_of_sequencerTurn hturn
  have loop : step s = lzdLoop { s with hostQueue := q } := by simp only [hstep, seqStep, hphase]
  refine ⟨fun h => loop.trans (lzdLoop_at_end h), fun h => ?_⟩
  have run := loop.trans (lzdLoop_code h)
  refine ⟨gatherBits s.bit s.eng.lzd.width s.eng.brPos 0, ?_, gatherBits_lt _ _ _, run, fun h256 => ?_⟩
  · rw [gatherBits_eq, Nat.zero_mul, Nat.zero_add]
  · exact run.trans (congrArg (fun c => exec (decodeCode s.codeCtx c) _) h256)

/-! ### The round trip -/

/-- Before its first code the decoder is in step with the encoder that has read one byte (43_lzw_decoder.md R208). -/
theorem inStep_start {mcw : Nat} (h : 9 ≤ mcw) (b : Byte) :
    InStep mcw (LzeRegs.fresh.step mcw b).1 LzdRegs.fresh where
  rok := (encoderAt_start h b).ok
  rhas := rfl
  dok := LzdRegs.init_ok h _
  codes := List.Pairwise.nil
  width := rfl
  cases := .inl ⟨rfl, rfl, rfl, Nat.le_of_lt_succ b.isLt⟩

/-- The encoder's first match is the first byte (42_lzw_encoder.md R175). -/
theorem encString_start {mcw : Nat} (h : 9 ≤ mcw) (b : Byte) :
    encString (LzeRegs.fresh.step mcw b).1.dict (LzeRegs.fresh.step mcw b).1.matched = some [b] := by
  have literal := encStr_literal (encoderAt_start h b).ok (c := b.toNat) (Nat.le_of_lt_succ b.isLt)
  rw [BitVec.ofNat_toNat, BitVec.setWidth_eq] at literal
  exact literal

/-- Every code takes at least one bit of the stream, so that the decoder's bound is not reached (log 21). -/
theorem length_lzwCodes_le_bits {mcw : Nat} (h : 9 ≤ mcw) (x : List Byte) :
    (lzwCodes mcw x).length ≤ 8 * (lzwCompress mcw x).length := by
  have one_le : ∀ w ∈ (lzwCodes mcw x).map Prod.snd, 1 ≤ w := by
    rw [List.forall_mem_map]
    intro p hp
    obtain ⟨j, hj, rfl⟩ := List.mem_iff_getElem.1 hp
    rw [lzwCodes_getElem_snd h x hj]
    have nine : 9 ≤ codeWidth mcw (j + 1) := codeWidth_one h ▸ codeWidth_mono mcw (Nat.le_add_left 1 j)
    omega
  have codes := List.card_nsmul_le_sum _ 1 one_le
  have bits := (carries_packed (lzwCodes mcw x)).1
  simp only [List.length_map, smul_eq_mul, mul_one] at codes
  rw [length_fieldBits, Nat.zero_add] at bits
  exact codes.trans bits

/-- The decoder over a stream that carries an input's codes outputs the input (43_lzw_decoder.md R208): an empty input
has the end-of-stream code alone, and else decoder and encoder are in step from the first byte on. -/
theorem lzdRun_lzwCodes {mcw : Nat} (h : 9 ≤ mcw) (x : List Byte) {bit : Nat → Bool} {total fuel : Nat}
    (carried : Carries bit total 0 (lzwCodes mcw x)) (enough : (lzwCodes mcw x).length ≤ fuel) :
    lzdRun mcw bit total fuel LzdRegs.fresh 0 = (x, .none) := by
  cases x with
  | nil =>
    obtain ⟨n, rfl⟩ : ∃ n, fuel = n + 1 := Nat.exists_eq_add_of_le' enough
    rw [lzwCodes_nil] at carried
    have read : readBits bit total 0 LzdRegs.fresh.width = .ok (256, 9) := (carried.read (by decide)).1
    rw [lzdRun, read]
    rfl
  | cons b x =>
    refine lzdRun_of_scan mcw bit total x _ _ [b] 0 fuel (inStep_start h b) (encString_start h b) carried ?_
    rwa [lzwCodes_cons mcw b x h, List.length_append] at enough

/-- Settles O53: the compressed stream carries the input's codes from its first bit on. -/
theorem lzwRoundTrip : Obligations.LzwRoundTrip :=
  fun _ x h _ => lzdRun_lzwCodes h x (carries_packed _) (length_lzwCodes_le_bits h x)

end Sys2Proof.Machine

/-! SUPPORT. The statements of 44_huffman_encoder.md: the symbol list (R230, R232), PopMin and Merge (R235, R236), the
size of a tree (R237), and the codes (R243, R245). -/

namespace Sys2Proof.Machine

open Sys2Proof

/-! ### The codes -/

/-- The symbols of an input's tree are at most the 256 byte values (44_huffman_encoder.md R245). -/
theorem length_leaves_hufTree_le {x : List Byte} (hx : x ≠ []) :
    (codeTree (hufTree x).node (hufTree x).root).leaves.length ≤ 256 := by
  obtain ⟨-, perm, -⟩ := hufTree_spec hx
  have len := perm.length_eq
  rw [List.length_map] at len
  exact len.trans_le (length_symbols_le _)

/-- A one-leaf tree is the leaf of the only byte that occurs, whose code is "0" (44_huffman_encoder.md R239). -/
theorem codeOf_of_root_leaf {x : List Byte} {u : Byte} {w : Nat}
    (root : nodeAt (hufTree x).node (hufTree x).root = .leaf u w) {s : Byte} (hs : s ∈ x) :
    s = u ∧ (hufTree x).codeOf s = [false] := by
  obtain ⟨p, -, code⟩ := codeOf_spec hs
  have leaf := mem_leaves hs
  rw [leavesAt, codeTree_leaf root] at leaf
  rw [root] at code
  exact ⟨List.mem_singleton.1 leaf, code⟩

/-- In a tree of two or more leaves the code of an occurring byte is its path, of at least one bit
(44_huffman_encoder.md R238). -/
theorem codeOf_of_root_internal {x : List Byte} {l r w : Nat}
    (root : nodeAt (hufTree x).node (hufTree x).root = .internal l r w) {s : Byte} (hs : s ∈ x) :
    (codeTree (hufTree x).node (hufTree x).root).path s = some ((hufTree x).codeOf s) ∧ (hufTree x).codeOf s ≠ [] := by
  obtain ⟨p, path, code⟩ := codeOf_spec hs
  obtain ⟨⟨count, -, root_lt, nodes, -⟩, -, -⟩ := hufTree_spec (List.ne_nil_of_mem hs)
  rw [root] at code
  obtain rfl : (hufTree x).codeOf s = p := code
  exact ⟨path, path_ne_nil nodes (count ▸ root_lt) root path⟩

/-- The code of an occurring byte has 1 to 255 bits (44_huffman_encoder.md R245). -/
theorem length_codeOf {x : List Byte} {s : Byte} (hs : s ∈ x) :
    1 ≤ ((hufTree x).codeOf s).length ∧ ((hufTree x).codeOf s).length ≤ 255 := by
  cases root : nodeAt (hufTree x).node (hufTree x).root with
  | leaf u w =>
    rw [(codeOf_of_root_leaf root hs).2]
    decide
  | internal l r w =>
    obtain ⟨path, ne_nil⟩ := codeOf_of_root_internal root hs
    have short := (CodeTree.path_length path).trans (length_leaves_hufTree_le (List.ne_nil_of_mem hs))
    exact ⟨List.length_pos_of_ne_nil ne_nil, Nat.le_of_succ_le_succ short⟩

/-- A byte whose code is a prefix of another's is that other (44_huffman_encoder.md R243). -/
theorem eq_of_codeOf_prefix {x : List Byte} {s t : Byte} (hs : s ∈ x) (ht : t ∈ x)
    (h : (hufTree x).codeOf s <+: (hufTree x).codeOf t) : s = t := by
  cases root : nodeAt (hufTree x).node (hufTree x).root with
  | leaf u w => exact (codeOf_of_root_leaf root hs).1.trans (codeOf_of_root_leaf root ht).1.symm
  | internal l r w =>
    exact CodeTree.prefix_eq (codeOf_of_root_internal root hs).1 (codeOf_of_root_internal root ht).1 h

/-- Settles O58, by whether the tree is one leaf. -/
theorem huffmanCodesArePrefixFree : Obligations.HuffmanCodesArePrefixFree :=
  fun _ => ⟨fun _ hs => length_codeOf hs, fun _ hs _ ht ne h => ne (eq_of_codeOf_prefix hs ht h)⟩

/-! ### The symbol list -/

/-- Settles O54: FREQ holds the number of occurrences of each byte. -/
theorem symbolListIsAscendingCounts : Obligations.SymbolListIsAscendingCounts := by
  intro x
  refine ⟨symbols_ascending _, fun s f => ?_, fun hx => ?_, length_symbols_le _⟩
  · rw [mem_symbols, countAll_getD]
  · exact List.length_pos_of_ne_nil (symbols_ne_nil hx)

/-! ### PopMin and Merge -/

/-- Settles O55: `before` is the order by frequency and then index, so every other node comes after the one popped. -/
theorem popMinTakesTheLeastNode : Obligations.PopMinTakesTheLeastNode := by
  intro nodes active a rest _ h
  obtain ⟨mem, rest_eq, least⟩ := popMin_spec h
  exact ⟨mem, rest_eq, fun b hb ne => (before_iff nodes a b).1 ((least b hb).resolve_left ne)⟩

/-- Settles O56: the new node stands at NODE_CNT, after all the others. -/
theorem mergeJoinsTheTwoNodesPopped : Obligations.MergeJoinsTheTwoNodesPopped := by
  intro h a l b l' listed pop_a pop_b
  refine ⟨_, merge_eq pop_a pop_b, rfl, ?_, fun i hi => ?_, ?_⟩
  · rw [listed]
    exact nodeAt_append_length _ _
  · exact nodeAt_append_lt _ (listed ▸ hi)
  · rw [List.length_append, List.length_singleton, listed]

/-! ### The size of a tree -/

/-- PopMin takes one node out of ACTIVE (44_huffman_encoder.md R235). -/
theorem popMin_length {nodes : List Node} {active rest : List Nat} {a : Nat}
    (h : popMin nodes active = some (a, rest)) : rest.length + 1 = active.length := by
  obtain ⟨mem, rfl, -⟩ := popMin_spec h
  exact List.length_erase_add_one mem

/-- Two or more active nodes are enough for a merge, whatever their frequencies (44_huffman_encoder.md R236). -/
theorem exists_popMin_popMin {h : HufRegs} (two : 2 ≤ h.active.length) :
    ∃ a l b l', popMin h.node h.active = some (a, l) ∧ popMin h.node l = some (b, l') := by
  obtain ⟨a, pop_a, -⟩ := popMin_some (nodes := h.node) (List.ne_nil_of_length_pos (Nat.zero_lt_of_lt two))
  have len := popMin_length pop_a
  obtain ⟨b, pop_b, -⟩ := popMin_some (nodes := h.node) (active := h.active.erase a)
    (List.ne_nil_of_length_pos (by omega))
  exact ⟨a, _, b, _, pop_a, pop_b⟩

/-- A build of a tree of `k` leaves: every merge adds one node and makes ACTIVE one shorter, and the node created last
is active (44_huffman_encoder.md R234, R236). -/
structure HufRegs.BuildsLeaves (k : Nat) (h : HufRegs) : Prop where
  listed : h.nodeCnt = h.node.length
  count : h.nodeCnt + h.active.length = 2 * k
  newest : h.nodeCnt - 1 ∈ h.active

/-- The `k` leaves start such a build (44_huffman_encoder.md R234). -/
theorem buildsLeaves_leaves {l : List (Byte × Nat)} (hl : 1 ≤ l.length) (h : HufRegs) :
    (h.leaves l).BuildsLeaves l.length := by
  rw [leaves_eq]
  refine ⟨(List.length_map _).symm, ?_, List.mem_range.2 (Nat.sub_one_lt_of_lt hl)⟩
  rw [List.length_range, Nat.two_mul]

/-- A merge keeps these counts (44_huffman_encoder.md R236). -/
theorem HufRegs.BuildsLeaves.merge {k : Nat} {h : HufRegs} (b : h.BuildsLeaves k) (two : 2 ≤ h.active.length) :
    ∃ g, h.merge = some g ∧ g.BuildsLeaves k ∧ g.active.length + 1 = h.active.length := by
  obtain ⟨listed, count, -⟩ := b
  obtain ⟨a, l, b, l', pop_a, pop_b⟩ := exists_popMin_popMin two
  have len : l'.length + 2 = h.active.length := by rw [← popMin_length pop_a, ← popMin_length pop_b]
  refine ⟨_, merge_eq pop_a pop_b, ⟨?_, ?_, ?_⟩, ?_⟩
  · rw [List.length_append, List.length_singleton, listed]
  · simp only [List.length_append, List.length_singleton]
    omega
  · exact List.mem_append_right l' (List.mem_singleton.2 (Nat.add_sub_cancel h.nodeCnt 1))
  · rw [List.length_append, List.length_singleton, ← len]

/-- One turn of the merge loop: the root is the last node when one is left, else a merge (44_huffman_encoder.md
R237). -/
theorem HufRegs.BuildsLeaves.buildStep {k : Nat} {h : HufRegs} (b : h.BuildsLeaves k) :
    (h.active.length = 1 ∧ h.buildStep = some (.inr { h with root := h.nodeCnt - 1 })) ∨
    ∃ g, h.buildStep = some (.inl g) ∧ g.BuildsLeaves k ∧ g.active.length + 1 = h.active.length := by
  have newest := b.newest
  match active : h.active with
  | [] => exact absurd (active ▸ newest) List.not_mem_nil
  | [r] =>
    rw [active, List.mem_singleton] at newest
    exact .inl ⟨rfl, by rw [HufRegs.buildStep, active, newest]⟩
  | x :: y :: l =>
    obtain ⟨g, merged, bg, len⟩ := b.merge (by simp [active])
    exact .inr ⟨g, by simp [HufRegs.buildStep, active, merged], bg, active ▸ len⟩

/-- A build of `k` leaves run to its end has `2k - 1` nodes, the last its root (44_huffman_encoder.md R237). -/
theorem HufRegs.BuildsLeaves.build {k : Nat} (fuel : Nat) {h : HufRegs} (b : h.BuildsLeaves k)
    (enough : h.active.length ≤ fuel) :
    (h.build fuel).nodeCnt = 2 * k - 1 ∧ (h.build fuel).root = 2 * k - 2 ∧ (h.build fuel).node.length = 2 * k - 1 := by
  induction fuel generalizing h with
  | zero => exact absurd b.newest (by simp [List.length_eq_zero_iff.1 (Nat.le_zero.1 enough)])
  | succ fuel ih =>
    rcases b.buildStep with ⟨one, turn⟩ | ⟨g, turn, bg, len⟩
    · have count := b.count
      have listed := b.listed
      rw [HufRegs.build, turn]
      simp only
      omega
    · rw [HufRegs.build, turn]
      exact ih bg (by omega)

/-- Settles O57, with BuildsLeaves kept from the leaves to the end of the loop. -/
theorem treeOfKLeavesHasTwoKMinusOneNodes : Obligations.TreeOfKLeavesHasTwoKMinusOneNodes :=
  fun l h hl => (buildsLeaves_leaves hl h).build l.length (by rw [leaves_eq, List.length_range])

end Sys2Proof.Machine

/-! SUPPORT. The statements of 45_huffman_decoder.md: what an accepted header lists (R261, R262), the header that the
encoder writes as the decoder reads it back, and the round trip (R269). -/

namespace Sys2Proof.Machine

open Sys2Proof

/-! ### The header -/

/-- Settles O59: what a header read without an error has read, and a 32-bit N after its pairs. -/
theorem acceptedHeaderIsWellFormed : Obligations.AcceptedHeaderIsWellFormed := by
  intro bit total d h n pos accepted
  obtain ⟨d_le, len, ok, sum, n_lt, pos_eq, inside, -⟩ := readHeader_ok accepted
  have cursor := ok.pos
  exact ⟨d_le, len, ok.rising, ok.freqs, ok.sum.trans sum, n_lt, by omega, inside⟩

/-- The header that the encoder writes for an ascending list of positive frequencies passes every check, and the reader
has the list back and stands at what follows (44_huffman_encoder.md R233, 45_huffman_decoder.md R261, R262). -/
theorem readHeader_headerFields {bit : Nat → Bool} {total n : Nat} {l : List (Byte × Nat)} {ps : List (Nat × Nat)}
    (ascending : (l.map Prod.fst).Pairwise (· < ·)) (len : l.length ≤ 256) (positive : ∀ p ∈ l, 0 < p.2)
    (sum : (l.map Prod.snd).sum = n) (n_lt : n < 2 ^ 32) (carried : Carries bit total 0 (headerFields l n ++ ps)) :
    ∃ h pos, readHeader bit total = .ok (l.length, h, n, pos) ∧ h.leaves = l ∧ Carries bit total pos ps := by
  have freqs : ∀ p ∈ l, 0 < p.2 ∧ p.2 < 2 ^ 32 := fun p hp =>
    ⟨positive p hp, (List.le_sum_of_mem (List.mem_map_of_mem hp)).trans_lt (sum ▸ n_lt)⟩
  rw [headerFields, List.append_assoc, List.cons_append] at carried
  obtain ⟨read_d, carried⟩ := carried.read (len.trans_lt (by decide))
  obtain ⟨h, pairs, leaves, h_sum, -, carried⟩ := hudPairs_of_fields bit total ([(n, 32)] ++ ps) l
    { pos := 0 + 16, last := 0, sum := 0, leaves := [] } ascending freqs (fun _ _ => Nat.zero_le _) carried
  obtain ⟨read_n, carried⟩ := carried.read n_lt
  refine ⟨h, h.pos + 32, ?_, leaves, carried⟩
  have checked : h.sum = n := by rw [h_sum, Nat.zero_add, sum]
  simp only [readHeader, read_d, Nat.not_lt.2 len, if_false, pairs, read_n, checked, if_true]

/-! ### The round trip -/

/-- The header of an input's compressed stream, read back (45_huffman_decoder.md R269). -/
theorem readHeader_symbols {bit : Nat → Bool} {total : Nat} {x : List Byte} {ps : List (Nat × Nat)}
    (hx : x.length < 2 ^ 32) (carried : Carries bit total 0 (headerFields (symbols (countAll x)) x.length ++ ps)) :
    ∃ h pos, readHeader bit total = .ok ((symbols (countAll x)).length, h, x.length, pos) ∧
      h.leaves = symbols (countAll x) ∧ Carries bit total pos ps :=
  readHeader_headerFields (symbols_ascending _) (length_symbols_le _) (fun _ hp => (mem_symbols.1 hp).2)
    ((sum_symbols (countAll_spec x clearFreq length_clearFreq).1).trans (sum_countAll x)) hx carried

/-- Decompression of a stream whose header is accepted and not empty is the walk over the tree of the header's list
(45_huffman_decoder.md R264, R268). -/
theorem huffmanDecompress_of_header {z : List Byte} {d n pos : Nat} {h : HeaderRead}
    (accepted : readHeader (listBit z) (8 * z.length) = .ok (d, h, n, pos)) (hd : d ≠ 0) :
    huffmanDecompress z =
      hudRun (Engine.zero.huf.tree h.leaves).node (Engine.zero.huf.tree h.leaves).root n (listBit z) (8 * z.length)
        (8 * z.length + 1) pos (Engine.zero.huf.tree h.leaves).root 0 := by
  have hz : z ≠ [] := by
    rintro rfl
    obtain ⟨-, -, -, -, -, pos_eq, inside, -⟩ := readHeader_ok accepted
    rw [List.length_nil] at inside
    omega
  simp only [huffmanDecompress, hz, if_false, accepted, hd]

/-- The walk over the payload that `pos` stands at outputs the input: each of its codes is a path of the tree that the
decoder has built from the symbol list (45_huffman_decoder.md R265, R269). -/
theorem hudRun_tree_symbols {x : List Byte} {bit : Nat → Bool} {total pos : Nat}
    (carried : Carries bit total pos (x.flatMap (payloadFields (hufTree x).codes))) :
    hudRun (Engine.zero.huf.tree (symbols (countAll x))).node (Engine.zero.huf.tree (symbols (countAll x))).root
      x.length bit total (total + 1) pos (Engine.zero.huf.tree (symbols (countAll x))).root 0 = (x, .none) := by
  have bits := carried.1
  have walk := hudRun_payload x.length bit total x (total + 1) pos 0 (fun _ hs => hs) (Nat.zero_add _) carried
    (by omega)
  rw [hufTree_eq] at walk
  exact walk

/-- Settles O60: the header gives the decoder the encoder's symbol list, hence its tree, and the walk over the payload
outputs the input. -/
theorem huffmanRoundTrip : Obligations.HuffmanRoundTrip := by
  intro x hx
  by_cases empty : x = []
  · subst empty
    rfl
  · rw [huffmanCompress, if_neg empty]
    obtain ⟨h, pos, accepted, leaves, payload⟩ :=
      readHeader_symbols (hx.trans_lt (by decide)) (carries_packed (headerFields (symbols (countAll x)) x.length ++ _))
    rw [huffmanDecompress_of_header accepted fun no_pairs => symbols_ne_nil empty (List.length_eq_zero_iff.1 no_pairs),
      leaves]
    exact hudRun_tree_symbols payload

end Sys2Proof.Machine

/-! SUPPORT. The statements of 60_exceptions.md: the errors a command can end with (R302), the error entry (R304), and
that no host transaction stops the block (R308). -/

namespace Sys2Proof.Machine

open Sys2Proof Sys2Proof.Claims

/-! ### The errors of a step's operations -/

/-- The operations of a step end with ERR = 0, or raise one of the errors `l` (40_commands.md R138, R139). -/
def ErrWithin (l : List ErrCode) : Except ErrCode State → Prop
  | .ok t => t.err = .none
  | .error e => e ∈ l

/-- A raised error enters ERR by the error entry (60_exceptions.md R304). -/
theorem ErrWithin.settle {l : List ErrCode} {r : Except ErrCode State} (h : ErrWithin l r) (s : State) :
    (settle s r).err ∈ .none :: l := by
  cases r with
  | ok t => exact List.mem_cons.2 (.inl h)
  | error e => exact List.mem_cons_of_mem _ h

section

variable {l : List ErrCode} (overflow : .outputOverflow ∈ l) {s : State} (h : s.err = .none)
include overflow h

/-- A run of `OutByte` raises OUTPUT_OVERFLOW only (41_bitpacker.md R151). -/
theorem errWithin_putOuts (bs : List Byte) : ErrWithin l (putOuts bs s) := by
  induction bs generalizing s with
  | nil => exact h
  | cons v bs ih =>
    rw [putOuts, putOut_eq]
    by_cases full : s.eng.outPos = s.caps.outCap
    · rw [if_pos full]
      exact overflow
    · rw [if_neg full]
      exact ih (s := s.emit [v]) h

theorem errWithin_packOut (r : BitWriter × List Byte) : ErrWithin l (packOut r s) :=
  errWithin_putOuts overflow (s := s.setBw r.1) h r.2

theorem errWithin_writeBits (ps : List (Nat × Nat)) : ErrWithin l (writeBits ps s) :=
  errWithin_packOut overflow h _

theorem errWithin_finishOut : ErrWithin l (finishOut s) := by
  have flush := errWithin_packOut overflow h s.eng.bw.finish
  unfold finishOut
  split
  · rfl
  · rename_i e raised
    rwa [raised] at flush

end

/-! ### The errors of each phase's step -/

/-- The errors in the row of the command that runs in a phase, 0 apart (60_exceptions.md R302). -/
def Phase.errors (p : Phase) : List ErrCode :=
  match p.command with
  | none => []
  | some (false, false) => [.outputOverflow]
  | some (false, true) => [.corruptStream, .outputOverflow]
  | some (true, false) => [.outputOverflow]
  | some (true, true) => [.unexpectedEof, .truncatedStream, .badHeader, .outputOverflow]

section

variable {s : State} (h : s.err = .none)
include h

/-- PHASE = LZE_SCAN (42_lzw_encoder.md R175). -/
theorem err_lzeScan : (lzeScan s).err ∈ .none :: Phase.lzeScan.errors := by
  unfold lzeScan
  split
  · refine ErrWithin.settle ?_ s
    refine errWithin_writeBits (by decide) ?_ _
    exact h
  · exact List.mem_cons.2 (.inl h)

/-- PHASE = LZE_FINISH: the last codes, then the flush (42_lzw_encoder.md R176). -/
theorem err_lzeFinish : (lzeFinish s).err ∈ .none :: Phase.lzeFinish.errors := by
  refine ErrWithin.settle ?_ s
  have write := errWithin_writeBits (l := Phase.lzeFinish.errors) (by decide)
    (s := { s with eng := { s.eng with lze := (s.eng.lze.finish s.caps.maxCodeWidth).1 } }) h
    (s.eng.lze.finish s.caps.maxCodeWidth).2
  split
  · rename_i t wrote
    rw [wrote] at write
    exact errWithin_finishOut (by decide) write
  · rename_i e raised
    rwa [raised] at write

/-- A code with an entry can only overflow OUT (43_lzw_decoder.md R204). -/
theorem err_lzdAccept {c : Nat} {entry : Option (List Byte)} {t : State} (e : lzdAccept c entry s = .next t) :
    t.err ∈ .none :: Phase.lzdLoop.errors := by
  unfold lzdAccept at e
  split at e
  · cases e
  · rename_i bs
    have put := errWithin_putOuts (l := Phase.lzdLoop.errors) (by decide) h bs
    split at e
    · rename_i x raised
      cases e
      rw [raised] at put
      exact List.mem_cons_of_mem _ put
    · rename_i u wrote
      rw [wrote] at put
      split at e <;> cases e
      exact List.mem_cons.2 (.inl put)

/-- The code just read, run: only an unresolvable one raises CORRUPT_STREAM (43_lzw_decoder.md R203). -/
theorem err_code {mcw c : Nat} {t : State} (ok : s.eng.lzd.Ok mcw)
    (e : exec (decodeCode s.codeCtx c) s = .next t) : t.err ∈ .none :: Phase.lzdLoop.errors := by
  rw [exec_code ok] at e
  split at e
  · cases e
    exact List.mem_cons_self
  · split at e
    · cases e
      exact List.mem_cons_of_mem _ List.mem_cons_self
    · exact err_lzdAccept h e

/-- PHASE = LZD_LOOP (43_lzw_decoder.md R202). -/
theorem err_lzdLoop {mcw : Nat} {t : State} (ok : s.eng.lzd.Ok mcw) (e : lzdLoop s = .next t) :
    t.err ∈ .none :: Phase.lzdLoop.errors := by
  unfold lzdLoop at e
  rcases fetchCode_cases s with ⟨-, hf⟩ | ⟨c, -, -, hf⟩ <;> rw [hf] at e
  · cases e
    exact List.mem_cons_self
  · exact err_code (s := { s with eng := { s.eng with brPos := s.eng.brPos + s.eng.lzd.width } }) h ok e

/-- PHASE = HUE_COUNT (44_huffman_encoder.md R230, R231). -/
theorem err_hueCount : (hueCount s).err = .none := by
  unfold hueCount
  split
  · exact h
  · split
    · rfl
    · exact h

/-- PHASE = HUE_HEADER (44_huffman_encoder.md R233). -/
theorem err_hueHeader : (hueHeader s).err ∈ .none :: Phase.hueHeader.errors := by
  refine ErrWithin.settle ?_ s
  refine errWithin_writeBits (by decide) ?_ _
  exact h

/-- PHASE = HUE_BUILD (44_huffman_encoder.md R236, R237). -/
theorem err_hueBuild {t : State} (e : hueBuild s = .next t) : t.err = .none := by
  unfold hueBuild at e
  split at e <;> cases e <;> exact h

/-- PHASE = HUE_PAYLOAD (44_huffman_encoder.md R240, R241). -/
theorem err_huePayload : (huePayload s).err ∈ .none :: Phase.huePayload.errors := by
  refine ErrWithin.settle ?_ s
  split
  · refine errWithin_writeBits (by decide) ?_ _
    exact h
  · exact errWithin_finishOut (by decide) h

/-- A header that is too short or breaks a check (45_huffman_decoder.md R261, R262). -/
theorem errWithin_hudHeaderRead : ErrWithin Phase.hudHeader.errors (hudHeaderRead s) := by
  unfold hudHeaderRead
  split
  · rename_i e raised
    have listed : e ∈ Phase.hudHeader.errors := by
      rcases readHeader_error raised with rfl | rfl <;> decide
    exact listed
  · split_ifs
    · rfl
    · exact h

/-- PHASE = HUD_HEADER (45_huffman_decoder.md R260). -/
theorem err_hudHeader : (hudHeader s).err ∈ .none :: Phase.hudHeader.errors := by
  unfold hudHeader
  split
  · exact List.mem_cons_self
  · exact (errWithin_hudHeaderRead h).settle s

/-- PHASE = HUD_BUILD (45_huffman_decoder.md R264). -/
theorem err_hudBuild {t : State} (e : hudBuild s = .next t) : t.err = .none := by
  unfold hudBuild at e
  split at e <;> cases e <;> exact h

/-- The payload may run out of bits before its last symbol (45_huffman_decoder.md R265). -/
theorem errWithin_hudWalkBit : ErrWithin Phase.hudWalk.errors (hudWalkBit s) := by
  unfold hudWalkBit
  split
  · exact List.mem_cons_of_mem _ List.mem_cons_self
  · refine errWithin_putOuts (by decide) ?_ _
    exact h

/-- PHASE = HUD_WALK (45_huffman_decoder.md R265, R267). -/
theorem err_hudWalk : (hudWalk s).err ∈ .none :: Phase.hudWalk.errors := by
  unfold hudWalk
  split
  · exact (errWithin_hudWalkBit h).settle s
  · exact List.mem_cons_self

end

/-- A step of a running command leaves ERR at 0 or at an error of the command's row (60_exceptions.md R302). -/
theorem RunsIn.err_seqStep {p : Phase} {s t : State} (a : RunsIn p s) (k : ({ s with phase := p } : State).EngineOk)
    (e : Machine.seqStep s = .next t) : t.err ∈ .none :: p.errors := by
  have h := a.running.err
  unfold Machine.seqStep at e
  rw [a.phase] at e
  cases p with
  | idle => cases a.command
  | lzeScan => cases e; exact err_lzeScan h
  | lzeFinish => cases e; exact err_lzeFinish h
  | lzdLoop => exact err_lzdLoop h k.1 e
  | hueCount => cases e; exact List.mem_cons.2 (.inl (err_hueCount h))
  | hueHeader => cases e; exact err_hueHeader h
  | hueBuild => exact List.mem_cons.2 (.inl (err_hueBuild h e))
  | hueCodegen => cases e; exact List.mem_cons.2 (.inl h)
  | huePayload => cases e; exact err_huePayload h
  | hudHeader => cases e; exact err_hudHeader h
  | hudBuild => exact List.mem_cons.2 (.inl (err_hudBuild h e))
  | hudWalk => cases e; exact err_hudWalk h

/-! ### The statements -/

/-- Every engine starts in a phase of its own, so BUSY = 1 after an accepted START (40_commands.md R137). -/
theorem busy_engineStart (s : State) : (engineStart s).busy = true := by
  rcases engineStart_cases s with ⟨-, -, e⟩ | ⟨-, -, e⟩ | ⟨-, -, e⟩ | ⟨-, -, e⟩ <;> rw [e] <;> rfl

/-- The rows of R302, by the command latch. -/
theorem RunsIn.latch_errors {p : Phase} {s : State} (a : RunsIn p s) {e : ErrCode} (he : e ∈ .none :: p.errors) :
    (s.eng.cmdAlg = 0 ∧ s.eng.cmdMode = false ∧ e ∈ [.none, .outputOverflow]) ∨
    (s.eng.cmdAlg = 0 ∧ s.eng.cmdMode = true ∧ e ∈ [.none, .corruptStream, .outputOverflow]) ∨
    (s.eng.cmdAlg = 1 ∧ s.eng.cmdMode = false ∧ e ∈ [.none, .outputOverflow]) ∨
    (s.eng.cmdAlg = 1 ∧ s.eng.cmdMode = true ∧
      e ∈ [.none, .unexpectedEof, .truncatedStream, .badHeader, .outputOverflow]) := by
  have lzw : ∀ alg : BitVec 2, alg.getLsbD 1 = false → alg.getLsbD 0 = false → alg = 0 := by decide
  have huffman : ∀ alg : BitVec 2, alg.getLsbD 1 = false → alg.getLsbD 0 = true → alg = 1 := by decide
  rw [Phase.errors, a.command] at he
  cases codec : s.eng.cmdAlg.getLsbD 0 <;> cases direction : s.eng.cmdMode <;> rw [codec, direction] at he
  · exact .inl ⟨lzw _ a.running.alg codec, rfl, he⟩
  · exact .inr (.inl ⟨lzw _ a.running.alg codec, rfl, he⟩)
  · exact .inr (.inr (.inl ⟨huffman _ a.running.alg codec, rfl, he⟩))
  · exact .inr (.inr (.inr ⟨huffman _ a.running.alg codec, rfl, he⟩))

/-- Settles O24: ERR after any step of a running command is in its row, whether or not the step ends the command; a
START that leaves the block idle was refused. -/
theorem commandsEndOnlyWithTheirErrors : Obligations.CommandsEndOnlyWithTheirErrors := by
  refine ⟨fun s t hinv hb e _ => ?_, ?_⟩
  · obtain ⟨a, k⟩ := RunsIn.of_inv hinv rfl ((busy_eq_true s).1 hb)
    exact a.latch_errors (a.err_seqStep k e)
  · rintro i ⟨mode, alg, ie⟩ s t hi hidle e ht
    rw [exec_of_startFields hi, ctrlStartWrite_idle hidle] at e
    cases e
    cases refused : (s.storeCtrl mode alg ie).startRefused with
    | true => rw [start_refused refused]; rfl
    | false =>
      rw [start_accepted refused, busy_engineStart] at ht
      cases ht

/-- Settles O15, by what a bus transaction can do. -/
theorem hostTransactionsNeverStop : Obligations.HostTransactionsNeverStop := by
  intro x s
  rcases exec_decodeTxn_cases x s with ⟨_, _, e⟩ | ⟨_, e⟩ | ⟨_, _, e⟩ | ⟨_, e⟩ | e <;> exact ⟨_, e⟩

/-- Settles O23: `raise` is the error entry, and it leaves DONE = 1 and PHASE = IDLE. -/
theorem errorEntrySetsStatusAndKeepsHostState : Obligations.ErrorEntrySetsStatusAndKeepsHostState :=
  fun e s => ⟨errorEntered_raise e s, rfl, rfl⟩

end Sys2Proof.Machine

/-! SUPPORT. The statements of 70_reset_and_hazards.md: reset (R330 to R332), the result that depends on the input and
the command alone (R334), the input frozen while a command runs (R336), and progress and termination (R338, R339). -/

namespace Sys2Proof.Machine

open Sys2Proof Sys2Proof.Claims

/-! ### Reset -/

/-- After reset no register but the CAP registers reads as anything but 0 (70_reset_and_hazards.md R332). -/
theorem registerValue_resetWith (p : Params) (idx : BitVec 28) :
    registerValue (State.resetWith p) idx = resetValue p idx := by
  by_cases h0 : idx = 0
  · subst h0; rfl
  by_cases h1 : idx = 1
  · subst h1; rfl
  by_cases h2 : idx = 2
  · subst h2; rfl
  by_cases h3 : idx = 3
  · subst h3; rfl
  rw [registerValue, if_neg h0, if_neg h1, if_neg h2, if_neg h3]
  rfl

/-- Settles O26: a read of a register answers its value, and that is the reset value. -/
theorem resetRegistersReadAsStated : Obligations.ResetRegistersReadAsStated := by
  intro p _
  refine ⟨State.resetWith p, rfl, rfl, rfl, rfl, fun idx => ?_⟩
  rw [readRegisterReturnsItsValue.1 idx, registerValue_resetWith]

/-- Settles O27: the step is the hardware reset of the state with the event taken, and no byte of either buffer is
written after it. -/
theorem hardwareResetAbandonsCommand : Obligations.HardwareResetAbandonsCommand :=
  fun s q hq => ⟨hardReset { s with hostQueue := q }, step_of_event hq, rfl, rfl, rfl, rfl, rfl, rfl, rfl, rfl, rfl,
    rfl, rfl, rfl, fun _ => rfl, fun _ => rfl, rfl⟩

/-! ### The input is frozen while a command runs -/

/-- A CTRL write while BUSY = 1 stores its fields, and its START is rejected (70_reset_and_hazards.md R336). -/
theorem writeCtrl_busy {s : State} (hb : s.busy = true) (v : Word) : writeCtrl v s =
    { s with
      mode := v.getLsbD 1
      alg := v.extractLsb' 2 2
      ie := v.getLsbD 4
      rejected := s.rejected || v.getLsbD 0 } := by
  have start : ctrlStart v = v.getLsbD 0 := rfl
  rw [writeCtrl, ctrlStartWrite_busy hb, start]
  cases v.getLsbD 0
  · rw [Bool.or_false]; rfl
  · rw [Bool.or_true]; rfl

/-- What a running command reads or works in is the same in `u` as in `s`: the input, the engines and the phase. -/
structure CommandKept (s u : State) : Prop where
  inBuf : u.inBuf = s.inBuf
  inEpoch : u.inEpoch = s.inEpoch
  inLen : u.inLen = s.inLen
  eng : u.eng = s.eng
  phase : u.phase = s.phase

/-- A register write while BUSY = 1: IN_LEN is dropped, CTRL and STATUS act on their own fields (R336). -/
theorem CommandKept.writeReg {s : State} (hb : s.busy = true) (idx : BitVec 28) (v : Word) :
    CommandKept s (s.writeReg idx v) := by
  unfold State.writeReg
  split
  · rw [writeCtrl_busy hb]
    exact ⟨rfl, rfl, rfl, rfl, rfl⟩
  · exact ⟨rfl, rfl, rfl, rfl, rfl⟩
  · rw [writeInLen_busy ((busy_eq_true s).1 hb)]
    exact ⟨rfl, rfl, rfl, rfl, rfl⟩
  · exact ⟨rfl, rfl, rfl, rfl, rfl⟩

/-- A read of OUT, at any time (40_commands.md R134). -/
theorem CommandKept.hostReadOut (s : State) (k : Nat) : CommandKept s (s.hostReadOut k) := by
  unfold State.hostReadOut
  split
  · exact ⟨rfl, rfl, rfl, rfl, rfl⟩
  · split <;> exact ⟨rfl, rfl, rfl, rfl, rfl⟩

/-- No bus transaction reaches a running command (70_reset_and_hazards.md R336). -/
theorem CommandKept.of_txn {x : Txn} {s u : State} (hb : s.busy = true) (e : exec (decodeTxn x) s = .next u) :
    CommandKept s u := by
  rcases exec_decodeTxn_cases x s with ⟨idx, v, hx⟩ | ⟨d, hx⟩ | ⟨i, b, hx⟩ | ⟨k, hx⟩ | hx <;> rw [hx] at e <;> cases e
  · exact .writeReg hb idx v
  · exact ⟨rfl, rfl, rfl, rfl, rfl⟩
  · rw [hostWriteIn_busy ((busy_eq_true s).1 hb)]
    exact ⟨rfl, rfl, rfl, rfl, rfl⟩
  · exact .hostReadOut s k
  · exact ⟨rfl, rfl, rfl, rfl, rfl⟩

/-- Settles O16: `CommandKept` for the host's side, `HostKept` for the sequencer's. -/
theorem inputIsFrozenWhileBusy : Obligations.InputIsFrozenWhileBusy := by
  refine ⟨fun x s u hb e => ?_, fun v s hb => ?_, fun v s _ => rfl, fun s u e => ?_⟩
  · obtain ⟨inBuf, inEpoch, inLen, eng, phase⟩ := CommandKept.of_txn hb e
    exact ⟨inBuf, inEpoch, inLen, eng, phase⟩
  · rw [exec_decodeCtrl, writeCtrl_busy hb]
  · have kept := HostKept.seqStep e
    exact ⟨kept.inBuf, kept.inEpoch, kept.inLen⟩

/-! ### The work left -/

/-- The phase of a running command is not IDLE. -/
theorem RunsIn.not_idle {p : Phase} {s : State} (a : RunsIn p s) : s.phase ≠ .idle := by
  obtain ⟨rfl, -, command⟩ := a
  intro h
  rw [h] at command
  cases command

theorem work_of_idle {s : State} (h : s.phase = .idle) : s.work = 0 := by simp only [State.work, h]

/-- A running command has at least one step left. -/
theorem work_pos {s : State} (hb : s.phase ≠ .idle) : 0 < s.work := by
  unfold State.work
  split
  · exact absurd ‹_› hb
  all_goals omega

/-- The end of a command, whether completion or error entry, leaves no work (40_commands.md R138, R139). -/
theorem work_lt_of_idle {s t : State} (ht : t.phase = .idle) (hb : s.phase ≠ .idle) : t.work < s.work := by
  rw [work_of_idle ht]
  exact work_pos hb

@[simp] theorem work_emit (bs : List Byte) (s : State) : (s.emit bs).work = s.work := rfl

@[simp] theorem work_setBw (w : BitWriter) (s : State) : (s.setBw w).work = s.work := rfl

/-- A step whose operations lower the work lowers it whether or not they raise. -/
theorem work_settle {s : State} {r : Except ErrCode State} (hb : s.phase ≠ .idle)
    (h : ∀ t, r = .ok t → t.work < s.work) : (settle s r).work < s.work := by
  cases r with
  | ok t => exact h t rfl
  | error e => exact work_lt_of_idle rfl hb

/-- `Finish` and the completion leave the block idle (42_lzw_encoder.md R176, 44_huffman_encoder.md R241). -/
theorem phase_finishOut {s t : State} (h : finishOut s = .ok t) : t.phase = .idle := by
  unfold finishOut at h
  split at h <;> cases h
  rfl

/-- A tree starts with one active node per listed byte (44_huffman_encoder.md R234). -/
@[simp] theorem length_active_leaves (l : List (Byte × Nat)) (h : HufRegs) : (h.leaves l).active.length = l.length := by
  simp [leaves_eq]

/-- The step answers a next state, with less work left than `n`. -/
def Lowers (n : Nat) (r : Result) : Prop := ∃ t, r = .next t ∧ t.work < n

/-! ### Every phase's step lowers the work -/

/-- PHASE = LZE_SCAN: a byte is read, or only LZE_FINISH is left (42_lzw_encoder.md R175). -/
theorem work_lzeScan {s : State} (a : RunsIn .lzeScan s) : (lzeScan s).work < s.work := by
  unfold lzeScan
  split
  · refine work_settle a.not_idle fun t ht => ?_
    obtain ⟨-, w, bs, rfl⟩ := a.setEng.writeBits ht
    rw [work_emit, work_setBw]
    simp only [State.work, a.phase]
    omega
  · simp only [State.work, a.phase]
    omega

/-- PHASE = LZE_FINISH: the last step (42_lzw_encoder.md R176). -/
theorem work_lzeFinish {s : State} (a : RunsIn .lzeFinish s) : (lzeFinish s).work < s.work := by
  refine work_settle a.not_idle fun t ht => ?_
  split at ht
  · exact work_lt_of_idle (phase_finishOut ht) a.not_idle
  · cases ht

/-- The code just read, run: it has an entry or ends the command, and it reads no more bits (43_lzw_decoder.md R203). -/
theorem lowers_code {s : State} {c : Nat} (a : RunsIn .lzdLoop s) (ok : s.eng.lzd.Ok s.caps.maxCodeWidth)
    (hc : c < 2 ^ s.eng.lzd.width) : Lowers (s.work + 1) (exec (decodeCode s.codeCtx c) s) := by
  have idle : ∀ t : State, t.phase = .idle → t.work < s.work + 1 := fun t ht => by rw [work_of_idle ht]; omega
  rw [exec_code ok]
  split
  · exact ⟨_, rfl, idle _ rfl⟩
  · split
    · exact ⟨_, rfl, idle _ rfl⟩
    · rename_i e he
      obtain ⟨r, -, -, hx⟩ := lzdAccept_full ok a.running.outPos he hc
      refine ⟨_, hx, ?_⟩
      split
      · exact Nat.lt_succ_self s.work
      · exact idle _ rfl

/-- PHASE = LZD_LOOP: the end of the stream, or a code of at least one bit (43_lzw_decoder.md R202). -/
theorem lowers_lzdLoop {s : State} (a : RunsIn .lzdLoop s) (ok : s.eng.lzd.Ok s.caps.maxCodeWidth) :
    Lowers s.work (lzdLoop s) := by
  unfold lzdLoop
  rcases fetchCode_cases s with ⟨-, hf⟩ | ⟨c, hc, hw, hf⟩ <;> rw [hf]
  · exact ⟨_, rfl, work_lt_of_idle rfl a.not_idle⟩
  · have b : RunsIn .lzdLoop { s with eng := { s.eng with brPos := s.eng.brPos + s.eng.lzd.width } } := a.setEng
    obtain ⟨t, ht, hlt⟩ := lowers_code b ok hc
    refine ⟨t, ht, Nat.lt_of_lt_of_le hlt ?_⟩
    have nine : 9 ≤ s.eng.lzd.width := ok.2.2.1
    simp only [State.work, State.inBits, a.phase] at hw ⊢
    omega

/-- PHASE = HUE_COUNT: a byte is counted, or pass 1 is over (44_huffman_encoder.md R230, R231). -/
theorem work_hueCount {s : State} (a : RunsIn .hueCount s) (hp : s.eng.inPos ≤ s.eng.inLenL) :
    (hueCount s).work < s.work := by
  unfold hueCount
  split
  · simp only [State.work, a.phase]
    omega
  · split
    · exact work_lt_of_idle rfl a.not_idle
    · simp only [State.work, a.phase]
      omega

/-- PHASE = HUE_HEADER: at most 256 leaves are to be merged (44_huffman_encoder.md R233, R234). -/
theorem work_hueHeader {s : State} (a : RunsIn .hueHeader s) : (hueHeader s).work < s.work := by
  refine work_settle a.not_idle fun t ht => ?_
  obtain ⟨-, w, bs, rfl⟩ := a.move.writeBits ht
  have leaves : (symbols s.eng.huf.freq).length ≤ 256 := length_symbols_le _
  rw [work_emit, work_setBw]
  simp only [State.work, length_active_leaves, a.phase]
  omega

/-- PHASE = HUE_BUILD: there is a node to take, and a merge leaves one less (44_huffman_encoder.md R236, R237). -/
theorem lowers_hueBuild {s : State} (a : RunsIn .hueBuild s) (k : s.eng.huf.BuildOk s.eng.inLenL) :
    Lowers s.work (hueBuild s) := by
  unfold hueBuild
  rcases buildStep_cases k with ⟨r, -, hb, -⟩ | ⟨g, hb, -, -, fewer, -⟩ <;> rw [hb]
  · exact ⟨_, rfl, by simp only [State.work, a.phase]; omega⟩
  · exact ⟨_, rfl, by simp only [State.work, a.phase]; omega⟩

/-- PHASE = HUE_CODEGEN (44_huffman_encoder.md R238). -/
theorem work_hueCodegen {s : State} (a : RunsIn .hueCodegen s) : (hueCodegen s).work < s.work := by
  simp only [hueCodegen, State.work, a.phase]
  omega

/-- PHASE = HUE_PAYLOAD: a byte's code is written, or pass 2 is over (44_huffman_encoder.md R240, R241). -/
theorem work_huePayload {s : State} (a : RunsIn .huePayload s) : (huePayload s).work < s.work := by
  refine work_settle a.not_idle fun t ht => ?_
  split at ht
  · obtain ⟨-, w, bs, rfl⟩ := a.setEng.writeBits ht
    rw [work_emit, work_setBw]
    simp only [State.work, a.phase]
    omega
  · exact work_lt_of_idle (phase_finishOut ht) a.not_idle

/-- PHASE = HUD_HEADER: an accepted header lists at most 256 leaves (45_huffman_decoder.md R260 to R263). -/
theorem work_hudHeader {s : State} (a : RunsIn .hudHeader s) : (hudHeader s).work < s.work := by
  unfold hudHeader
  split
  · exact work_lt_of_idle rfl a.not_idle
  · refine work_settle a.not_idle fun t ht => ?_
    unfold hudHeaderRead at ht
    split at ht <;> cases ht
    rename_i d h n pos hr
    obtain ⟨d_le, leaves, -⟩ := readHeader_ok hr
    split
    · exact work_lt_of_idle rfl a.not_idle
    · simp only [State.work, State.inBits, length_active_leaves, a.phase]
      omega

/-- PHASE = HUD_BUILD: as in the encoder's build, and then the walk over the payload (45_huffman_decoder.md R264). -/
theorem lowers_hudBuild {s : State} (a : RunsIn .hudBuild s) (k : s.eng.huf.BuildOk s.eng.hud.n) :
    Lowers s.work (hudBuild s) := by
  unfold hudBuild
  rcases buildStep_cases k with ⟨r, -, hb, -⟩ | ⟨g, hb, -, -, fewer, -⟩ <;> rw [hb]
  · exact ⟨_, rfl, by simp only [State.work, State.inBits, a.phase]; omega⟩
  · exact ⟨_, rfl, by simp only [State.work, State.inBits, a.phase]; omega⟩

/-- PHASE = HUD_WALK: a bit is read, or the command ends (45_huffman_decoder.md R265, R267). -/
theorem work_hudWalk {s : State} (a : RunsIn .hudWalk s) : (hudWalk s).work < s.work := by
  unfold hudWalk
  split
  · refine work_settle a.not_idle fun t ht => ?_
    unfold hudWalkBit at ht
    split at ht
    · cases ht
    · rename_i b pos hr
      obtain ⟨left, rfl, -, -⟩ := readBits_ok hr
      obtain ⟨-, rfl⟩ := a.setEng.putOuts ht
      rw [work_emit]
      simp only [State.work, State.inBits, a.phase] at left ⊢
      omega
  · exact work_lt_of_idle rfl a.not_idle

/-! ### Progress and termination -/

/-- The step of a running command, whatever its phase, answers a next state with less work left. -/
theorem RunsIn.lowers {p : Phase} {s : State} (a : RunsIn p s) (k : ({ s with phase := p } : State).EngineOk) :
    Lowers s.work (Machine.seqStep s) := by
  unfold Machine.seqStep
  rw [a.phase]
  cases p with
  | idle => cases a.command
  | lzeScan => exact ⟨_, rfl, work_lzeScan a⟩
  | lzeFinish => exact ⟨_, rfl, work_lzeFinish a⟩
  | lzdLoop => exact lowers_lzdLoop a k.1
  | hueCount => exact ⟨_, rfl, work_hueCount a k.2.2⟩
  | hueHeader => exact ⟨_, rfl, work_hueHeader a⟩
  | hueBuild => exact lowers_hueBuild a k
  | hueCodegen => exact ⟨_, rfl, work_hueCodegen a⟩
  | huePayload => exact ⟨_, rfl, work_huePayload a⟩
  | hudHeader => exact ⟨_, rfl, work_hudHeader a⟩
  | hudBuild => exact lowers_hudBuild a k.1
  | hudWalk => exact ⟨_, rfl, work_hudWalk a⟩

/-- The sequencer's step of a running command, from the invariant (70_reset_and_hazards.md R339). -/
theorem seqStep_lowers {s : State} (h : s.Inv) (hb : s.phase ≠ .idle) : Lowers s.work (seqStep s) := by
  obtain ⟨a, k⟩ := RunsIn.of_inv h rfl hb
  exact a.lowers k

/-- The sequencer's turn, in IDLE too, answers a next state. -/
theorem seqStep_next {s : State} (h : s.Inv) : ∃ t, seqStep s = .next t := by
  by_cases hp : s.phase = .idle
  · exact ⟨s, by simp only [seqStep, hp]⟩
  · obtain ⟨t, ht, -⟩ := seqStep_lowers h hp
    exact ⟨t, ht⟩

/-- Settles O36, by whose turn it is: the sequencer's, `rst`, or a bus transaction. -/
theorem stepNeverStops : Obligations.StepNeverStops := by
  intro s h
  rcases step_cases s with ⟨-, hs⟩ | ⟨q, -, hs⟩ | ⟨q, -, hs⟩ | ⟨x, q, -, hs⟩ <;> rw [hs]
  · exact seqStep_next h
  · exact seqStep_next (s := { s with hostQueue := q }) h
  · exact ⟨_, rfl⟩
  · exact hostTransactionsNeverStop x _

/-- Settles O37, from `seqStep_lowers`. -/
theorem sequencerStepLowersTheWorkLeft : Obligations.SequencerStepLowersTheWorkLeft := by
  intro s t h hb e
  obtain ⟨u, hu, hlt⟩ := seqStep_lowers h ((busy_eq_true s).1 hb)
  rw [hu] at e
  cases e
  exact hlt

/-- Settles O38, by induction on the work left, from which every step of a running command takes. -/
theorem everyCommandEnds : Obligations.EveryCommandEnds := by
  intro s h hq
  induction hn : s.work using Nat.strong_induction_on generalizing s with
  | _ n ih =>
    by_cases hp : s.phase = .idle
    · exact ⟨0, s, Nat.zero_le _, ⟨rfl, hp⟩, h⟩
    · obtain ⟨u, hu, hlt⟩ := seqStep_lowers h hp
      rw [hn] at hlt
      obtain ⟨k, t, hk, ht, inv⟩ := ih u.work hlt u (inv_seqStep h hu) ((HostKept.seqStep hu).hostQueue.trans hq) rfl
      exact ⟨k + 1, t, hk.trans_lt hlt, endsAt_succ ((step_seq hq).trans hu) ht, inv⟩

/-! ### The result depends on the input and the command alone -/

/-- With the host silent no event comes up during a run. -/
theorem hostQueue_run {k : Nat} {s t : State} (hq : s.hostQueue = []) (h : Sys2Proof.core.run k s = .next t) :
    t.hostQueue = [] := by
  induction k generalizing s with
  | zero => cases h; exact hq
  | succ k ih =>
    simp only [Host.Core.run] at h
    split at h
    · rename_i u hu
      have turn : seqStep s = .next u := (step_seq hq).symm.trans hu
      exact ih ((HostKept.seqStep turn).hostQueue.trans hq) h
    · cases h
    · cases h

/-- A START takes no host event (40_commands.md R130). -/
theorem hostQueue_ctrlStartWrite (mode : Bool) (alg : BitVec 2) (ie : Bool) (s : State) :
    (ctrlStartWrite mode alg ie s).hostQueue = s.hostQueue := by
  rcases ctrlStartWrite_cases mode alg ie s with ⟨-, e⟩ | ⟨-, -, e⟩ | ⟨-, -, e⟩ <;> rw [e]
  · rfl
  · rfl
  · rcases engineStart_cases (latch (s.storeCtrl mode alg ie)) with ⟨-, -, e⟩ | ⟨-, -, e⟩ | ⟨-, -, e⟩ | ⟨-, -, e⟩ <;>
      rw [e] <;> rfl

/-- Every accepted START, from a ready state, runs to the outcome of the engine function that its fields select
(40_commands.md R141), by whichever of the five START instructions it was written. -/
theorem runsToOutcome_engineFunction {i : Instr} {mode ie : Bool} {alg : BitVec 2} {s : State}
    (hi : startFields i = some (mode, alg, ie)) (ha : alg.getLsbD 1 = false) (hr : readyToStart s) :
    runsToOutcome i (engineFunction s.caps.maxCodeWidth (alg.getLsbD 0) mode s.input) mode alg ie s := by
  have named : ∀ {j : Instr} {f : List Byte × ErrCode}, startFields j = some (mode, alg, ie) →
      runsToOutcome j f mode alg ie s → runsToOutcome i f mode alg ie s := by
    intro j f hj h
    rwa [runsToOutcome, exec_of_startFields hi, ← exec_of_startFields hj]
  have algs : ∀ a : BitVec 2, a.getLsbD 1 = false → a = 0 ∨ a = 1 := by decide
  rcases algs alg ha with rfl | rfl <;> cases mode
  · exact named (j := .lzwC ie) rfl (lzwCompressOutcome ie s hr)
  · exact named (j := .lzwD ie) rfl (lzwDecompressOutcome ie s hr)
  · exact named (j := .hufC ie) rfl (huffmanCompressOutcome ie s hr)
  · exact named (j := .hufD ie) rfl (huffmanDecompressOutcome ie s hr)

/-- What the host reads as the result of a command is the same in `u` as in `v` (70_reset_and_hazards.md R334). -/
structure SameResult (u v : State) : Prop where
  err : u.err = v.err
  outLen : u.outLen = v.outLen
  result : u.result = v.result

/-- The bytes of a result are those below OUT_LEN. -/
theorem result_congr {u v : State} (hl : u.outLen = v.outLen)
    (hb : ∀ k < u.outLen.toNat, u.outByte k = v.outByte k) : u.result = v.result := by
  rw [State.result, State.result, ← hl]
  exact List.map_congr_left fun k hk => hb k (List.mem_range.1 hk)

/-- A command that puts nothing out has the empty result. -/
theorem SameResult.of_outLen_zero {u v : State} {e : ErrCode} (hu : u.err = e ∧ u.outLen = 0)
    (hv : v.err = e ∧ v.outLen = 0) : SameResult u v := by
  obtain ⟨uerr, ulen⟩ := hu
  obtain ⟨verr, vlen⟩ := hv
  have len : u.outLen = v.outLen := ulen.trans vlen.symm
  exact ⟨uerr.trans verr.symm, len, result_congr len fun k hk => by simp [ulen] at hk⟩

/-- The outcome of a command fixes its result, whatever the two states it started in held of OUT (40_commands.md
R141). -/
theorem SameResult.of_outcome {f : List Byte × ErrCode} {s s' u u' : State} (hc : s.caps = s'.caps)
    (h : commandOutcome f s u) (h' : commandOutcome f s' u') : SameResult u u' := by
  unfold commandOutcome at h h'
  rw [← hc] at h'
  split_ifs at h h'
  · exact .of_outLen_zero h h'
  · obtain ⟨err, len, bytes⟩ := h
    obtain ⟨err', len', bytes'⟩ := h'
    have lens : u.outLen = u'.outLen := len.trans len'.symm
    refine ⟨err.trans err'.symm, lens, result_congr lens fun k hk => ?_⟩
    have hk : k < f.1.length := by
      rw [len, BitVec.toNat_ofNat] at hk
      exact hk.trans_le (Nat.mod_le _ _)
    rw [bytes, bytes', dif_pos hk, dif_pos hk]
  · exact .of_outLen_zero h h'

/-- A run with the host silent ends in the state that the command's outcome speaks of. -/
theorem outcome_of_ends {i : Instr} {f : List Byte × ErrCode} {mode ie : Bool} {alg : BitVec 2} {s t u : State}
    {k : Nat} (h : runsToOutcome i f mode alg ie s) (e : exec i s = .next t) (hq : t.hostQueue = []) (hu : endsAt t k u) :
    commandOutcome f s u := by
  obtain ⟨t', e', k', u', hu', -, outcome, -, -, -, -, -, -, -, -, -, hq'⟩ := h
  rw [e] at e'
  cases e'
  rwa [ends_unique hu hu' (hostQueue_run hq hu.1) hq']

/-- A refused START ends at once, with ERR = 5 and no output (40_commands.md R146). -/
theorem refused_ends {mode ie : Bool} {alg : BitVec 2} {s u : State} {k : Nat} (ha : alg.getLsbD 1 = true)
    (hr : readyToStart s) (hu : endsAt (ctrlStartWrite mode alg ie s) k u) :
    u.err = .illegalCommand ∧ u.outLen = 0 := by
  obtain ⟨-, hp, hq, -⟩ := hr
  have refused : ctrlStartWrite mode alg ie s = illegal (s.storeCtrl mode alg ie) := by
    rw [ctrlStartWrite_idle ((busy_eq_false s).2 hp), start_refused ((startRefused_iff _).2 (.inl ha))]
  rw [refused] at hu
  have idle := run_idle (s := illegal (s.storeCtrl mode alg ie)) hp hq k
  cases idle.symm.trans hu.1
  exact ⟨rfl, rfl⟩

/-- Settles O44: a START with a reserved ALG is refused in both states, and any other has in both the outcome of the
same engine function on the same input. -/
theorem resultDependsOnlyOnInputAndCommand : Obligations.ResultDependsOnlyOnInputAndCommand := by
  rintro i ⟨mode, alg, ie⟩ s s' t t' k k' u u' hi hr hr' hcaps hinput e e' hu hu'
  suffices same : SameResult u u' from ⟨same.err, same.outLen, same.result⟩
  have started := fun v : State => exec_of_startFields hi v
  cases ha : alg.getLsbD 1 with
  | true =>
    rw [started] at e e'
    cases e
    cases e'
    exact .of_outLen_zero (refused_ends ha hr hu) (refused_ends ha hr' hu')
  | false =>
    have outcome := runsToOutcome_engineFunction hi ha hr
    have outcome' := runsToOutcome_engineFunction hi ha hr'
    rw [← hcaps, ← hinput] at outcome'
    have quiet : ∀ {v w : State}, readyToStart v → exec i v = .next w → w.hostQueue = [] := by
      rintro v w ⟨-, -, hq, -⟩ ev
      rw [started] at ev
      cases ev
      exact (hostQueue_ctrlStartWrite mode alg ie v).trans hq
    exact .of_outcome hcaps (outcome_of_ends outcome e (quiet hr e) hu) (outcome_of_ends outcome' e' (quiet hr' e') hu')

end Sys2Proof.Machine
